-- ==== Sys2Proof/Word.lean ====
section
/-! DEFINITION. The engine's data widths (00_scope.md R9, R11): a byte, the 32-bit word of the SM3 and SM4 data paths,
the 128-bit SM4 block, and the octet string that carries every operand and result. -/
namespace Sys2Proof

/-- A byte is 8 bits (R11). -/
abbrev Byte := BitVec 8

/-- The word of the SM3 and SM4 data paths, 32 bits, unsigned (R9, R10). -/
abbrev Word := BitVec 32

/-- An SM4 block read as one 128-bit big-endian integer (R12, R54). -/
abbrev Block := BitVec 128

/-- An octet string: a finite sequence of bytes, indexed from 0 (R11). The empty string ε is `[]`. -/
abbrev Octets := List Byte

end Sys2Proof
end

