-- ==== Sys2Proof/Syntax.lean ====
section
/-! DEFINITION. The 28 commands of the opcode map (30_encoding.md R68), one constructor a row of opcode_table.json.
Every operand but MODE_INIT's selections travels in DIN (R76), so only `modeInit` carries fields. -/
namespace Sys2Proof

/-- The four modes of operation (10_state.md R30; codes 0..3). -/
inductive Mode where
  | ecb | cbc | ctr | gcm
deriving DecidableEq, Repr

/-- DIR: 0 encrypt, 1 decrypt (R70). -/
inductive Dir where
  | enc | dec
deriving DecidableEq, Repr

/-- PAD: 0 NoPadding, 1 PKCS7Padding (R71). -/
inductive Pad where
  | noPadding | pkcs7
deriving DecidableEq, Repr

/-- A command. The constructors stand in the order of the opcode map of R68.

`modeInit` carries format M's selections (R67): `mode` is the number of CMD[11:8] (0..3 name a mode, 4..15 are
"unsupported mode" but legal encodings, R69, R79) and `tagLen` that of CMD[20:16] (R72). -/
inductive Instr where
  | nop
  | getState
  | engineReset
  | sm3Init
  | sm3Update
  | sm3Final
  | sm3Oneshot
  | sm3Compress
  | sm3Expand
  | sm4SetKey
  | sm4EncBlock
  | sm4DecBlock
  | sm4ClearKey
  | modeInit (mode : Nat) (dir : Dir) (pad : Pad) (tagLen : Nat)
  | modeAad
  | modeUpdate
  | modeFinal
  | modeAbort
  | fpAdd
  | fpSub
  | fpMul
  | fpSqr
  | fpInv
  | fnAdd
  | fnSub
  | fnMul
  | fnSqr
  | fnInv
deriving DecidableEq, Repr

end Sys2Proof
end

