-- ==== Sys2Proof/WellFormed.lean ====
section
/-! DEFINITION. When a command's fields fit their bit fields (30_encoding.md R67): MODE has four bits and TAGLEN five.
Format S commands have no fields, so each is well formed. -/
namespace Sys2Proof

/-- MODE = CMD[11:8] holds a number below 16 (R67, R69). -/
def modeFits (mode : Nat) : Bool := mode < 16

/-- TAGLEN = CMD[20:16] holds a number below 32 (R67, R72). -/
def tagLenFits (tagLen : Nat) : Bool := tagLen < 32

/-- Every field of the command fits its bits. -/
def Instr.wellFormed : Instr → Bool
  | .nop => true
  | .getState => true
  | .engineReset => true
  | .sm3Init => true
  | .sm3Update => true
  | .sm3Final => true
  | .sm3Oneshot => true
  | .sm3Compress => true
  | .sm3Expand => true
  | .sm4SetKey => true
  | .sm4EncBlock => true
  | .sm4DecBlock => true
  | .sm4ClearKey => true
  | .modeInit mode _ _ tagLen => modeFits mode && tagLenFits tagLen
  | .modeAad => true
  | .modeUpdate => true
  | .modeFinal => true
  | .modeAbort => true
  | .fpAdd => true
  | .fpSub => true
  | .fpMul => true
  | .fpSqr => true
  | .fpInv => true
  | .fnAdd => true
  | .fnSub => true
  | .fnMul => true
  | .fnSqr => true
  | .fnInv => true

end Sys2Proof
end

