-- ==== Sys2Proof/Decode.lean ====
section
/-! DEFINITION. Decoding a 32-bit command word (30_encoding.md R66-R68, R73, R74, R78), total on every word, and the
encoder written from the same formats. -/
namespace Sys2Proof

/-- Why a command word is illegal (R73, R74). Both give STATUS IllegalCommand and change no state. -/
inductive IllegalWord where
  /-- OPC = CMD[7:0] is not in the map of R68 (R74). -/
  | unassignedOpcode
  /-- A reserved bit of the word's format is set (R73). -/
  | reservedBits
deriving DecidableEq, Repr

/-- What a command word decodes to: exactly one command, or an illegal word (R78). -/
inductive Decoded where
  | command (i : Instr)
  | illegal (why : IllegalWord)
deriving DecidableEq, Repr

/-- CMD[lo + width − 1 : lo], the unsigned bit field of R10. -/
def cmdField (cmd : BitVec 32) (lo width : Nat) : Nat := cmd.toNat / 2 ^ lo % 2 ^ width

/-- OPC = CMD[7:0] (R68). -/
def opcField (cmd : BitVec 32) : Nat := cmdField cmd 0 8

/-- DIR = CMD[12] (R70). -/
def dirOfBit : Nat → Dir
  | 0 => .enc
  | _ => .dec

/-- PAD = CMD[13] (R71). -/
def padOfBit : Nat → Pad
  | 0 => .noPadding
  | _ => .pkcs7

/-- The format S command of an opcode (R66, R68); `none` for the opcodes the map does not assign (R74) and for
MODE_INIT, whose format is M. -/
def formatSCommand : Nat → Option Instr
  | 0x00 => some .nop
  | 0x01 => some .getState
  | 0x02 => some .engineReset
  | 0x10 => some .sm3Init
  | 0x11 => some .sm3Update
  | 0x12 => some .sm3Final
  | 0x13 => some .sm3Oneshot
  | 0x14 => some .sm3Compress
  | 0x15 => some .sm3Expand
  | 0x20 => some .sm4SetKey
  | 0x21 => some .sm4EncBlock
  | 0x22 => some .sm4DecBlock
  | 0x23 => some .sm4ClearKey
  | 0x31 => some .modeAad
  | 0x32 => some .modeUpdate
  | 0x33 => some .modeFinal
  | 0x34 => some .modeAbort
  | 0x40 => some .fpAdd
  | 0x41 => some .fpSub
  | 0x42 => some .fpMul
  | 0x43 => some .fpSqr
  | 0x44 => some .fpInv
  | 0x48 => some .fnAdd
  | 0x49 => some .fnSub
  | 0x4A => some .fnMul
  | 0x4B => some .fnSqr
  | 0x4C => some .fnInv
  | _ => none

/-- MODE_INIT's opcode, the one of format M (R67). -/
def modeInitOpcode : Nat := 0x30

/-- Format M (R67, R78): CMD[31:21] and CMD[15:14] are reserved and must be 0. -/
def decodeFormatM (cmd : BitVec 32) : Decoded :=
  if cmdField cmd 21 11 ≠ 0 ∨ cmdField cmd 14 2 ≠ 0 then .illegal .reservedBits
  else .command (.modeInit (cmdField cmd 8 4) (dirOfBit (cmdField cmd 12 1)) (padOfBit (cmdField cmd 13 1))
    (cmdField cmd 16 5))

/-- Format S (R66, R78): an assigned opcode, and CMD[31:8] reserved, must be 0. -/
def decodeFormatS (cmd : BitVec 32) : Decoded :=
  match formatSCommand (opcField cmd) with
  | none => .illegal .unassignedOpcode
  | some i => if cmdField cmd 8 24 ≠ 0 then .illegal .reservedBits else .command i

/-- Decode a command word (R78). -/
def decode (cmd : BitVec 32) : Decoded :=
  if opcField cmd = modeInitOpcode then decodeFormatM cmd else decodeFormatS cmd

/-- The command a word of `nbits` bits stands for, the bits above `nbits` being 0; `none` where the decoder refuses.
A command word is always 32 bits (R65), and it reaches the engine as a word, so no byte order is at issue. -/
def decodeTableWord (nbits w : Nat) : Option Instr :=
  match decode (BitVec.ofNat 32 (w % 2 ^ nbits)) with
  | .command i => some i
  | .illegal _ => none

/-- DIR's bit (R70). -/
def Dir.bit : Dir → Nat
  | .enc => 0
  | .dec => 1

/-- PAD's bit (R71). -/
def Pad.bit : Pad → Nat
  | .noPadding => 0
  | .pkcs7 => 1

/-- OPC of each command (R68). -/
def Instr.opcode : Instr → Nat
  | .nop => 0x00
  | .getState => 0x01
  | .engineReset => 0x02
  | .sm3Init => 0x10
  | .sm3Update => 0x11
  | .sm3Final => 0x12
  | .sm3Oneshot => 0x13
  | .sm3Compress => 0x14
  | .sm3Expand => 0x15
  | .sm4SetKey => 0x20
  | .sm4EncBlock => 0x21
  | .sm4DecBlock => 0x22
  | .sm4ClearKey => 0x23
  | .modeInit _ _ _ _ => 0x30
  | .modeAad => 0x31
  | .modeUpdate => 0x32
  | .modeFinal => 0x33
  | .modeAbort => 0x34
  | .fpAdd => 0x40
  | .fpSub => 0x41
  | .fpMul => 0x42
  | .fpSqr => 0x43
  | .fpInv => 0x44
  | .fnAdd => 0x48
  | .fnSub => 0x49
  | .fnMul => 0x4A
  | .fnSqr => 0x4B
  | .fnInv => 0x4C

/-- The selections of format M above the opcode: MODE at bit 8, DIR at 12, PAD at 13, TAGLEN at 16 (R67). Format S has
none (R66). -/
def Instr.selections : Instr → Nat
  | .modeInit mode dir pad tagLen => mode * 2 ^ 8 + dir.bit * 2 ^ 12 + pad.bit * 2 ^ 13 + tagLen * 2 ^ 16
  | .nop | .getState | .engineReset => 0
  | .sm3Init | .sm3Update | .sm3Final | .sm3Oneshot | .sm3Compress | .sm3Expand => 0
  | .sm4SetKey | .sm4EncBlock | .sm4DecBlock | .sm4ClearKey => 0
  | .modeAad | .modeUpdate | .modeFinal | .modeAbort => 0
  | .fpAdd | .fpSub | .fpMul | .fpSqr | .fpInv => 0
  | .fnAdd | .fnSub | .fnMul | .fnSqr | .fnInv => 0

/-- The command word of a well-formed command (R66, R67). -/
def encode (i : Instr) : BitVec 32 := BitVec.ofNat 32 (i.opcode + i.selections)

end Sys2Proof
end

