-- ==== Sys2Proof/Config.lean ====
section
/-! DEFINITION. What an implementation fixes and the spec leaves OPEN (00_scope.md R9, 92_eei_decisions.md D2, D37, D47).
Each OPEN parameter is an opaque constant with no body, so no proof can learn a value of it; `Machine.Params` carries
the two that a command reads, so that a statement over every state also holds for every value of them. -/
namespace Sys2Proof

/-- `MAX_DIN_BYTES` (R9, R59, D47) is "an integer ≥ 96 or unbounded". It is held as what it allows beyond 96:
`none` is unbounded and `some k` is the limit 96 + k, so that no value below 96 can be written. OPEN. -/
opaque Config.maxDinExtra : Option Nat

/-- `GCM_DEC_BUF_BYTES` (R9, R38, D37), "an integer ≥ 0". OPEN. -/
opaque Config.gcmDecBufBytes : Nat

/-- `N_ENGINES` (R9, R44, D2), how many independent engine instances the platform holds. OPEN. -/
opaque Config.nEngines : Nat

/-- The longest DIN of fixed length, SM3_COMPRESS's 96 bytes, the least value of `MAX_DIN_BYTES` (D47). -/
def Config.leastMaxDin : Nat := 96

/-- SM3_UPDATE and SM3_ONESHOT take fewer than 2^64 message bits (R26, R145, R147). -/
def Config.sm3BitLimit : Nat := 2 ^ 64

/-- A GCM IV and the AAD of a session are shorter than 2^61 bytes (R246, R247, R257). -/
def Config.gcmAadLimit : Nat := 2 ^ 61

/-- A GCM session takes at most 2^36 − 32 bytes of data (R249, R257). -/
def Config.gcmDataLimit : Nat := 2 ^ 36 - 32

end Sys2Proof
end

