-- ==== Sys2Proof/Machine/State.lean ====
section
/-! DEFINITION. What the machine holds: the four unit contexts that are the whole architectural state (10_state.md R22),
the implementation's parameters, and the host's end of the command port. -/
namespace Sys2Proof.Machine

/-- The phase of the SM3 context (R23) and of the mode session (R29). -/
inductive Phase where
  | idle | active
deriving DecidableEq, Repr

/-- Eight words V[0..7], the SM3 chaining value; also the working registers A..H (R24, R139). V[0] is A. -/
structure Chain where
  a : Word
  b : Word
  c : Word
  d : Word
  e : Word
  f : Word
  g : Word
  h : Word
deriving DecidableEq, Repr

/-- The all-zero chaining value. -/
def Chain.zero : Chain := ⟨0, 0, 0, 0, 0, 0, 0, 0⟩

/-- The SM3 context `sm3.*` (R23-R27). -/
structure Sm3Ctx where
  /-- `sm3.phase`, 1 bit (R23). -/
  phase : Phase
  /-- `sm3.V[0..7]`, eight 32-bit words, the chaining value (R24). -/
  V : Chain
  /-- `sm3.buf[0..63]`, the pending-block buffer (R25). -/
  buf : Vector Byte 64
  /-- `sm3.nbuf`, 6 bits, the number of valid bytes of `buf` (R25). -/
  nbuf : Fin 64
  /-- `sm3.bitlen`, 64 bits, the message bits absorbed since SM3_INIT (R26). -/
  bitlen : BitVec 64
deriving DecidableEq, Repr

/-- The SM4 key unit `sm4.*` (R28). -/
structure Sm4Key where
  /-- `sm4.key_valid`, 1 bit. -/
  keyValid : Bool
  /-- `sm4.rk[0..31]`, the thirty-two 32-bit round keys. -/
  rk : Vector Word 32
deriving DecidableEq, Repr

/-- The mode-controller session `sess.*` (R29-R33). -/
structure Session where
  /-- `sess.phase`, 1 bit (R29). -/
  phase : Phase
  /-- `sess.mode`, 2 bits (R30). -/
  mode : Mode
  /-- `sess.dir`, 1 bit (R30). -/
  dir : Dir
  /-- `sess.pad`, 1 bit (R30). -/
  pad : Pad
  /-- `sess.t`, the GCM tag length in bytes, 0 or 12..16 (R30). -/
  t : Fin 17
  /-- `sess.chain`, 128 bits, the CBC chaining block (R31). -/
  chain : Block
  /-- `sess.pend`, 0..16 bytes, the ECB/CBC pending input (R32). -/
  pend : Octets
  /-- `sess.ctr`, 128 bits, the next counter block to encrypt (R33). -/
  ctr : Block
  /-- `sess.ks`, the last keystream block, byte 0 its most significant byte (R33, R47). -/
  ks : Block
  /-- `sess.ks_off`, 0..16, how many bytes of `ks` are used (R33). -/
  ksOff : Fin 17
deriving DecidableEq, Repr

/-- The GCM extension of the session `gcm.*` (R34-R38). -/
structure Gcm where
  /-- `gcm.H`, 128 bits, the hash subkey (R34). -/
  H : Block
  /-- `gcm.J0`, 128 bits, the pre-counter block (R34). -/
  J0 : Block
  /-- `gcm.X`, 128 bits, the running GHASH register (R35). -/
  X : Block
  /-- `gcm.gpend`, 0..15 bytes waiting to be absorbed into X (R35). -/
  gpend : Octets
  /-- `gcm.alen`, 64 bits, the AAD bytes of the session (R36). -/
  alen : BitVec 64
  /-- `gcm.clen`, 64 bits, the ciphertext bytes of the session (R36). -/
  clen : BitVec 64
  /-- `gcm.started`, 1 bit, set by the session's first MODE_UPDATE (R37). -/
  started : Bool
  /-- `gcm.dbuf`, the plaintext withheld by a GCM decryption session (R38). -/
  dbuf : Octets
deriving DecidableEq, Repr

/-- The architectural state, exactly the four unit contexts of R22. -/
structure Engine where
  sm3 : Sm3Ctx
  sm4 : Sm4Key
  sess : Session
  gcm : Gcm
deriving DecidableEq, Repr

/-- The STATUS of a response (R280). The three reserved names are kept as constructors that no step produces (R293). -/
inductive Status where
  | ok
  | invalidKey
  | invalidParameter
  | invalidInputLength
  | badPadding
  | authenticationFailed
  | entropyFailure
  | invalidOperand
  | illegalCommand
  | sequenceError
  | pointAtInfinity
  | notOnCurve
deriving DecidableEq, Repr

/-- A command: the pair (CMD, DIN) of R65. -/
structure Command where
  cmd : BitVec 32
  din : Octets
deriving DecidableEq, Repr

/-- What the outside world does to one engine instance: the host issues a command (R20), or the platform gives the
reset event (R310). -/
inductive Input where
  | command (c : Command)
  | resetEvent
deriving DecidableEq, Repr

/-- A response: the pair (STATUS, DOUT) of R65. -/
structure Response where
  status : Status
  dout : Octets
deriving DecidableEq, Repr

/-- The OPEN parameters that a command reads, arguments of the model (R9, R47). No step writes them. -/
structure Params where
  /-- What `MAX_DIN_BYTES` allows beyond 96; `none` is unbounded (R59, D47). -/
  maxDinExtra : Option Nat
  /-- `GCM_DEC_BUF_BYTES` (R38, R250, D37). -/
  gcmDecBufBytes : Nat
deriving DecidableEq, Repr

/-- The machine: the engine, its parameters, and the host's end of the command port. The last three fields are the
model's own (DESIGN CHOICE, log entries 1 and 2): R22 says CMD, DIN, STATUS and DOUT "belong to one transaction and are not state". -/
structure State where
  /-- The architectural state (R22). -/
  engine : Engine
  /-- The implementation's parameters (R9). -/
  params : Params
  /-- The inputs still to come, in the order they are given (R61). -/
  pending : List Input
  /-- DIN of the transaction in progress; ε between commands (R65). -/
  din : Octets
  /-- The responses given so far, the newest first (R20, R65). -/
  responses : List Response
deriving DecidableEq, Repr

/-- Why the machine stops with a fault: never. "None is a model fault: every error the engine can report is a defined
response of the chip" (R281). No constructor, so no step can raise one (safe). -/
inductive Fault
deriving DecidableEq, Repr

/-- Why the machine refuses a step. -/
inductive Refusal where
  /-- Raised by an arm of `exec` whose command has no meaning in the model yet (safe: a claim about such a command cannot be
  proved). No arm raises it: every command of the opcode map has its meaning. -/
  | notModelled (mnemonic : String)
deriving DecidableEq, Repr

/-- The IDLE value of the SM3 context: every element at its reset value (R45, R46). -/
def Sm3Ctx.idle : Sm3Ctx :=
  { phase := .idle, V := .zero, buf := Vector.replicate 64 0, nbuf := 0, bitlen := 0 }

/-- No key loaded: key_valid = 0 and rk all zero (R28, R45). -/
def Sm4Key.cleared : Sm4Key := { keyValid := false, rk := Vector.replicate 32 0 }

/-- The IDLE value of a session (R45, R46). -/
def Session.idle : Session :=
  { phase := .idle, mode := .ecb, dir := .enc, pad := .noPadding, t := 0, chain := 0, pend := [], ctr := 0, ks := 0,
    ksOff := 16 }

/-- The IDLE value of the GCM extension (R45, R46). -/
def Gcm.idle : Gcm :=
  { H := 0, J0 := 0, X := 0, gpend := [], alen := 0, clen := 0, started := false, dbuf := [] }

/-- Every state element at its reset value (R45, R310). -/
def Engine.reset : Engine := { sm3 := .idle, sm4 := .cleared, sess := .idle, gcm := .idle }

/-- The machine right after reset (R45, R310): no input pending, no transaction in progress, no response given. The
parameters are the implementation's own, unknown values (log entries 3 and 4). -/
def State.reset : State :=
  { engine := .reset, params := { maxDinExtra := Config.maxDinExtra, gcmDecBufBytes := Config.gcmDecBufBytes },
    pending := [], din := [], responses := [] }

end Sys2Proof.Machine
end

