-- ==== Sys2Proof/Machine/Operands.lean ====
section
/-! DEFINITION. How operands are read from DIN and results laid out in DOUT (30_encoding.md R76): big-endian conversion
(00_scope.md R12), blocks and words of an octet string (20_memory.md R54), and the codes of the session's selections. -/
namespace Sys2Proof.Machine

/-- BE_k(s) for k = len(s): the unsigned integer of a byte string, s[0] most significant (R12). -/
def beNat : Octets → Nat
  | [] => 0
  | b :: s => b.toNat * 256 ^ s.length + beNat s

/-- toBE_k(v): the k bytes of v, most significant first (R12). -/
def toBE : Nat → Nat → Octets
  | 0, _ => []
  | k + 1, v => BitVec.ofNat 8 (v / 256 ^ k) :: toBE k v

/-- BE_4 of a byte string (R12). -/
def wordOfBytes (s : Octets) : Word := BitVec.ofNat 32 (beNat s)

/-- toBE_4 of a word (R12). -/
def bytesOfWord (w : Word) : Octets := toBE 4 w.toNat

/-- BE_16 of a byte string (R12). -/
def blockOfBytes (s : Octets) : Block := BitVec.ofNat 128 (beNat s)

/-- toBE_16 of a block (R12). -/
def bytesOfBlock (x : Block) : Octets := toBE 16 x.toNat

/-- `bytes_k(c)`: k bytes each equal to c (R11). -/
def bytesK (k : Nat) (c : Byte) : Octets := List.replicate k c

/-- The first `n` pieces of `size` bytes of a byte string, in order. -/
def pieces (size : Nat) : Nat → Octets → List Octets
  | 0, _ => []
  | n + 1, s => s.take size :: pieces size n (s.drop size)

/-- The whole pieces of `size` bytes that a byte string holds, in order; a shorter rest is left out. -/
def wholePieces (size : Nat) (s : Octets) : List Octets := pieces size (s.length / size) s

/-- The whole 16-byte blocks of a byte string as 128-bit integers (R54). -/
def blocksOf (s : Octets) : List Block := (wholePieces 16 s).map blockOfBytes

/-- The whole 4-byte words of a byte string (R54, R136). -/
def wordsOf (s : Octets) : List Word := (wholePieces 4 s).map wordOfBytes

/-- The concatenation of the 4-byte forms of words. -/
def bytesOfWords (ws : List Word) : Octets := (ws.map bytesOfWord).flatten

/-- Word i of a block read as four words X0..X3; X0 is bits 127..96 (R54). -/
def blockWord (x : Block) (i : Nat) : Word := x.extractLsb' (96 - 32 * i) 32

/-- The block of four words, the first most significant (R54). -/
def blockOfWords (x0 x1 x2 x3 : Word) : Block := x0 ++ x1 ++ x2 ++ x3

/-- Byte i of a block read as 16 bytes; byte 0 is the most significant (R54). -/
def blockByte (x : Block) (i : Nat) : Byte := x.extractLsb' (120 - 8 * i) 8

/-- The words of V, V[0] first (R24). -/
def Chain.words (v : Chain) : List Word := [v.a, v.b, v.c, v.d, v.e, v.f, v.g, v.h]

/-- V from its 32-byte form, V[i] = BE_4(s[4i : 4i+4]) (R54, R148). -/
def Chain.ofBytes (s : Octets) : Chain :=
  { a := wordOfBytes (s.take 4)
    b := wordOfBytes ((s.drop 4).take 4)
    c := wordOfBytes ((s.drop 8).take 4)
    d := wordOfBytes ((s.drop 12).take 4)
    e := wordOfBytes ((s.drop 16).take 4)
    f := wordOfBytes ((s.drop 20).take 4)
    g := wordOfBytes ((s.drop 24).take 4)
    h := wordOfBytes ((s.drop 28).take 4) }

/-- toBE_4(V[0]) ‖ … ‖ toBE_4(V[7]), 32 bytes (R142, R146). -/
def Chain.bytes (v : Chain) : Octets := bytesOfWords v.words

/-- Bytewise exclusive-or of two octet strings (R13). -/
def xorBytes (s t : Octets) : Octets := List.zipWith (· ^^^ ·) s t

/-- The mode that CMD.MODE selects; 4..15 are "unsupported mode" (R69). -/
def Mode.ofField : Nat → Option Mode
  | 0 => some .ecb
  | 1 => some .cbc
  | 2 => some .ctr
  | 3 => some .gcm
  | _ => none

/-- The code of `sess.mode` (R30). -/
def Mode.code : Mode → BitVec 8
  | .ecb => 0
  | .cbc => 1
  | .ctr => 2
  | .gcm => 3

/-- The code of `sess.dir` (R30). -/
def Dir.code : Dir → BitVec 8
  | .enc => 0
  | .dec => 1

/-- The code of `sess.pad` (R30). -/
def Pad.code : Pad → BitVec 8
  | .noPadding => 0
  | .pkcs7 => 1

/-- PAD = 1 is legal with ECB and CBC only (R71). -/
def padAllowed : Mode → Pad → Bool
  | .ecb, _ => true
  | .cbc, _ => true
  | .ctr, pad => pad = .noPadding
  | .gcm, pad => pad = .noPadding

/-- The session's t from CMD.TAGLEN (R72): for GCM, 0 selects 16 and only 12..16 are legal; for every other mode TAGLEN
must be 0. `none` is InvalidParameter. -/
def tagLength : Mode → Nat → Option (Fin 17)
  | .gcm, tagLen =>
    if tagLen = 0 then some 16
    else if h : 12 ≤ tagLen ∧ tagLen ≤ 16 then some ⟨tagLen, Nat.lt_succ_of_le h.2⟩
    else none
  | .ecb, tagLen => if tagLen = 0 then some 0 else none
  | .cbc, tagLen => if tagLen = 0 then some 0 else none
  | .ctr, tagLen => if tagLen = 0 then some 0 else none

/-- The IV lengths each mode takes: ECB none, CBC and CTR 16, GCM 1 to 2^61 − 1 (R202-R204, R246). -/
def ivLengthAllowed : Mode → Nat → Bool
  | .ecb, n => n = 0
  | .cbc, n => n = 16
  | .ctr, n => n = 16
  | .gcm, n => 1 ≤ n && n < Config.gcmAadLimit

end Sys2Proof.Machine
end

