-- ==== Sys2Proof/Machine/Flags.lean ====
section
/-! DEFINITION. The engine has no flags, condition codes or predicates (10_state.md R41). What a host reads in their
place stands here: the STATUS code of a response (60_exceptions.md R280) and the four summary bytes of GET_STATE
(40_control.md R91). -/
namespace Sys2Proof.Machine

/-- The 8-bit code of a STATUS (R280). -/
def Status.code : Status → BitVec 8
  | .ok => 0
  | .invalidKey => 1
  | .invalidParameter => 2
  | .invalidInputLength => 3
  | .badPadding => 4
  | .authenticationFailed => 5
  | .entropyFailure => 6
  | .invalidOperand => 7
  | .illegalCommand => 8
  | .sequenceError => 9
  | .pointAtInfinity => 10
  | .notOnCurve => 11

/-- The codes reserved and never in a response (R293). -/
def Status.reserved : Status → Bool
  | .entropyFailure => true
  | .pointAtInfinity => true
  | .notOnCurve => true
  | .ok | .invalidKey | .invalidParameter | .invalidInputLength | .badPadding => false
  | .authenticationFailed | .invalidOperand | .illegalCommand | .sequenceError => false

/-- A one-bit flag as a byte. -/
def flagByte (b : Bool) : Byte := if b then 1 else 0

/-- Byte 0 of GET_STATE: sm3.phase, sm4.key_valid, sess.phase, gcm.started in bits 0..3 (R91). -/
def summaryByte0 (e : Engine) : Byte :=
  flagByte (e.sm3.phase = .active) ||| flagByte e.sm4.keyValid <<< 1 ||| flagByte (e.sess.phase = .active) <<< 2 |||
    flagByte e.gcm.started <<< 3

/-- Byte 1 of GET_STATE: sess.mode in bits 1:0, sess.dir in bit 2, sess.pad in bit 3 (R91). -/
def summaryByte1 (e : Engine) : Byte :=
  Mode.code e.sess.mode ||| Dir.code e.sess.dir <<< 2 ||| Pad.code e.sess.pad <<< 3

/-- The four bytes of GET_STATE: b0, b1, sm3.nbuf, sess.t (R91). -/
def stateSummary (e : Engine) : Octets :=
  [summaryByte0 e, summaryByte1 e, BitVec.ofNat 8 e.sm3.nbuf.val, BitVec.ofNat 8 e.sess.t.val]

end Sys2Proof.Machine
end

