-- ==== Sys2Proof/Machine/Ops.lean ====
section
/-! DEFINITION. The shared operations of the command port and of the unit contexts: how an input is taken, how a command
is answered, how an error is raised (00_scope.md R15, 60_exceptions.md R281-R284), and how a session ends
(44_modes.md R200). The engine has no trap entry and no trap return (R286, R287): raising an error is the whole of it. -/
namespace Sys2Proof.Machine

/-- What one command leaves: the next engine state, and the response (R47). -/
structure Reply where
  engine : Engine
  status : Status
  dout : Octets
deriving DecidableEq, Repr

/-- The command ends with STATUS OK and DOUT (R15). -/
def answer (e : Engine) (dout : Octets) : Reply := { engine := e, status := .ok, dout := dout }

/-- `raise S`: the command ends with STATUS S and DOUT = ε (R15, R282); `e` is the state R283 says the error leaves. -/
def raise (e : Engine) (st : Status) : Reply := { engine := e, status := st, dout := [] }

/-- The transaction ends: the engine takes the reply's state, and the host gets the response (R57, R65). -/
def State.complete (s : State) (r : Reply) : State :=
  { s with engine := r.engine, din := [], responses := ⟨r.status, r.dout⟩ :: s.responses }

/-- A meaning's next state: the command answers `r` on the present DIN and the transaction ends. -/
def finish (s : State) (r : Reply) : Host.Outcome State Fault Refusal := .next (s.complete r)

/-- The engine takes a command from the port: DIN becomes the transaction's, the other inputs stay pending (R61). -/
def State.begin (s : State) (din : Octets) (rest : List Input) : State := { s with pending := rest, din := din }

/-- The reset event puts every state element at its reset value (R310). It is no command, so it has no response, and
the inputs still to come stay pending. -/
def State.takeReset (s : State) (rest : List Input) : State := { s with engine := .reset, pending := rest }

/-- `MAX_DIN_BYTES`; `none` is unbounded (R9). -/
def Params.maxDin (p : Params) : Option Nat := p.maxDinExtra.map (Config.leastMaxDin + ·)

/-- len(DIN) ≤ `MAX_DIN_BYTES` (R59). The first 96 bytes pass whatever the parameter is. -/
def Params.dinFits (p : Params) (n : Nat) : Bool :=
  n ≤ Config.leastMaxDin || (match p.maxDinExtra with
    | none => true
    | some k => n ≤ Config.leastMaxDin + k)

/-- The command word and DIN that the host gives next, put before the inputs already pending. -/
def State.offer (s : State) (c : Command) : State := { s with pending := .command c :: s.pending }

/-- End the session: every sess.* and gcm.* element takes its IDLE value (R29, R200). -/
def Engine.endSession (e : Engine) : Engine := { e with sess := .idle, gcm := .idle }

/-- An error that ends the session (R215): STATUS S, DOUT = ε, session IDLE and zeroised. -/
def raiseEnding (e : Engine) (st : Status) : Reply := raise e.endSession st

/-- Run `body` on an empty DIN; a nonempty DIN raises InvalidInputLength and changes no state (R77). -/
def needEmptyDin (e : Engine) (din : Octets) (body : Reply) : Reply :=
  if din.length ≠ 0 then raise e .invalidInputLength else body

end Sys2Proof.Machine
end

