-- ==== Sys2Proof/Machine/Control.lean ====
section
/-! DEFINITION. The engine control commands (40_control.md R90-R92). -/
namespace Sys2Proof.Machine

/-- NOP: it changes no state in any phase (R90). -/
def ctlNop (e : Engine) (din : Octets) : Reply := needEmptyDin e din (answer e [])

/-- GET_STATE: the four summary bytes; it changes no state (R91). -/
def ctlGetState (e : Engine) (din : Octets) : Reply := needEmptyDin e din (answer e (stateSummary e))

/-- ENGINE_RESET: every state element takes its reset value (R92, R311). -/
def ctlEngineReset (e : Engine) (din : Octets) : Reply := needEmptyDin e din (answer .reset [])

/-- NOP on the machine. -/
def execNop (s : State) : Host.Outcome State Fault Refusal := finish s (ctlNop s.engine s.din)

/-- GET_STATE on the machine. -/
def execGetState (s : State) : Host.Outcome State Fault Refusal := finish s (ctlGetState s.engine s.din)

/-- ENGINE_RESET on the machine. -/
def execEngineReset (s : State) : Host.Outcome State Fault Refusal := finish s (ctlEngineReset s.engine s.din)

end Sys2Proof.Machine
end

