-- ==== Sys2Proof/Machine/Sm4Core.lean ====
section
/-! DEFINITION. SM4: S-box, linear mixes, key schedule and the 32-round cipher (43_sm4.md R170-R180). -/
namespace Sys2Proof.Machine

/-- The S-box, one row of sixteen entries a line, column 0 in the most significant byte, as R170 prints it. -/
def sm4SboxRows : List Block :=
  [0xd690e9fecce13db716b614c228fb2c05, 0x2b679a762abe04c3aa44132649860699,
   0x9c4250f491ef987a33540b43edcfac62, 0xe4b31ca9c908e89580df94fa758f3fa6,
   0x4707a7fcf37317ba83593c19e6854fa8, 0x686b81b27164da8bf8eb0f4b70569d35,
   0x1e240e5e6358d1a225227c3b01217887, 0xd40046579fd327524c3602e7a0c4c89e] ++
  [0xeabf8ad240c738b5a3f7f2cef96115a1, 0xe0ae5da49b341a55ad933230f58cb1e3,
   0x1df6e22e8266ca60c02923ab0d534e6f, 0xd5db3745defd8e2f03ff6a726d6c5b51,
   0x8d1baf92bbddbc7f11d95c411f105ad8, 0x0ac13188a5cd7bbd2d74d012b8e5b4b0,
   0x8969974a0c96777e65b9f109c56ec684, 0x18f07dec3adc4d2079ee5f3ed7cb3948]

/-- Sbox[x]: for x = 16·r + c, the entry in row r, column c (R170). -/
def sm4Sbox (x : Byte) : Byte := blockByte (sm4SboxRows.getD (x.toNat / 16) 0) (x.toNat % 16)

/-- τ: the S-box on each of a word's four bytes, the most significant first (R171). -/
def sm4Tau (b : Word) : Word :=
  sm4Sbox (b.extractLsb' 24 8) ++ sm4Sbox (b.extractLsb' 16 8) ++ sm4Sbox (b.extractLsb' 8 8) ++
    sm4Sbox (b.extractLsb' 0 8)

/-- The data path's linear mix L (R172). -/
def sm4L (b : Word) : Word := b ^^^ b.rotateLeft 2 ^^^ b.rotateLeft 10 ^^^ b.rotateLeft 18 ^^^ b.rotateLeft 24

/-- The key schedule's linear mix L′ (R173). -/
def sm4L' (b : Word) : Word := b ^^^ b.rotateLeft 13 ^^^ b.rotateLeft 23

/-- T(x) = L(τ(x)) (R174). -/
def sm4T (x : Word) : Word := sm4L (sm4Tau x)

/-- T′(x) = L′(τ(x)) (R174). -/
def sm4T' (x : Word) : Word := sm4L' (sm4Tau x)

/-- The system parameter FK (R175). -/
def sm4FK : Block := blockOfWords 0xA3B1BAC6 0x56AA3350 0x677D9197 0xB27022DC

/-- Byte j of CK_i: (4i + j)·7 mod 256 (R176). -/
def sm4CkByte (i j : Nat) : Byte := BitVec.ofNat 8 ((4 * i + j) * 7)

/-- CK_i, most significant byte first (R176). -/
def sm4CK (i : Nat) : Word := sm4CkByte i 0 ++ sm4CkByte i 1 ++ sm4CkByte i 2 ++ sm4CkByte i 3

/-- Four consecutive words X[i..i+3] of the cipher, or K[i..i+3] of the key schedule, as one step sees them. -/
structure Window where
  x0 : Word
  x1 : Word
  x2 : Word
  x3 : Word
deriving DecidableEq, Repr

/-- The four words of a block (R54, R177, R179). -/
def Window.ofBlock (x : Block) : Window :=
  { x0 := blockWord x 0, x1 := blockWord x 1, x2 := blockWord x 2, x3 := blockWord x 3 }

/-- Move on by one word. -/
def Window.push (k : Window) (next : Word) : Window := { x0 := k.x1, x1 := k.x2, x2 := k.x3, x3 := next }

/-- K[i+4] = K[i] ⊕ T′(K[i+1] ⊕ K[i+2] ⊕ K[i+3] ⊕ CK_i) (R177). -/
def sm4NextKey (k : Window) (ck : Word) : Word := k.x0 ^^^ sm4T' (k.x1 ^^^ k.x2 ^^^ k.x3 ^^^ ck)

/-- The round keys that a list of CK words gives: rk[i] = K[i+4] (R177). -/
def sm4KeyRounds : List Word → Window → List Word
  | [], _ => []
  | ck :: cks, k => sm4NextKey k ck :: sm4KeyRounds cks (k.push (sm4NextKey k ck))

/-- CK_0 .. CK_31 (R176). -/
def sm4CKs : List Word := (List.range 32).map sm4CK

/-- One round key for each CK word. -/
theorem sm4KeyRounds_length (cks : List Word) (k : Window) : (sm4KeyRounds cks k).length = cks.length := by
  induction cks generalizing k with
  | nil => rfl
  | cons ck cks ih => simp [sm4KeyRounds, ih]

/-- KeyExpand(MK) on the 128-bit key: K[i] = MK_i ⊕ FK_i, then 32 steps (R177). -/
def sm4KeyExpand (mk : Block) : Vector Word 32 :=
  ⟨⟨sm4KeyRounds sm4CKs (Window.ofBlock (mk ^^^ sm4FK))⟩, by simp [sm4KeyRounds_length, sm4CKs]⟩

/-- The round function F(X0, X1, X2, X3, rk) (R178). -/
def sm4F (x : Window) (rk : Word) : Word := x.x0 ^^^ sm4T (x.x1 ^^^ x.x2 ^^^ x.x3 ^^^ rk)

/-- The rounds of the cipher, one for each round key (R179). -/
def sm4Rounds : List Word → Window → Window
  | [], x => x
  | rk :: rks, x => sm4Rounds rks (x.push (sm4F x rk))

/-- The block of the last four words in reversed order: X35 ‖ X34 ‖ X33 ‖ X32 (R179). -/
def Window.reversed (x : Window) : Block := blockOfWords x.x3 x.x2 x.x1 x.x0

/-- Crypt(r, P) on the 128-bit block (R179). -/
def sm4Crypt (r : List Word) (p : Block) : Block := (sm4Rounds r (Window.ofBlock p)).reversed

/-- E_rk(P) = Crypt(rk, P) (R179). -/
def sm4Encrypt (rk : Vector Word 32) (p : Block) : Block := sm4Crypt rk.toList p

/-- D_rk(C) = Crypt(rk′, C) with rk′[i] = rk[31 − i] (R180). It undoes `sm4Encrypt` under the same round keys, those of
`sm4KeyExpand` among them (R181). -/
def sm4Decrypt (rk : Vector Word 32) (c : Block) : Block := sm4Crypt rk.toList.reverse c

end Sys2Proof.Machine
end

