-- ==== Sys2Proof/Machine/Ghash.lean ====
section
/-! DEFINITION. GCM's field and hash: GF(2^128) multiplication, GHASH, inc32, J0, and the incremental Absorb, Flush and
CloseTag (45_gcm.md R240-R251, R254). -/
namespace Sys2Proof.Machine

/-- R = 0xE1 · 2^120 (R241). -/
def gcmR : Block := 0xE1000000000000000000000000000000

/-- V · x in the reflected bit order: V >> 1, reduced by R when bit 0 falls out (R241). -/
def gfShift (v : Block) : Block := if v.getLsbD 0 then v >>> 1 ^^^ gcmR else v >>> 1

/-- The loop of GFMul over bits n−1, n−2, … , 0 of X, with its registers Z and V (R241). -/
def gfLoop (x : Block) : Nat → Block → Block → Block
  | 0, z, _ => z
  | n + 1, z, v => gfLoop x n (if x.getLsbD n then z ^^^ v else z) (gfShift v)

/-- GFMul(X, Y), from bit 127 of X down to bit 0 (R241). -/
def gfMul (x y : Block) : Block := gfLoop x 128 0 y

/-- X_i = GFMul(X_{i−1} ⊕ S_i, H) over blocks in order, from X (R242). -/
def ghashFrom (h : Block) (x : Block) (blocks : List Block) : Block :=
  blocks.foldl (fun x s => gfMul (x ^^^ s) h) x

/-- GHASH_H(S) (R242). -/
def ghash (h : Block) (s : Octets) : Block := ghashFrom h 0 (blocksOf s)

/-- zpad(S): S with the fewest zero bytes that make its length a multiple of 16 (R242). -/
def zpad (s : Octets) : Octets := s ++ bytesK ((16 - s.length % 16) % 16) 0

/-- inc32: the low 32 bits plus 1 modulo 2^32, the high 96 bits unchanged (R243). -/
def inc32 (x : Block) : Block := x.extractLsb' 32 96 ++ (x.extractLsb' 0 32 + 1)

/-- The full 128-bit increment of CTR mode (R207, R216). -/
def inc128 (x : Block) : Block := x + 1

/-- H = E(0^128) (R244). -/
def gcmSubkey (rk : Vector Word 32) : Block := sm4Encrypt rk 0

/-- J0 from the IV: IV ‖ 0^31 ‖ 1 for 12 bytes, else GHASH_H(zpad(IV) ‖ 0^64 ‖ toBE_8(8·len(IV))) (R245). -/
def gcmJ0 (h : Block) (iv : Octets) : Block :=
  if iv.length = 12 then BitVec.ofNat 128 (beNat iv * 2 ^ 32 + 1)
  else ghash h (zpad iv ++ bytesK 8 0 ++ toBE 8 (8 * iv.length))

/-- Absorb(S): whole 16-byte blocks of gpend ‖ S go into X, the rest stays in gpend (R248). -/
def Gcm.absorb (g : Gcm) (s : Octets) : Gcm :=
  let stream := g.gpend ++ s
  { g with X := ghashFrom g.H g.X (blocksOf stream), gpend := stream.drop (16 * (stream.length / 16)) }

/-- Flush(): zero-pad a partial block and absorb it (R248). -/
def Gcm.flush (g : Gcm) : Gcm :=
  if g.gpend.length > 0 then g.absorb (bytesK (16 - g.gpend.length) 0) else g

/-- The end of the AAD phase, at the session's first MODE_UPDATE (R249, R250). -/
def Gcm.start (g : Gcm) : Gcm := if g.started then g else { g.flush with started := true }

/-- The length block len(AAD)_64 ‖ len(C)_64, in bits (R251). -/
def Gcm.lengthBlock (g : Gcm) : Octets := toBE 8 (8 * g.alen.toNat) ++ toBE 8 (8 * g.clen.toNat)

/-- CloseTag(): MSB_t(E(J0) ⊕ S), the first t bytes (R251, R254). -/
def gcmCloseTag (rk : Vector Word 32) (g : Gcm) (t : Nat) : Octets :=
  (bytesOfBlock (sm4Encrypt rk g.J0 ^^^ (g.flush.absorb g.lengthBlock).X)).take t

end Sys2Proof.Machine
end

