-- ==== Sys2Proof/Machine/Modes.lean ====
section
/-! DEFINITION. The SM4 mode controller's session commands for ECB, CBC, CTR (44_modes.md R200-R220) and GCM
(45_gcm.md R246-R253). -/
namespace Sys2Proof.Machine

/-- One block of BlockOp: the output block and the new chaining block (R205). -/
def blockStep (rk : Vector Word 32) (mode : Mode) (dir : Dir) (chain x : Block) : Block × Block :=
  match mode, dir with
  | .ecb, .enc => (sm4Encrypt rk x, chain)
  | .ecb, .dec => (sm4Decrypt rk x, chain)
  | _, .enc => (sm4Encrypt rk (x ^^^ chain), sm4Encrypt rk (x ^^^ chain))
  | _, .dec => (sm4Decrypt rk x ^^^ chain, x)

/-- BlockOp over whole blocks in order: the output bytes and the final chaining block (R205). -/
def blockRun (rk : Vector Word 32) (mode : Mode) (dir : Dir) : Block → List Block → Octets × Block
  | chain, [] => ([], chain)
  | chain, x :: xs =>
    let step := blockStep rk mode dir chain x
    let rest := blockRun rk mode dir step.2 xs
    (bytesOfBlock step.1 ++ rest.1, rest.2)

/-- BlockOp(S) on the session (R205). -/
def Session.blockOp (rk : Vector Word 32) (x : Session) (s : Octets) : Octets × Session :=
  let run := blockRun rk x.mode x.dir x.chain (blocksOf s)
  (run.1, { x with chain := run.2 })

/-- How many bytes of an `n`-byte buffer MODE_UPDATE processes in ECB or CBC: PKCS7 decryption holds back the last 1 to
16 bytes, every other session only a partial block (R206). -/
def blockBytesReady (dir : Dir) (pad : Pad) (n : Nat) : Nat :=
  match dir, pad with
  | .dec, .pkcs7 => 16 * ((n - 1) / 16)
  | _, _ => 16 * (n / 16)

/-- One byte of CtrXor: a used-up keystream block is replaced first, then the byte is XORed (R207). -/
def Session.ctrByte (rk : Vector Word 32) (inc : Block → Block) (x : Session) (c : Byte) : Byte × Session :=
  if x.ksOff = 16 then
    (c ^^^ blockByte (sm4Encrypt rk x.ctr) 0, { x with ks := sm4Encrypt rk x.ctr, ctr := inc x.ctr, ksOff := 1 })
  else (c ^^^ blockByte x.ks x.ksOff.val, { x with ksOff := x.ksOff + 1 })

/-- CtrXor(S, inc) (R207). -/
def Session.ctrXor (rk : Vector Word 32) (inc : Block → Block) : Session → Octets → Octets × Session
  | x, [] => ([], x)
  | x, c :: cs =>
    let step := x.ctrByte rk inc c
    let rest := Session.ctrXor rk inc step.2 cs
    (step.1 :: rest.1, rest.2)

/-- The session MODE_INIT sets up for ECB, CBC and CTR, and the counter state of GCM (R202-R204, R246). -/
def Session.start (mode : Mode) (dir : Dir) (pad : Pad) (t : Fin 17) (iv : Octets) (j0 : Block) : Session :=
  let x : Session := { Session.idle with phase := .active, mode := mode, dir := dir, pad := pad, t := t }
  match mode with
  | .ecb => x
  | .cbc => { x with chain := blockOfBytes iv }
  | .ctr => { x with ctr := blockOfBytes iv }
  | .gcm => { x with ctr := inc32 j0 }

/-- The GCM extension MODE_INIT sets up: H and J0, nothing absorbed (R244-R246). -/
def Gcm.begin (rk : Vector Word 32) (iv : Octets) : Gcm :=
  { Gcm.idle with H := gcmSubkey rk, J0 := gcmJ0 (gcmSubkey rk) iv }

/-- MODE_INIT once its checks have passed (R201-R204, R246). -/
def Engine.startSession (e : Engine) (mode : Mode) (dir : Dir) (pad : Pad) (t : Fin 17) (iv : Octets) : Engine :=
  match mode with
  | .gcm =>
    { e with
      sess := Session.start .gcm dir pad t iv (Gcm.begin e.sm4.rk iv).J0
      gcm := Gcm.begin e.sm4.rk iv }
  | .ecb => { e with sess := Session.start .ecb dir pad t iv 0, gcm := .idle }
  | .cbc => { e with sess := Session.start .cbc dir pad t iv 0, gcm := .idle }
  | .ctr => { e with sess := Session.start .ctr dir pad t iv 0, gcm := .idle }

/-- MODE_INIT: the key check, then any earlier session ends, then the mode, padding, tag-length and IV-length checks in
that order (R201). -/
def modeInit (mode : Nat) (dir : Dir) (pad : Pad) (tagLen : Nat) (e : Engine) (din : Octets) : Reply :=
  if e.sm4.keyValid = false then raise e .sequenceError
  else match Mode.ofField mode with
    | none => raiseEnding e .invalidParameter
    | some m =>
      if padAllowed m pad = false then raiseEnding e .invalidParameter
      else match tagLength m tagLen with
        | none => raiseEnding e .invalidParameter
        | some t =>
          if ivLengthAllowed m din.length = false then raiseEnding e .invalidParameter
          else answer (e.startSession m dir pad t din) []

/-- MODE_AAD: only in the AAD phase of a GCM session (R214, R247). -/
def modeAad (e : Engine) (din : Octets) : Reply :=
  if e.sess.phase = .idle ∨ e.sess.mode ≠ .gcm ∨ e.gcm.started = true then raise e .sequenceError
  else if e.gcm.alen.toNat + din.length ≥ Config.gcmAadLimit then raiseEnding e .invalidInputLength
  else answer { e with gcm := Gcm.absorb { e.gcm with alen := e.gcm.alen + BitVec.ofNat 64 din.length } din } []

/-- MODE_UPDATE in ECB or CBC (R206). -/
def updateBlocks (e : Engine) (din : Octets) : Reply :=
  let buf := e.sess.pend ++ din
  let n := blockBytesReady e.sess.dir e.sess.pad buf.length
  let run := e.sess.blockOp e.sm4.rk (buf.take n)
  answer { e with sess := { run.2 with pend := buf.drop n } } run.1

/-- MODE_UPDATE in CTR (R208). -/
def updateCtr (e : Engine) (din : Octets) : Reply :=
  let run := e.sess.ctrXor e.sm4.rk inc128 din
  answer { e with sess := run.2 } run.1

/-- The GCM data phase takes `din`: `cipher` is the ciphertext GHASH absorbs (R249, R250). -/
def Gcm.takeData (g : Gcm) (cipher : Octets) : Gcm :=
  let g' := g.start.absorb cipher
  { g' with clen := g.clen + BitVec.ofNat 64 cipher.length }

/-- MODE_UPDATE, GCM encryption: the ciphertext is released at once (R249). -/
def updateGcmEnc (e : Engine) (din : Octets) : Reply :=
  let run := e.sess.ctrXor e.sm4.rk inc32 din
  if e.gcm.clen.toNat + din.length > Config.gcmDataLimit then raiseEnding e .invalidInputLength
  else answer { e with sess := run.2, gcm := e.gcm.takeData run.1 } run.1

/-- MODE_UPDATE, GCM decryption: the plaintext is withheld in dbuf (R250). -/
def updateGcmDec (p : Params) (e : Engine) (din : Octets) : Reply :=
  let run := e.sess.ctrXor e.sm4.rk inc32 din
  if e.gcm.clen.toNat + din.length > Config.gcmDataLimit then raiseEnding e .invalidInputLength
  else if e.gcm.dbuf.length + din.length > p.gcmDecBufBytes then raiseEnding e .invalidInputLength
  else answer { e with sess := run.2, gcm := { e.gcm.takeData din with dbuf := e.gcm.dbuf ++ run.1 } } []

/-- MODE_UPDATE (R206, R208, R249, R250). -/
def modeUpdate (p : Params) (e : Engine) (din : Octets) : Reply :=
  if e.sess.phase = .idle then raise e .sequenceError
  else match e.sess.mode, e.sess.dir with
    | .ecb, _ => updateBlocks e din
    | .cbc, _ => updateBlocks e din
    | .ctr, _ => updateCtr e din
    | .gcm, .enc => updateGcmEnc e din
    | .gcm, .dec => updateGcmDec p e din

/-- pad(M) = M ‖ bytes_k(k), k = 16 − (len(M) mod 16) (R210, R220). -/
def pkcs7Pad (m : Octets) : Octets :=
  m ++ bytesK (16 - m.length % 16) (BitVec.ofNat 8 (16 - m.length % 16))

/-- The number of padding bytes: the value of the last byte (R211, R220). -/
def padCount (q : Octets) : Nat := (q.getLastD 0).toNat

/-- unpad(Q): Q without its last k bytes when 1 ≤ k ≤ 16 and those k bytes all equal k; `none` is BadPadding (R220). -/
def pkcs7Unpad (q : Octets) : Option Octets :=
  if 1 ≤ padCount q ∧ padCount q ≤ 16 ∧ q.drop (q.length - padCount q) = bytesK (padCount q) (q.getLastD 0)
  then some (q.take (q.length - padCount q)) else none

/-- MODE_FINAL, ECB or CBC, NoPadding (R209). -/
def finalNoPadding (e : Engine) (din : Octets) : Reply :=
  if din.length ≠ 0 then raiseEnding e .invalidInputLength
  else if e.sess.pend.length ≠ 0 then raiseEnding e .invalidInputLength
  else answer e.endSession []

/-- MODE_FINAL, ECB or CBC, PKCS7 encryption: the padded last block (R210). -/
def finalPkcs7Enc (e : Engine) (din : Octets) : Reply :=
  if din.length ≠ 0 then raiseEnding e .invalidInputLength
  else answer e.endSession (e.sess.blockOp e.sm4.rk (pkcs7Pad e.sess.pend)).1

/-- MODE_FINAL, ECB or CBC, PKCS7 decryption: the last block without its padding (R211). -/
def finalPkcs7Dec (e : Engine) (din : Octets) : Reply :=
  if din.length ≠ 0 then raiseEnding e .invalidInputLength
  else if e.sess.pend.length ≠ 16 then raiseEnding e .invalidInputLength
  else match pkcs7Unpad (e.sess.blockOp e.sm4.rk e.sess.pend).1 with
    | none => raiseEnding e .badPadding
    | some m => answer e.endSession m

/-- MODE_FINAL, CTR (R212). -/
def finalCtr (e : Engine) (din : Octets) : Reply :=
  if din.length ≠ 0 then raiseEnding e .invalidInputLength else answer e.endSession []

/-- MODE_FINAL, GCM encryption: the tag (R252). -/
def finalGcmEnc (e : Engine) (din : Octets) : Reply :=
  if din.length ≠ 0 then raiseEnding e .invalidInputLength
  else answer e.endSession (gcmCloseTag e.sm4.rk e.gcm e.sess.t.val)

/-- MODE_FINAL, GCM decryption: the withheld plaintext if DIN is the tag, else AuthenticationFailed (R253, R255). -/
def finalGcmDec (e : Engine) (din : Octets) : Reply :=
  if din ≠ gcmCloseTag e.sm4.rk e.gcm e.sess.t.val then raiseEnding e .authenticationFailed
  else answer e.endSession e.gcm.dbuf

/-- MODE_FINAL: SequenceError leaves the state unchanged, and from then on the session ends whatever the status
(R209-R212, R215, R252, R253). -/
def modeFinal (e : Engine) (din : Octets) : Reply :=
  if e.sess.phase = .idle then raise e .sequenceError
  else match e.sess.mode, e.sess.dir, e.sess.pad with
    | .gcm, .enc, _ => finalGcmEnc e din
    | .gcm, .dec, _ => finalGcmDec e din
    | .ctr, _, _ => finalCtr e din
    | .ecb, _, .noPadding => finalNoPadding e din
    | .cbc, _, .noPadding => finalNoPadding e din
    | .ecb, .enc, .pkcs7 => finalPkcs7Enc e din
    | .cbc, .enc, .pkcs7 => finalPkcs7Enc e din
    | .ecb, .dec, .pkcs7 => finalPkcs7Dec e din
    | .cbc, .dec, .pkcs7 => finalPkcs7Dec e din

/-- MODE_ABORT (R213). -/
def modeAbort (e : Engine) (din : Octets) : Reply := needEmptyDin e din (answer e.endSession [])

/-- MODE_INIT on the machine. -/
def execModeInit (mode : Nat) (dir : Dir) (pad : Pad) (tagLen : Nat) (s : State) : Host.Outcome State Fault Refusal :=
  finish s (modeInit mode dir pad tagLen s.engine s.din)

/-- MODE_AAD on the machine. -/
def execModeAad (s : State) : Host.Outcome State Fault Refusal := finish s (modeAad s.engine s.din)

/-- MODE_UPDATE on the machine. -/
def execModeUpdate (s : State) : Host.Outcome State Fault Refusal := finish s (modeUpdate s.params s.engine s.din)

/-- MODE_FINAL on the machine. -/
def execModeFinal (s : State) : Host.Outcome State Fault Refusal := finish s (modeFinal s.engine s.din)

/-- MODE_ABORT on the machine. -/
def execModeAbort (s : State) : Host.Outcome State Fault Refusal := finish s (modeAbort s.engine s.din)

end Sys2Proof.Machine
end

