-- ==== Sys2Proof/Machine/Modular.lean ====
section
/-! DEFINITION. The modular arithmetic unit (41_modular.md R100-R114): exact integer arithmetic modulo the SM2 prime and
the SM2 group order. It holds no state (10_state.md R39). -/
namespace Sys2Proof.Machine

/-- The SM2 prime p (R100). -/
def pSM2 : Nat := 0xFFFFFFFEFFFFFFFFFFFFFFFFFFFFFFFFFFFFFFFF00000000FFFFFFFFFFFFFFFF

/-- The SM2 group order n (R101). -/
def nSM2 : Nat := 0xFFFFFFFEFFFFFFFFFFFFFFFFFFFFFFFF7203DF6B21C6052B53BBF40939D54123

/-- The SM2 curve's coefficient a = p − 3 (R117). No command uses it. -/
def curveA : Nat := pSM2 - 3

/-- The SM2 curve's coefficient b (R117). No command uses it. -/
def curveB : Nat := 0x28E9FA9E9D9F5E344D5A9E4BCF6509A7F39789F515AB8F92DDBCBD414D940E93

/-- (a + b) mod m (R105, R110). -/
def modAdd (m a b : Nat) : Nat := (a + b) % m

/-- (a − b) mod m, the unique residue in [0, m) of the exact difference (R14, R106, R111). -/
def modSub (m a b : Nat) : Nat := (((a : Int) - (b : Int)) % (m : Int)).toNat

/-- (a · b) mod m (R107, R112). -/
def modMul (m a b : Nat) : Nat := (a * b) % m

/-- Euclid's algorithm on r0 and r1, carrying t0 and t1 with a·t0 ≡ r0 and a·t1 ≡ r1 (mod m); it returns the t0 of the
last nonzero remainder. `fuel` bounds the steps. -/
def euclid (m : Nat) : Nat → Nat → Nat → Nat → Nat → Nat
  | 0, _, _, t0, _ => t0
  | fuel + 1, r0, r1, t0, t1 =>
    if r1 = 0 then t0 else euclid m fuel r1 (r0 % r1) t1 (modSub m t0 (r0 / r1 * t1))

/-- The x in [0, m) with (a · x) mod m = 1, where there is one (R109, R114). The method is free (93_implementation_defined.md I2),
because the inverse is unique. -/
def modInv (m a : Nat) : Nat := euclid m m m a 0 1

/-- ModCheck for two operands, then the operation (R104). -/
def modBinary (m : Nat) (f : Nat → Nat → Nat) (e : Engine) (din : Octets) : Reply :=
  if din.length ≠ 64 then raise e .invalidInputLength
  else if beNat (din.take 32) ≥ m then raise e .invalidOperand
  else if beNat (din.drop 32) ≥ m then raise e .invalidOperand
  else answer e (toBE 32 (f (beNat (din.take 32)) (beNat (din.drop 32))))

/-- ModCheck for one operand, then the operation, whose `none` is an operand it disallows (R104, R109, R114). -/
def modUnary (m : Nat) (f : Nat → Option Nat) (e : Engine) (din : Octets) : Reply :=
  if din.length ≠ 32 then raise e .invalidInputLength
  else if beNat din ≥ m then raise e .invalidOperand
  else match f (beNat din) with
    | none => raise e .invalidOperand
    | some r => answer e (toBE 32 r)

/-- a² mod m (R108, R113). -/
def sqrOp (m a : Nat) : Option Nat := some (modMul m a a)

/-- The inverse of a nonzero a; "division by zero fails with InvalidOperand" (R109, R114). -/
def invOp (m a : Nat) : Option Nat := if a = 0 then none else some (modInv m a)

/-- FP_ADD (R105). -/
def execFpAdd (s : State) : Host.Outcome State Fault Refusal := finish s (modBinary pSM2 (modAdd pSM2) s.engine s.din)

/-- FP_SUB (R106). -/
def execFpSub (s : State) : Host.Outcome State Fault Refusal := finish s (modBinary pSM2 (modSub pSM2) s.engine s.din)

/-- FP_MUL (R107). -/
def execFpMul (s : State) : Host.Outcome State Fault Refusal := finish s (modBinary pSM2 (modMul pSM2) s.engine s.din)

/-- FP_SQR (R108). -/
def execFpSqr (s : State) : Host.Outcome State Fault Refusal := finish s (modUnary pSM2 (sqrOp pSM2) s.engine s.din)

/-- FP_INV (R109). -/
def execFpInv (s : State) : Host.Outcome State Fault Refusal := finish s (modUnary pSM2 (invOp pSM2) s.engine s.din)

/-- FN_ADD (R110). -/
def execFnAdd (s : State) : Host.Outcome State Fault Refusal := finish s (modBinary nSM2 (modAdd nSM2) s.engine s.din)

/-- FN_SUB (R111). -/
def execFnSub (s : State) : Host.Outcome State Fault Refusal := finish s (modBinary nSM2 (modSub nSM2) s.engine s.din)

/-- FN_MUL (R112). -/
def execFnMul (s : State) : Host.Outcome State Fault Refusal := finish s (modBinary nSM2 (modMul nSM2) s.engine s.din)

/-- FN_SQR (R113). -/
def execFnSqr (s : State) : Host.Outcome State Fault Refusal := finish s (modUnary nSM2 (sqrOp nSM2) s.engine s.din)

/-- FN_INV (R114). -/
def execFnInv (s : State) : Host.Outcome State Fault Refusal := finish s (modUnary nSM2 (invOp nSM2) s.engine s.din)

end Sys2Proof.Machine
end

