-- ==== Sys2Proof/Machine/Sm3Core.lean ====
section
/-! DEFINITION. SM3: the constants and functions of a round, message expansion, compression, padding and the hash
(42_sm3.md R130-R142). -/
namespace Sys2Proof.Machine

/-- The SM3 initial value IV (R130). -/
def sm3Iv : Chain :=
  ⟨0x7380166F, 0x4914B2B9, 0x172442D7, 0xDA8A0600, 0xA96F30BC, 0x163138AA, 0xE38DEE4D, 0xB0FB0E4E⟩

/-- The round constant T_j (R131). -/
def sm3T (j : Nat) : Word := if j < 16 then 0x79CC4519 else 0x7A879D8A

/-- FF_j(X, Y, Z) (R132). -/
def sm3FF (j : Nat) (x y z : Word) : Word :=
  if j < 16 then x ^^^ y ^^^ z else (x &&& y) ||| (x &&& z) ||| (y &&& z)

/-- GG_j(X, Y, Z) (R133). -/
def sm3GG (j : Nat) (x y z : Word) : Word :=
  if j < 16 then x ^^^ y ^^^ z else (x &&& y) ||| (~~~x &&& z)

/-- P0(X) (R134). -/
def sm3P0 (x : Word) : Word := x ^^^ x.rotateLeft 9 ^^^ x.rotateLeft 17

/-- P1(X) (R135). -/
def sm3P1 (x : Word) : Word := x ^^^ x.rotateLeft 15 ^^^ x.rotateLeft 23

/-- W[j−k] from the words W[j−1], W[j−2], … , W[0] in that order. -/
def back (older : List Word) (k : Nat) : Word := older.getD (k - 1) 0

/-- W[j] from the words before it, newest first (R137). -/
def sm3NextW (older : List Word) : Word :=
  sm3P1 (back older 16 ^^^ back older 9 ^^^ (back older 3).rotateLeft 15) ^^^ (back older 13).rotateLeft 7 ^^^
    back older 6

/-- Append the next `n` words of the recurrence; the words stand newest first. -/
def sm3Extend : Nat → List Word → List Word
  | 0, older => older
  | n + 1, older => sm3Extend n (sm3NextW older :: older)

/-- W[0..67] of a 64-byte block (R136, R137). -/
def sm3W (block : Octets) : List Word := (sm3Extend 52 (wordsOf block).reverse).reverse

/-- W′[j] = W[j] ⊕ W[j+4] for 0 ≤ j ≤ 63 (R138). -/
def sm3W' (w : List Word) : List Word := List.zipWith (· ^^^ ·) w (w.drop 4)

/-- Round j on the working registers A..H, with W[j] and W′[j] (R139). -/
def sm3Round (j : Nat) (w w' : Word) (r : Chain) : Chain :=
  let ss1 := (r.a.rotateLeft 12 + r.e + (sm3T j).rotateLeft (j % 32)).rotateLeft 7
  let ss2 := ss1 ^^^ r.a.rotateLeft 12
  let tt1 := sm3FF j r.a r.b r.c + r.d + ss2 + w'
  let tt2 := sm3GG j r.e r.f r.g + r.h + ss1 + w
  { a := tt1, b := r.a, c := r.b.rotateLeft 9, d := r.c, e := sm3P0 tt2, f := r.e, g := r.f.rotateLeft 19, h := r.g }

/-- Rounds j, j+1, … , one for each pair (W[j], W′[j]). -/
def sm3Rounds : Nat → List (Word × Word) → Chain → Chain
  | _, [], r => r
  | j, (w, w') :: ws, r => sm3Rounds (j + 1) ws (sm3Round j w w' r)

/-- Wordwise exclusive-or of two chaining values (R140). -/
def Chain.xor (u v : Chain) : Chain :=
  { a := u.a ^^^ v.a, b := u.b ^^^ v.b, c := u.c ^^^ v.c, d := u.d ^^^ v.d
    e := u.e ^^^ v.e, f := u.f ^^^ v.f, g := u.g ^^^ v.g, h := u.h ^^^ v.h }

/-- The compression function CF(V, B) (R140). -/
def sm3CF (v : Chain) (block : Octets) : Chain :=
  (sm3Rounds 0 ((sm3W block).zip (sm3W' (sm3W block))) v).xor v

/-- CF over the whole 64-byte blocks of a byte string, in order (R142). -/
def sm3Blocks (v : Chain) (s : Octets) : Chain := (wholePieces 64 s).foldl sm3CF v

/-- The least k ≥ 0 with (n + 1 + k) mod 64 = 56 (R141). -/
def sm3PadZeros (n : Nat) : Nat := (119 - n % 64) % 64

/-- A message's last bytes `tail`, padded: ‖ 80 ‖ zeros ‖ toBE_8(bit length) (R141, R146). -/
def sm3PadTail (tail : Octets) (bitLength : Nat) : Octets :=
  tail ++ [0x80] ++ bytesK (sm3PadZeros tail.length) 0 ++ toBE 8 bitLength

/-- Pad(M) (R141). -/
def sm3Pad (m : Octets) : Octets := sm3PadTail m (8 * m.length)

/-- SM3(M), 32 bytes (R142). -/
def sm3Hash (m : Octets) : Octets := (sm3Blocks sm3Iv (sm3Pad m)).bytes

end Sys2Proof.Machine
end

