-- ==== Sys2Proof/Machine/Sm3.lean ====
section
/-! DEFINITION. The SM3 commands (42_sm3.md R144-R149). -/
namespace Sys2Proof.Machine

/-- The context SM3_INIT leaves: ACTIVE, V = IV, nothing absorbed (R144). -/
def Sm3Ctx.started : Sm3Ctx :=
  { phase := .active, V := sm3Iv, buf := Vector.replicate 64 0, nbuf := 0, bitlen := 0 }

/-- Absorb one byte: it goes to buf[nbuf], and a buffer of 64 bytes is compressed and emptied at once (R145). -/
def Sm3Ctx.absorbByte (x : Sm3Ctx) (c : Byte) : Sm3Ctx :=
  let buf := x.buf.set x.nbuf.val c x.nbuf.isLt
  if h : x.nbuf.val + 1 < 64 then { x with buf := buf, nbuf := ⟨x.nbuf.val + 1, h⟩ }
  else { x with V := sm3CF x.V buf.toList, buf := Vector.replicate 64 0, nbuf := 0 }

/-- Absorb bytes in order, then count their bits (R145). -/
def Sm3Ctx.absorb (x : Sm3Ctx) (din : Octets) : Sm3Ctx :=
  { din.foldl Sm3Ctx.absorbByte x with bitlen := x.bitlen + BitVec.ofNat 64 (8 * din.length) }

/-- The digest of what the context has absorbed: pad the pending bytes and compress them (R146). -/
def Sm3Ctx.digest (x : Sm3Ctx) : Octets :=
  (sm3Blocks x.V (sm3PadTail (x.buf.toList.take x.nbuf.val) x.bitlen.toNat)).bytes

/-- SM3_INIT (R144). -/
def sm3Init (e : Engine) (din : Octets) : Reply := needEmptyDin e din (answer { e with sm3 := .started } [])

/-- SM3_UPDATE (R145). -/
def sm3Update (e : Engine) (din : Octets) : Reply :=
  if e.sm3.phase = .idle then raise e .sequenceError
  else if e.sm3.bitlen.toNat + 8 * din.length ≥ Config.sm3BitLimit then raise e .invalidInputLength
  else answer { e with sm3 := e.sm3.absorb din } []

/-- SM3_FINAL (R146). -/
def sm3Final (e : Engine) (din : Octets) : Reply :=
  if e.sm3.phase = .idle then raise e .sequenceError
  else needEmptyDin e din (answer { e with sm3 := .idle } e.sm3.digest)

/-- SM3_ONESHOT (R147). -/
def sm3Oneshot (e : Engine) (din : Octets) : Reply :=
  if 8 * din.length ≥ Config.sm3BitLimit then raise e .invalidInputLength else answer e (sm3Hash din)

/-- SM3_COMPRESS: DIN = V (32 bytes) ‖ B (64 bytes) (R148). -/
def sm3Compress (e : Engine) (din : Octets) : Reply :=
  if din.length ≠ 96 then raise e .invalidInputLength
  else answer e (sm3CF (Chain.ofBytes (din.take 32)) (din.drop 32)).bytes

/-- SM3_EXPAND: W[0..67] ‖ W′[0..63], 528 bytes (R149). -/
def sm3Expand (e : Engine) (din : Octets) : Reply :=
  if din.length ≠ 64 then raise e .invalidInputLength
  else answer e (bytesOfWords (sm3W din ++ sm3W' (sm3W din)))

/-- SM3_INIT on the machine. -/
def execSm3Init (s : State) : Host.Outcome State Fault Refusal := finish s (sm3Init s.engine s.din)

/-- SM3_UPDATE on the machine. -/
def execSm3Update (s : State) : Host.Outcome State Fault Refusal := finish s (sm3Update s.engine s.din)

/-- SM3_FINAL on the machine. -/
def execSm3Final (s : State) : Host.Outcome State Fault Refusal := finish s (sm3Final s.engine s.din)

/-- SM3_ONESHOT on the machine. -/
def execSm3Oneshot (s : State) : Host.Outcome State Fault Refusal := finish s (sm3Oneshot s.engine s.din)

/-- SM3_COMPRESS on the machine. -/
def execSm3Compress (s : State) : Host.Outcome State Fault Refusal := finish s (sm3Compress s.engine s.din)

/-- SM3_EXPAND on the machine. -/
def execSm3Expand (s : State) : Host.Outcome State Fault Refusal := finish s (sm3Expand s.engine s.din)

end Sys2Proof.Machine
end

