-- ==== Sys2Proof/Machine/Sm4.lean ====
section
/-! DEFINITION. The SM4 key and block commands (43_sm4.md R182-R185). -/
namespace Sys2Proof.Machine

/-- A key change: the key unit takes `k` and any session ends (R182, R185, R317). -/
def Engine.withKey (e : Engine) (k : Sm4Key) : Engine := { e.endSession with sm4 := k }

/-- SM4_SETKEY (R182). -/
def sm4SetKey (e : Engine) (din : Octets) : Reply :=
  if din.length ≠ 16 then raise e .invalidKey
  else answer (e.withKey { keyValid := true, rk := sm4KeyExpand (blockOfBytes din) }) []

/-- The common part of the block commands: the key check, then the length check, then one block (R183, R184). -/
def sm4OneBlock (e : Engine) (din : Octets) (f : Vector Word 32 → Block → Block) : Reply :=
  if e.sm4.keyValid = false then raise e .sequenceError
  else if din.length ≠ 16 then raise e .invalidInputLength
  else answer e (bytesOfBlock (f e.sm4.rk (blockOfBytes din)))

/-- SM4_ENC_BLOCK (R183). -/
def sm4EncBlock (e : Engine) (din : Octets) : Reply := sm4OneBlock e din sm4Encrypt

/-- SM4_DEC_BLOCK (R184). -/
def sm4DecBlock (e : Engine) (din : Octets) : Reply := sm4OneBlock e din sm4Decrypt

/-- SM4_CLEARKEY (R185). -/
def sm4ClearKey (e : Engine) (din : Octets) : Reply := needEmptyDin e din (answer (e.withKey .cleared) [])

/-- SM4_SETKEY on the machine. -/
def execSm4SetKey (s : State) : Host.Outcome State Fault Refusal := finish s (sm4SetKey s.engine s.din)

/-- SM4_ENC_BLOCK on the machine. -/
def execSm4EncBlock (s : State) : Host.Outcome State Fault Refusal := finish s (sm4EncBlock s.engine s.din)

/-- SM4_DEC_BLOCK on the machine. -/
def execSm4DecBlock (s : State) : Host.Outcome State Fault Refusal := finish s (sm4DecBlock s.engine s.din)

/-- SM4_CLEARKEY on the machine. -/
def execSm4ClearKey (s : State) : Host.Outcome State Fault Refusal := finish s (sm4ClearKey s.engine s.din)

end Sys2Proof.Machine
end

