-- ==== Sys2Proof/Machine/Dispatch.lean ====
section
/-! DEFINITION. One arm per command, each a direct call of its meaning. -/
namespace Sys2Proof.Machine

/-- Perform a decoded command on the transaction's DIN (30_encoding.md R68, R76). -/
def exec (i : Instr) (s : State) : Host.Outcome State Fault Refusal :=
  match i with
  | .nop => Sys2Proof.Machine.execNop s
  | .getState => Sys2Proof.Machine.execGetState s
  | .engineReset => Sys2Proof.Machine.execEngineReset s
  | .sm3Init => Sys2Proof.Machine.execSm3Init s
  | .sm3Update => Sys2Proof.Machine.execSm3Update s
  | .sm3Final => Sys2Proof.Machine.execSm3Final s
  | .sm3Oneshot => Sys2Proof.Machine.execSm3Oneshot s
  | .sm3Compress => Sys2Proof.Machine.execSm3Compress s
  | .sm3Expand => Sys2Proof.Machine.execSm3Expand s
  | .sm4SetKey => Sys2Proof.Machine.execSm4SetKey s
  | .sm4EncBlock => Sys2Proof.Machine.execSm4EncBlock s
  | .sm4DecBlock => Sys2Proof.Machine.execSm4DecBlock s
  | .sm4ClearKey => Sys2Proof.Machine.execSm4ClearKey s
  | .modeInit mode dir pad tagLen => Sys2Proof.Machine.execModeInit mode dir pad tagLen s
  | .modeAad => Sys2Proof.Machine.execModeAad s
  | .modeUpdate => Sys2Proof.Machine.execModeUpdate s
  | .modeFinal => Sys2Proof.Machine.execModeFinal s
  | .modeAbort => Sys2Proof.Machine.execModeAbort s
  | .fpAdd => Sys2Proof.Machine.execFpAdd s
  | .fpSub => Sys2Proof.Machine.execFpSub s
  | .fpMul => Sys2Proof.Machine.execFpMul s
  | .fpSqr => Sys2Proof.Machine.execFpSqr s
  | .fpInv => Sys2Proof.Machine.execFpInv s
  | .fnAdd => Sys2Proof.Machine.execFnAdd s
  | .fnSub => Sys2Proof.Machine.execFnSub s
  | .fnMul => Sys2Proof.Machine.execFnMul s
  | .fnSqr => Sys2Proof.Machine.execFnSqr s
  | .fnInv => Sys2Proof.Machine.execFnInv s

end Sys2Proof.Machine
end

