-- ==== Sys2Proof/Machine/Step.lean ====
section
/-! DEFINITION. One step: the engine takes the next input (00_scope.md R8, 10_state.md R20). The engine has no program
counter and no program (R21); what it runs next is the head of `pending`. -/
namespace Sys2Proof.Machine

/-- Decode a command word, then the DIN length limit, then the command itself (R59, R78, R284). -/
def runCommand (cmd : BitVec 32) (s : State) : Host.Outcome State Fault Refusal :=
  match decode cmd with
  | .illegal _ => finish s (raise s.engine .illegalCommand)
  | .command i =>
    if s.params.dinFits s.din.length = true then exec i s else finish s (raise s.engine .invalidInputLength)

/-- One step. With no input pending the engine waits, unchanged, for the host (R312). -/
def step (s : State) : Host.Outcome State Fault Refusal :=
  match s.pending with
  | [] => .next s
  | .resetEvent :: rest => .next (s.takeReset rest)
  | .command c :: rest => runCommand c.cmd (s.begin c.din rest)

/-- The host's next command: the word w (its bits above `nbits` being 0) with the octet string now at the DIN port, put
before the inputs already pending, so that the very next step runs it. -/
def State.withFetchWord (s : State) (nbits w : Nat) : State :=
  s.offer { cmd := BitVec.ofNat 32 (w % 2 ^ nbits), din := s.din }

end Sys2Proof.Machine
end

