-- ==== Sys2Proof/Machine/Assembler.lean ====
section
/-! DEFINITION. The assembler syntax of the spec's test programs and its pseudo-instructions (30_encoding.md R80, R81).
The engine never sees a line: this is the host's way to write a command, and no step uses it. What the rules leave
open of a line's form is in log entry 19. -/
namespace Sys2Proof.Machine

/-- One line of source, cut up: the mnemonic and its fields, which commas separate. -/
structure SourceLine where
  mnemonic : List Char
  fields : List (List Char)
deriving DecidableEq, Repr

/-- Without the blanks at both ends. -/
def trimBlanks (s : List Char) : List Char := ((s.dropWhile (· = ' ')).reverse.dropWhile (· = ' ')).reverse

/-- Cut a line at its commas and end it at `;`, neither of which counts inside a string in double quotes; an open string
is rejected. `quoted` says whether a string is open, `field` is the present field backwards. -/
def cutFields : List Char → Bool → List Char → Option (List (List Char))
  | [], true, _ => none
  | [], false, field => some [trimBlanks field.reverse]
  | c :: cs, true, field => cutFields cs (c ≠ '"') (c :: field)
  | c :: cs, false, field =>
    if c = ';' then some [trimBlanks field.reverse]
    else if c = ',' then (cutFields cs false []).map (trimBlanks field.reverse :: ·)
    else cutFields cs (c = '"') (c :: field)

/-- A character that may stand in a mnemonic. -/
def mnemonicChar (c : Char) : Bool := c ≠ ' ' && c ≠ ';'

/-- A line of source: its mnemonic up to the first blank, then its fields (R80). -/
def readLine (s : List Char) : Option SourceLine :=
  let text := s.dropWhile (· = ' ')
  match cutFields (text.dropWhile mnemonicChar) false [] with
  | none => none
  | some [[]] => some { mnemonic := text.takeWhile mnemonicChar, fields := [] }
  | some fields => some { mnemonic := text.takeWhile mnemonicChar, fields := fields }

/-- The value of a hex digit. -/
def hexDigit (c : Char) : Option Nat :=
  if '0' ≤ c ∧ c ≤ '9' then some (c.toNat - 48)
  else if 'a' ≤ c ∧ c ≤ 'f' then some (c.toNat - 87)
  else if 'A' ≤ c ∧ c ≤ 'F' then some (c.toNat - 55)
  else none

/-- The bytes of an even number of hex digits (R80). -/
def hexPairs : List Char → Option Octets
  | [] => some []
  | [_] => none
  | h :: l :: cs =>
    match hexDigit h, hexDigit l, hexPairs cs with
    | some x, some y, some s => some (BitVec.ofNat 8 (16 * x + y) :: s)
    | _, _, _ => none

/-- A data operand in hex digits, spaces allowed; there is at least one digit. -/
def hexOperand (field : List Char) : Option Octets :=
  if field = [] then none else hexPairs (field.filter (· ≠ ' '))

/-- The characters of a string up to its closing quote, which ends the field. -/
def quotedText : List Char → Option Octets
  | [] => none
  | ['"'] => some []
  | c :: cs =>
    if c = '"' ∨ 128 ≤ c.toNat then none else (quotedText cs).map (BitVec.ofNat 8 c.toNat :: ·)

/-- A data operand: an ASCII string in double quotes, or hex digits (R80). -/
def dataOperand : List Char → Option Octets
  | '"' :: cs => quotedText cs
  | field => hexOperand field

/-- A modular operand: exactly 64 hex digits, which the assembler does not pad (R80). -/
def modularOperand (field : List Char) : Option Octets :=
  match hexOperand field with
  | none => none
  | some s => if s.length = 32 then some s else none

/-- The operands are concatenated in order to form DIN (R80). -/
def joinOperands (operand : List Char → Option Octets) : List (List Char) → Option Octets
  | [] => some []
  | field :: fields =>
    match operand field, joinOperands operand fields with
    | some s, some t => some (s ++ t)
    | _, _ => none

/-- The mode selector of `mode.init` (R80). -/
def modeSelector (field : List Char) : Option Nat :=
  if field = "ecb".toList then some 0
  else if field = "cbc".toList then some 1
  else if field = "ctr".toList then some 2
  else if field = "gcm".toList then some 3
  else none

/-- The direction selector of `mode.init` (R80). -/
def dirSelector (field : List Char) : Option Dir :=
  if field = "enc".toList then some .enc else if field = "dec".toList then some .dec else none

/-- The optional `pkcs7` selector, and the fields after it; leaving it out gives PAD = 0 (R80). -/
def padSelector : List (List Char) → Pad × List (List Char)
  | [] => (.noPadding, [])
  | field :: fields => if field = "pkcs7".toList then (.pkcs7, fields) else (.noPadding, field :: fields)

/-- Whether a field is the optional selector `t=n`. -/
def isTagSelector (field : List Char) : Bool := field.take 2 = "t=".toList

/-- The number that decimal digits write, after the digits already read. -/
def decimal : List Char → Nat → Option Nat
  | [], n => some n
  | c :: cs, n => if '0' ≤ c ∧ c ≤ '9' then decimal cs (10 * n + (c.toNat - 48)) else none

/-- The number after `t=`. R80 writes 12 to 16; the spec's own vectors write 4, 11 and 17 as well, so every number that
TAGLEN's five bits hold is accepted (log entry 19). -/
def tagValue (field : List Char) : Option Nat :=
  match field.drop 2 with
  | [] => none
  | digits =>
    match decimal digits 0 with
    | none => none
    | some n => if tagLenFits n then some n else none

/-- The optional `t=n` selector, and the fields after it; leaving it out gives TAGLEN = 0 (R80). -/
def tagSelector : List (List Char) → Option (Nat × List (List Char))
  | [] => some (0, [])
  | field :: fields =>
    if isTagSelector field then (tagValue field).map (·, fields) else some (0, field :: fields)

/-- `mode.init mode, dir [, pkcs7] [, t=n] [, iv]` (R80). -/
def assembleModeInit : List (List Char) → Option Command
  | mode :: dir :: fields =>
    match modeSelector mode, dirSelector dir, tagSelector (padSelector fields).2 with
    | some m, some d, some (tagLen, operands) =>
      (joinOperands dataOperand operands).map fun din => ⟨encode (.modeInit m d (padSelector fields).1 tagLen), din⟩
    | _, _, _ => none
  | _ => none

/-- The mnemonics whose operands are data (R80). -/
def dataMnemonics : List (String × Instr) :=
  [("nop", .nop), ("state", .getState), ("reset", .engineReset), ("sm3.init", .sm3Init), ("sm3.update", .sm3Update),
   ("sm3.final", .sm3Final), ("sm3.oneshot", .sm3Oneshot), ("sm3.compress", .sm3Compress), ("sm3.expand", .sm3Expand)] ++
  [("sm4.setkey", .sm4SetKey), ("sm4.enc.block", .sm4EncBlock), ("sm4.dec.block", .sm4DecBlock),
   ("sm4.clearkey", .sm4ClearKey), ("mode.aad", .modeAad), ("mode.update", .modeUpdate), ("mode.final", .modeFinal),
   ("mode.abort", .modeAbort)]

/-- The mnemonics whose operands are modular (R80). -/
def modularMnemonics : List (String × Instr) :=
  [("fp.add", .fpAdd), ("fp.sub", .fpSub), ("fp.mul", .fpMul), ("fp.sqr", .fpSqr), ("fp.inv", .fpInv)] ++
  [("fn.add", .fnAdd), ("fn.sub", .fnSub), ("fn.mul", .fnMul), ("fn.sqr", .fnSqr), ("fn.inv", .fnInv)]

/-- The command of a mnemonic. -/
def lookupMnemonic (table : List (String × Instr)) (name : List Char) : Option Instr :=
  (table.find? fun row => row.1.toList = name).map Prod.snd

/-- Assemble a line that is no pseudo-instruction (R80). -/
def assembleCore (l : SourceLine) : Option Command :=
  if l.mnemonic = "mode.init".toList then assembleModeInit l.fields
  else match lookupMnemonic dataMnemonics l.mnemonic, lookupMnemonic modularMnemonics l.mnemonic with
    | some i, _ => (joinOperands dataOperand l.fields).map (⟨encode i, ·⟩)
    | none, some i => (joinOperands modularOperand l.fields).map (⟨encode i, ·⟩)
    | none, none => none

/-- The algorithm identifiers of `cipher`: the mode's selector, and whether `pkcs7` stands in the expansion (R81). -/
def cipherTable : List (String × String × Bool) :=
  [("\"SM4/ECB/NoPadding\"", "ecb", false), ("\"SM4/ECB/PKCS7Padding\"", "ecb", true),
   ("\"SM4/CBC/NoPadding\"", "cbc", false), ("\"SM4/CBC/PKCS7Padding\"", "cbc", true)] ++
  [("\"SM4/CTR/NoPadding\"", "ctr", false), ("\"SM4/CTR/PKCS7Padding\"", "ctr", true),
   ("\"SM4/GCM/NoPadding\"", "gcm", false), ("\"SM4/GCM/PKCS7Padding\"", "gcm", true)]

/-- `cipher "identifier", dir, … [, t=n]` expands to `mode.init mode, dir [, pkcs7] [, t=n], …`; an identifier outside the
table is rejected (R81). DESIGN CHOICE (log entry 19): R81 does not say what becomes of fields beyond the forms of its table;
they are passed on to `mode.init`, so a written `pkcs7` right after the direction sets PAD beside a NoPadding identifier too.
That `t=` is rejected outside GCM and may stand anywhere in GCM is the model's choice as well (log entry 19). -/
def expandCipher : List (List Char) → Option SourceLine
  | name :: dir :: fields =>
    match cipherTable.find? fun row => row.1.toList = name with
    | none => none
    | some (_, mode, pkcs7) =>
      if mode ≠ "gcm" ∧ fields.any isTagSelector = true then none
      else some
        { mnemonic := "mode.init".toList
          fields := mode.toList :: dir :: (if pkcs7 then ["pkcs7".toList] else []) ++ fields.filter isTagSelector ++
            fields.filter (!isTagSelector ·) }
  | _ => none

/-- A zero operand of 64 hex digits (R81). -/
def zeroOperand : List Char := List.replicate 64 '0'

/-- A pseudo-instruction with one operand, given the fields of its expansion (R81). -/
def expandUnary (mnemonic : String) (build : List Char → List (List Char)) : List (List Char) → Option SourceLine
  | [a] => some { mnemonic := mnemonic.toList, fields := build a }
  | _ => none

/-- The expansion of a pseudo-instruction; every other line stands as it is (R81). Operands beyond the table's forms of
`sm3.reset` and `sm4.ecb.block.enc` are passed on, and of `fp.neg`, `fn.neg` and `fp.dbl` rejected (DESIGN CHOICE, log entry 19). -/
def expandPseudo (l : SourceLine) : Option SourceLine :=
  if l.mnemonic = "sm3.reset".toList then some { l with mnemonic := "sm3.init".toList }
  else if l.mnemonic = "cipher".toList then expandCipher l.fields
  else if l.mnemonic = "fp.neg".toList then expandUnary "fp.sub" (fun a => [zeroOperand, a]) l.fields
  else if l.mnemonic = "fn.neg".toList then expandUnary "fn.sub" (fun a => [zeroOperand, a]) l.fields
  else if l.mnemonic = "fp.dbl".toList then expandUnary "fp.add" (fun a => [a, a]) l.fields
  else if l.mnemonic = "sm4.ecb.block.enc".toList then some { l with mnemonic := "sm4.enc.block".toList }
  else some l

/-- Assemble one line: no command for a line without a mnemonic, else one; `none` is a line the assembler rejects (R80, R81). -/
def assembleLine (source : String) : Option (List Command) :=
  match readLine source.toList with
  | none => none
  | some l =>
    if l.mnemonic = [] then (if l.fields = [] then some [] else none)
    else match expandPseudo l with
      | none => none
      | some core => (assembleCore core).map ([·])

/-- Assemble a program, line by line, into the inputs the host gives (R80). -/
def assembleProgram : List String → Option (List Input)
  | [] => some []
  | line :: lines =>
    match assembleLine line, assembleProgram lines with
    | some cs, some rest => some (cs.map Input.command ++ rest)
    | _, _ => none

end Sys2Proof.Machine
end

