-- ==== Sys2Proof/Machine/OneShot.lean ====
section
/-! DEFINITION. The one-shot meaning of a whole session, on a total input given at once (44_modes.md R218,
45_gcm.md R256). No command calls these; statements compare the command-by-command machine with them. -/
namespace Sys2Proof.Machine

/-- The concatenated 16-byte forms of blocks. -/
def bytesOfBlocks (xs : List Block) : Octets := (xs.map bytesOfBlock).flatten

/-- CBC encryption: C_i = E(M_i ⊕ C_{i−1}), from C_0 (R218). -/
def cbcEncBlocks (rk : Vector Word 32) : Block → List Block → List Block
  | _, [] => []
  | prev, m :: ms => sm4Encrypt rk (m ^^^ prev) :: cbcEncBlocks rk (sm4Encrypt rk (m ^^^ prev)) ms

/-- The keystream E(c) ‖ E(inc c) ‖ E(inc² c) ‖ … of `n` blocks (R218, R256). -/
def keystream (rk : Vector Word 32) (inc : Block → Block) : Nat → Block → Octets
  | 0, _ => []
  | n + 1, c => bytesOfBlock (sm4Encrypt rk c) ++ keystream rk inc n (inc c)

/-- M ⊕ (the first len(M) bytes of the keystream from counter c) (R218, R256). -/
def streamCipher (rk : Vector Word 32) (inc : Block → Block) (c : Block) (m : Octets) : Octets :=
  xorBytes m (keystream rk inc (m.length / 16 + 1) c)

/-- The bytes the block modes encrypt: M, or M ‖ bytes_k(k) with PKCS7 (R218, R220). -/
def withPadding : Pad → Octets → Octets
  | .noPadding, m => m
  | .pkcs7, m => pkcs7Pad m

/-- The ciphertext of a total plaintext M (R218 for ECB, CBC and CTR; the C of R256 for GCM). -/
def oneShotCipher (rk : Vector Word 32) (mode : Mode) (pad : Pad) (iv m : Octets) : Octets :=
  match mode with
  | .ecb => bytesOfBlocks ((blocksOf (withPadding pad m)).map (sm4Encrypt rk))
  | .cbc => bytesOfBlocks (cbcEncBlocks rk (blockOfBytes iv) (blocksOf (withPadding pad m)))
  | .ctr => streamCipher rk inc128 (blockOfBytes iv) m
  | .gcm => streamCipher rk inc32 (inc32 (gcmJ0 (gcmSubkey rk) iv)) m

/-- S = GHASH_H(zpad(A) ‖ zpad(C) ‖ toBE_8(8·len(A)) ‖ toBE_8(8·len(C))) (R256). -/
def oneShotGhash (rk : Vector Word 32) (aad c : Octets) : Block :=
  ghash (gcmSubkey rk) (zpad aad ++ zpad c ++ toBE 8 (8 * aad.length) ++ toBE 8 (8 * c.length))

/-- T = MSB_t(E(J0) ⊕ S) (R256). -/
def oneShotTag (rk : Vector Word 32) (iv aad c : Octets) (t : Nat) : Octets :=
  (bytesOfBlock (sm4Encrypt rk (gcmJ0 (gcmSubkey rk) iv) ^^^ oneShotGhash rk aad c)).take t

/-- The plaintexts a session admits: ECB and CBC without padding need a multiple of 16 bytes (R209, R219), GCM at most
2^36 − 32 bytes (R257). -/
def admissible (mode : Mode) (pad : Pad) (m : Octets) : Prop :=
  match mode, pad with
  | .ecb, .noPadding => m.length % 16 = 0
  | .cbc, .noPadding => m.length % 16 = 0
  | .ecb, .pkcs7 => True
  | .cbc, .pkcs7 => True
  | .ctr, _ => True
  | .gcm, _ => m.length ≤ Config.gcmDataLimit

end Sys2Proof.Machine
end

