-- ==== Sys2Proof/Machine/Platform.lean ====
section
/-! DEFINITION. A platform of `N_ENGINES` independent engine instances (10_state.md R44, 20_memory.md R62, 92_eei_decisions.md D2).
The order in which the instances take their inputs is left open (93_implementation_defined.md I11): it is an argument. -/
namespace Sys2Proof.Machine

/-- The instances of a platform, each a machine of its own; nothing is shared (R44). -/
structure Platform where
  engines : List State
deriving DecidableEq, Repr

/-- The platform right after reset: every instance at reset (R310). -/
def Platform.reset : Platform := { engines := List.replicate Config.nEngines .reset }

/-- Instance `k` takes one step; where there is no instance `k`, nothing happens. -/
def Platform.stepAt (p : Platform) (k : Nat) : Host.Outcome Platform Fault Refusal :=
  match p.engines[k]? with
  | none => .next p
  | some s =>
    match step s with
    | .next t => .next { engines := p.engines.set k t }
    | .fault r => .fault r
    | .refused r => .refused r

/-- The instances named by a schedule take one step each, in its order (R62: the order is open). -/
def Platform.run (p : Platform) : List Nat → Host.Outcome Platform Fault Refusal
  | [] => .next p
  | k :: ks =>
    match p.stepAt k with
    | .next q => q.run ks
    | .fault r => .fault r
    | .refused r => .refused r

end Sys2Proof.Machine
end

