-- ==== Sys2Proof/Safety.lean ====
section
/-! DEFINITION. What counts as a good state and a safe run, in the terms the statements use: the invariants 10_state.md
gives for each unit context, and the input sequences of a hash and of a cipher session. -/
namespace Sys2Proof.Machine

/-- The SM3 context invariant (R25, R26, R27). -/
structure Sm3Ctx.WellKept (x : Sm3Ctx) : Prop where
  /-- IDLE: every element at its IDLE value (R27, R46). -/
  idle : x.phase = .idle → x = .idle
  /-- bitlen is 8 times a number of bytes (R26). -/
  wholeBytes : x.bitlen.toNat % 8 = 0
  /-- nbuf = (bitlen / 8) mod 64 (R27). -/
  pending : x.nbuf.val = x.bitlen.toNat / 8 % 64
  /-- The bytes of buf from nbuf on are zero (R25). -/
  tailZero : ∀ i : Fin 64, x.nbuf.val ≤ i.val → x.buf[i.val] = 0

/-- The key unit invariant: key_valid = 0 implies rk is all zero (R28). -/
def Sm4Key.WellKept (k : Sm4Key) : Prop := k.keyValid = false → k = .cleared

/-- ECB and CBC process whole blocks; CTR and GCM a keystream. -/
def isBlockMode : Mode → Bool
  | .ecb => true
  | .cbc => true
  | .ctr => false
  | .gcm => false

/-- The longest `sess.pend`: 16 under PKCS7 decryption, else 15; empty in CTR and GCM (R32). -/
def pendLimit (mode : Mode) (dir : Dir) (pad : Pad) : Nat :=
  match isBlockMode mode, dir, pad with
  | false, _, _ => 0
  | true, .dec, .pkcs7 => 16
  | true, .dec, .noPadding => 15
  | true, .enc, _ => 15

/-- The GCM extension of an ACTIVE GCM session (R34-R38, R257). -/
structure Gcm.WellKept (p : Params) (rk : Vector Word 32) (dir : Dir) (g : Gcm) : Prop where
  /-- H = E(0^128) (R34, R244). -/
  subkey : g.H = gcmSubkey rk
  /-- gpend holds the AAD bytes, or the ciphertext bytes, past the last whole block (R35, R251). -/
  partialBlock : g.gpend.length = (if g.started then g.clen.toNat else g.alen.toNat) % 16
  /-- The AAD limit (R257). -/
  aad : g.alen.toNat < Config.gcmAadLimit
  /-- The data limit (R257). -/
  data : g.clen.toNat ≤ Config.gcmDataLimit
  /-- No data before the data phase (R37). -/
  phase : g.started = false → g.clen = 0
  /-- Encryption withholds nothing, decryption all of its data (R38, R249, R250). -/
  withheld : g.dbuf.length = (match dir with
    | .enc => 0
    | .dec => g.clen.toNat)
  /-- dbuf is within `GCM_DEC_BUF_BYTES` (R38). -/
  capacity : g.dbuf.length ≤ p.gcmDecBufBytes

/-- An ACTIVE session (R30-R33, R317). -/
structure Engine.SessionWellKept (p : Params) (e : Engine) : Prop where
  /-- A session runs only under a loaded key (R201, R317). -/
  keyed : e.sm4.keyValid = true
  /-- PAD = 1 only with ECB or CBC (R30). -/
  padding : padAllowed e.sess.mode e.sess.pad = true
  /-- t is 12..16 in a GCM session, else 0 (R30). -/
  tagLength : if e.sess.mode = .gcm then 12 ≤ e.sess.t.val else e.sess.t.val = 0
  /-- The chaining block is zero outside CBC (R31). -/
  chain : e.sess.mode ≠ .cbc → e.sess.chain = 0
  /-- The pending input is within its limit (R32). -/
  pend : e.sess.pend.length ≤ pendLimit e.sess.mode e.sess.dir e.sess.pad
  /-- The counter state is at its IDLE value in ECB and CBC (R33). -/
  counter : isBlockMode e.sess.mode = true → e.sess.ctr = 0 ∧ e.sess.ks = 0 ∧ e.sess.ksOff = 16
  /-- The GCM extension is IDLE outside GCM (R34-R38). -/
  noGcm : e.sess.mode ≠ .gcm → e.gcm = .idle
  /-- The GCM extension of a GCM session. -/
  gcm : e.sess.mode = .gcm → e.gcm.WellKept p e.sm4.rk e.sess.dir

/-- The invariant of the architectural state under parameters p. -/
structure Engine.WellKept (p : Params) (e : Engine) : Prop where
  sm3 : e.sm3.WellKept
  sm4 : e.sm4.WellKept
  /-- An IDLE session holds its IDLE value (R29, R46). -/
  idleSession : e.sess.phase = .idle → e.sess = .idle ∧ e.gcm = .idle
  activeSession : e.sess.phase = .active → e.SessionWellKept p

/-- The invariant every step keeps. -/
def State.Inv (s : State) : Prop := s.engine.WellKept s.params

/-- The machine with exactly these inputs to come. -/
def State.given (s : State) (inputs : List Input) : State := { s with pending := inputs }

/-- The machine after a sequence of commands has been taken and answered: the engine `e`, no input left, and the
responses given in the order `rs`. -/
def State.answered (s : State) (e : Engine) (rs : List Response) : State :=
  { s with engine := e, pending := [], din := [], responses := rs.reverse ++ s.responses }

/-- The concatenated outputs of responses. -/
def outputs (rs : List Response) : Octets := (rs.map Response.dout).flatten

/-- Every response has STATUS OK. -/
def allOk (rs : List Response) : Prop := ∀ r ∈ rs, r.status = .ok

/-- Every part is a DIN the port accepts (R59). -/
def allFit (p : Params) (parts : List Octets) : Prop := ∀ d ∈ parts, p.dinFits d.length = true

/-- SM3_INIT, one SM3_UPDATE for each part, SM3_FINAL (R143). -/
def hashInputs (parts : List Octets) : List Input :=
  [.command ⟨0x10, []⟩] ++ parts.map (fun d => .command ⟨0x11, d⟩) ++ [.command ⟨0x12, []⟩]

/-- MODE_INIT with command word `w` and IV, one MODE_AAD for each part of the AAD, one MODE_UPDATE for each part of the
data, MODE_FINAL (R200). -/
def sessionInputs (w : BitVec 32) (iv : Octets) (aad data : List Octets) (final : Octets) : List Input :=
  [.command ⟨w, iv⟩] ++ aad.map (fun d => .command ⟨0x31, d⟩) ++ data.map (fun d => .command ⟨0x32, d⟩) ++
    [.command ⟨0x33, final⟩]

/-- The STATUS a command's response carries in this state, were it the next (R296). -/
def statusOf (i : Instr) (s : State) : Option Status :=
  match exec i s with
  | .next t => t.responses.head?.map Response.status
  | .fault _ => none
  | .refused _ => none

/-- The statuses other than IllegalCommand and the `MAX_DIN_BYTES` InvalidInputLength that a command can return, as R296
lists them; for MODE_UPDATE and MODE_FINAL they depend on the session. -/
def statusesOf (e : Engine) : Instr → List Status
  | .nop | .getState | .engineReset | .sm3Init | .sm4ClearKey | .modeAbort => [.ok, .invalidInputLength]
  | .sm3Update | .sm3Final => [.ok, .sequenceError, .invalidInputLength]
  | .sm3Oneshot | .sm3Compress | .sm3Expand => [.ok, .invalidInputLength]
  | .sm4SetKey => [.ok, .invalidKey]
  | .sm4EncBlock | .sm4DecBlock => [.ok, .sequenceError, .invalidInputLength]
  | .modeInit _ _ _ _ => [.ok, .sequenceError, .invalidParameter]
  | .modeAad => [.ok, .sequenceError, .invalidInputLength]
  | .modeUpdate =>
    match e.sess.mode with
    | .gcm => [.ok, .sequenceError, .invalidInputLength]
    | .ecb | .cbc | .ctr => [.ok, .sequenceError]
  | .modeFinal =>
    match e.sess.mode, e.sess.dir, e.sess.pad with
    | .gcm, .enc, _ => [.ok, .sequenceError, .invalidInputLength]
    | .gcm, .dec, _ => [.ok, .sequenceError, .authenticationFailed]
    | .ctr, _, _ => [.ok, .sequenceError, .invalidInputLength]
    | .ecb, .dec, .pkcs7 | .cbc, .dec, .pkcs7 => [.ok, .sequenceError, .invalidInputLength, .badPadding]
    | .ecb, _, _ | .cbc, _, _ => [.ok, .sequenceError, .invalidInputLength]
  | .fpAdd | .fpSub | .fpMul | .fpSqr | .fpInv => [.ok, .invalidInputLength, .invalidOperand]
  | .fnAdd | .fnSub | .fnMul | .fnSqr | .fnInv => [.ok, .invalidInputLength, .invalidOperand]

/-- The mode commands whose errors other than SequenceError end the session (R215, R283). -/
def errorEndsSession : Instr → Status → Bool
  | .modeInit _ _ _ _, st | .modeAad, st | .modeUpdate, st | .modeFinal, st => st ≠ .sequenceError
  | .nop, _ | .getState, _ | .engineReset, _ | .modeAbort, _ => false
  | .sm3Init, _ | .sm3Update, _ | .sm3Final, _ | .sm3Oneshot, _ | .sm3Compress, _ | .sm3Expand, _ => false
  | .sm4SetKey, _ | .sm4EncBlock, _ | .sm4DecBlock, _ | .sm4ClearKey, _ => false
  | .fpAdd, _ | .fpSub, _ | .fpMul, _ | .fpSqr, _ | .fpInv, _ => false
  | .fnAdd, _ | .fnSub, _ | .fnMul, _ | .fnSqr, _ | .fnInv, _ => false

/-- The commands that change no state on any status (R39, R283). -/
def statelessCommands : List Instr :=
  [.nop, .getState, .sm3Oneshot, .sm3Compress, .sm3Expand, .sm4EncBlock, .sm4DecBlock, .fpAdd, .fpSub, .fpMul, .fpSqr,
    .fpInv, .fnAdd, .fnSub, .fnMul, .fnSqr, .fnInv]

/-- OPC is not in the map of R68: the unassigned values as R74 lists them. -/
def unassignedOpcode (o : Nat) : Bool :=
  (0x03 ≤ o && o ≤ 0x0F) || (0x16 ≤ o && o ≤ 0x1F) || (0x24 ≤ o && o ≤ 0x2F) || (0x35 ≤ o && o ≤ 0x3F) ||
    (0x45 ≤ o && o ≤ 0x47) || (0x4D ≤ o && o ≤ 0xFF)

/-- A format S encoding (R66, R73): the words with OPC = `opc` decode to `i` when bits 31:8 are 0 and are illegal when
they are not. -/
def FormatS (opc : Nat) (i : Instr) : Prop :=
  ∀ w : BitVec 32, w.toNat % 256 = opc →
    decode w = if w.toNat / 256 = 0 then .command i else .illegal .reservedBits

/-- ModCheck(m, k) (R104) for command `i`: a DIN that is not k bytes raises InvalidInputLength, an operand that is not below m
raises InvalidOperand, and neither changes the engine. With k = 32 there is one operand, and DIN[32:] is ε. -/
def ModCheck (i : Instr) (m k : Nat) : Prop :=
  ∀ s : State,
    (s.din.length ≠ k → exec i s = .next (s.complete ⟨s.engine, .invalidInputLength, []⟩)) ∧
    (s.din.length = k → (m ≤ beNat (s.din.take 32) ∨ m ≤ beNat (s.din.drop 32)) →
      exec i s = .next (s.complete ⟨s.engine, .invalidOperand, []⟩))

/-- The ten modular commands, each with its modulus and the length of its DIN (R104). -/
def modularCommands : List (Instr × Nat × Nat) :=
  [(.fpAdd, pSM2, 64), (.fpSub, pSM2, 64), (.fpMul, pSM2, 64), (.fpSqr, pSM2, 32), (.fpInv, pSM2, 32)] ++
  [(.fnAdd, nSM2, 64), (.fnSub, nSM2, 64), (.fnMul, nSM2, 64), (.fnSqr, nSM2, 32), (.fnInv, nSM2, 32)]

/-- How many new keystream blocks CtrXor makes for `len` bytes when `off` bytes of the last one are used (R207). -/
def freshBlocks (off len : Nat) : Nat := (len - (16 - off) + 15) / 16

/-- The keystream CtrXor takes its bytes from: what is left of the last block, then the new blocks (R207). -/
def keystreamFor (rk : Vector Word 32) (inc : Block → Block) (x : Session) (len : Nat) : Octets :=
  (bytesOfBlock x.ks).drop x.ksOff.val ++ keystream rk inc (freshBlocks x.ksOff.val len) x.ctr

/-- `y` is the session `x` after CtrXor of `len` bytes: only ctr, ks and ks_off change, and the keystream bytes left over
are the next ones (R207). -/
def CounterAdvanced (rk : Vector Word 32) (inc : Block → Block) (x y : Session) (len : Nat) : Prop :=
  y = { x with ctr := inc^[freshBlocks x.ksOff.val len] x.ctr, ks := y.ks, ksOff := y.ksOff } ∧
    (bytesOfBlock y.ks).drop y.ksOff.val = (keystreamFor rk inc x len).drop len

/-- The blocks Flush() absorbs for a partial block `pend` of fewer than 16 bytes (R248). -/
def flushBlocks (pend : Octets) : List Block :=
  if pend = [] then [] else [blockOfBytes (pend ++ bytesK (16 - pend.length) 0)]

/-- `blocks` and `rest` are the whole 16-byte blocks of a byte string and its remainder of fewer than 16 bytes. -/
def SplitsAs (s : Octets) (blocks : List Block) (rest : Octets) : Prop :=
  s = bytesOfBlocks blocks ++ rest ∧ rest.length < 16

end Sys2Proof.Machine
end

