-- ==== Sys2Proof/Certificates/Slice0/Obligations.lean ====
section
/-! DEFINITION. The statements for the provers, each a numbered rule of spec/ or a law derived from several. -/
open Sys2Proof Sys2Proof.Machine

/-! ## Encoding and the step -/

/-- Decoding the encoding of a well-formed command gives it back, with every field at every value (R66, R67, R78). -/
def Obligations.DecodeEncodeRoundTrip : Prop :=
  ∀ i : Instr, i.wellFormed = true → decode (encode i) = .command i

/-- "A legal command word decodes to exactly one command" (R78), and it is that command's encoding: no word of another
shape is taken for a command. -/
def Obligations.LegalWordIsItsEncoding : Prop :=
  ∀ (w : BitVec 32) (i : Instr), decode w = .command i → i.wellFormed = true ∧ encode i = w

/-- R79: how many command words are legal, and that the selections MODE_INIT rejects are legal encodings whose execution
raises InvalidParameter. -/
def Obligations.LegalWordCount : Prop :=
  Set.ncard {w : BitVec 32 | ∃ i, decode w = .command i ∧ w.toNat % 256 ≠ 0x30} = 27 ∧
  Set.ncard {w : BitVec 32 | ∃ i, decode w = .command i ∧ w.toNat % 256 = 0x30} = 2 ^ 4 * 2 * 2 * 2 ^ 5 ∧
  ∀ (mode tagLen : Nat) (dir : Dir) (pad : Pad) (s : State), mode < 16 → tagLen < 32 → s.engine.sm4.keyValid = true →
    (4 ≤ mode ∨ (pad = .pkcs7 ∧ (mode = 2 ∨ mode = 3)) ∨ (mode ≠ 3 ∧ tagLen ≠ 0) ∨
      (mode = 3 ∧ tagLen ≠ 0 ∧ (tagLen < 12 ∨ 16 < tagLen))) →
    decode (encode (.modeInit mode dir pad tagLen)) = .command (.modeInit mode dir pad tagLen) ∧
    exec (.modeInit mode dir pad tagLen) s = .next (s.complete ⟨s.engine.endSession, .invalidParameter, []⟩)

/-- Words of every family written out from the spec decode to the command they stand for (R67, R68, R73, 95_test_vectors.md). -/
def Obligations.SpecWordsDecode : Prop :=
  decode 0x00000001 = .command .getState ∧
  decode 0x00000015 = .command .sm3Expand ∧
  decode 0x00000022 = .command .sm4DecBlock ∧
  decode 0x00002130 = .command (.modeInit 1 .enc .pkcs7 0) ∧
  decode 0x000C1330 = .command (.modeInit 3 .dec .noPadding 12) ∧
  decode 0x00000034 = .command .modeAbort ∧
  decode 0x00000044 = .command .fpInv ∧
  decode 0x0000004A = .command .fnMul ∧
  decode 0x00000101 = .illegal .reservedBits ∧
  decode 0x00400030 = .illegal .reservedBits ∧
  decode 0x00008030 = .illegal .reservedBits ∧
  decode 0x00000003 = .illegal .unassignedOpcode

/-- Lines of the spec's programs and of its table of pseudo-instructions assemble to the command words and the DIN it gives,
and lines outside the syntax are rejected (R80, R81, 95_test_vectors.md). -/
def Obligations.SpecLinesAssemble : Prop :=
  assembleLine "mode.init cbc, enc, pkcs7, 00000000000000000000000000000000" = some [⟨0x00002130, List.replicate 16 0⟩] ∧
  assembleLine "mode.init gcm, enc, t=12, 00001234567800000000abcd" =
    some [⟨0x000C0330, [0x00, 0x00, 0x12, 0x34, 0x56, 0x78, 0x00, 0x00, 0x00, 0x00, 0xAB, 0xCD]⟩] ∧
  assembleLine "sm3.oneshot \"abc\"" = some [⟨0x00000013, [0x61, 0x62, 0x63]⟩] ∧
  assembleLine "sm3.reset" = assembleLine "sm3.init" ∧
  assembleLine "cipher \"SM4/CTR/PKCS7Padding\", dec, 01" = some [⟨0x00003230, [0x01]⟩] ∧
  assembleLine "cipher \"SM4/GCM/NoPadding\", dec, 01, t=13" = assembleLine "mode.init gcm, dec, t=13, 01" ∧
  assembleLine "fp.dbl 0000000000000000000000000000000000000000000000000000000000000003" =
    some [⟨0x00000040, toBE 32 3 ++ toBE 32 3⟩] ∧
  assembleLine "fn.neg 0000000000000000000000000000000000000000000000000000000000000003" =
    some [⟨0x00000049, toBE 32 0 ++ toBE 32 3⟩] ∧
  assembleLine "cipher \"SM4/XTS/NoPadding\", enc" = none ∧
  assembleLine "fn.inv 02" = none ∧
  assembleLine "sm4.setkey 012" = none

/-- R73, R74: an unassigned opcode or a set reserved bit raises IllegalCommand and changes no state, whatever DIN is;
there are 228 unassigned opcodes. -/
def Obligations.IllegalWordChangesNothing : Prop :=
  (∀ (s : State) (c : Command) (rest : List Input), s.pending = .command c :: rest →
    (unassignedOpcode (c.cmd.toNat % 256) = true ∨
      (c.cmd.toNat % 256 = 0x30 ∧ (c.cmd.toNat / 2 ^ 21 ≠ 0 ∨ c.cmd.toNat / 2 ^ 14 % 4 ≠ 0)) ∨
      (c.cmd.toNat % 256 ≠ 0x30 ∧ c.cmd.toNat / 256 ≠ 0)) →
    step s = .next { s with pending := rest, din := [], responses := ⟨.illegalCommand, []⟩ :: s.responses }) ∧
  ((List.range 256).filter unassignedOpcode).length = 228

/-- A step runs the decoded command: the command at the head of the inputs, once its DIN is within the limit, is performed
by `exec` with that DIN, the other inputs staying pending (R61, R78, R284). How the model holds inputs, DIN and
responses is its own choice (log entry 1). -/
def Obligations.StepRunsDecodedCommand : Prop :=
  ∀ (s : State) (c : Command) (rest : List Input) (i : Instr), s.pending = .command c :: rest →
    decode c.cmd = .command i → (∀ m, s.params.maxDin = some m → c.din.length ≤ m) →
    step s = exec i { s with pending := rest, din := c.din }

/-- R59: a DIN over `MAX_DIN_BYTES` raises InvalidInputLength before every check of the command except its decode, and
the state is unchanged; a DIN of at most 96 bytes is never over the limit (D47). -/
def Obligations.DinLimitBeforeCommandChecks : Prop :=
  (∀ (s : State) (c : Command) (rest : List Input) (i : Instr) (m : Nat), s.pending = .command c :: rest →
    decode c.cmd = .command i → s.params.maxDin = some m → m < c.din.length →
    step s = .next { s with pending := rest, din := [], responses := ⟨.invalidInputLength, []⟩ :: s.responses }) ∧
  ∀ (p : Params) (m : Nat), p.maxDin = some m → 96 ≤ m

/-- R45, R310: the reset event puts every state element at the value of R45's table, and the machine starts there. -/
def Obligations.ResetEventRestoresResetValues : Prop :=
  (∀ (s : State) (rest : List Input), s.pending = .resetEvent :: rest →
    ∃ t, step s = .next t ∧ t.engine = Engine.reset) ∧
  State.reset.engine = Engine.reset ∧
  Engine.reset.sm3 = ⟨.idle, ⟨0, 0, 0, 0, 0, 0, 0, 0⟩, Vector.replicate 64 0, 0, 0⟩ ∧
  Engine.reset.sm4 = ⟨false, Vector.replicate 32 0⟩ ∧
  Engine.reset.sess = ⟨.idle, .ecb, .enc, .noPadding, 0, 0, [], 0, 0, 16⟩ ∧
  Engine.reset.gcm = ⟨0, 0, 0, [], 0, 0, false, []⟩

/-! ## Control -/

/-- R90: NOP. -/
def Obligations.NopRule : Prop :=
  FormatS 0x00 .nop ∧
  (∀ s : State, s.din ≠ [] → exec .nop s = .next (s.complete ⟨s.engine, .invalidInputLength, []⟩)) ∧
  ∀ s : State, s.din = [] → exec .nop s = .next (s.complete ⟨s.engine, .ok, []⟩)

/-- R91: GET_STATE. The four bytes of the summary, bit by bit; no state changes; with a session or an SM3 context IDLE its
bits are 0 in every state that keeps the invariant. -/
def Obligations.GetStateRule : Prop :=
  FormatS 0x01 .getState ∧
  (∀ s : State, s.din ≠ [] → exec .getState s = .next (s.complete ⟨s.engine, .invalidInputLength, []⟩)) ∧
  (∀ s : State, s.din = [] → exec .getState s = .next (s.complete ⟨s.engine, .ok,
    [BitVec.ofNat 8 ((if s.engine.sm3.phase = .active then 1 else 0) + (if s.engine.sm4.keyValid = true then 2 else 0) +
        (if s.engine.sess.phase = .active then 4 else 0) + (if s.engine.gcm.started = true then 8 else 0)),
      BitVec.ofNat 8 ((match s.engine.sess.mode with | .ecb => 0 | .cbc => 1 | .ctr => 2 | .gcm => 3) +
        (if s.engine.sess.dir = .dec then 4 else 0) + (if s.engine.sess.pad = .pkcs7 then 8 else 0)),
      BitVec.ofNat 8 s.engine.sm3.nbuf.val,
      BitVec.ofNat 8 s.engine.sess.t.val]⟩)) ∧
  (∀ s : State, s.Inv → s.engine.sess.phase = .idle →
    summaryByte1 s.engine = 0 ∧ s.engine.sess.t = 0 ∧ (summaryByte0 s.engine).getLsbD 3 = false) ∧
  ∀ s : State, s.Inv → s.engine.sm3.phase = .idle → s.engine.sm3.nbuf = 0

/-- R92, R311: ENGINE_RESET leaves the engine exactly as the reset event does, and responds OK with DOUT ε. -/
def Obligations.EngineResetRule : Prop :=
  FormatS 0x02 .engineReset ∧
  (∀ s : State, s.din ≠ [] → exec .engineReset s = .next (s.complete ⟨s.engine, .invalidInputLength, []⟩)) ∧
  (∀ s : State, s.din = [] → exec .engineReset s = .next (s.complete ⟨Engine.reset, .ok, []⟩)) ∧
  ∀ (s t t' : State) (rest : List Input), s.din = [] → exec .engineReset s = .next t →
    step { s with pending := .resetEvent :: rest } = .next t' → t.engine = t'.engine

/-! ## Modular arithmetic -/

/-- R104: ModCheck, for the ten commands, with the constants of R100 and R101. A wrong DIN length is reported before an
operand that is not below the modulus, and no status changes the engine. -/
def Obligations.ModCheckRule : Prop :=
  pSM2 = 0xFFFFFFFEFFFFFFFFFFFFFFFFFFFFFFFFFFFFFFFF00000000FFFFFFFFFFFFFFFF ∧
  nSM2 = 0xFFFFFFFEFFFFFFFFFFFFFFFFFFFFFFFF7203DF6B21C6052B53BBF40939D54123 ∧
  (∀ (i : Instr) (m k : Nat), (i, m, k) ∈ modularCommands → ModCheck i m k) ∧
  ∀ (i : Instr) (m k : Nat) (s t : State), (i, m, k) ∈ modularCommands → exec i s = .next t → t.engine = s.engine

/-- R105, R110: FP_ADD and FN_ADD. -/
def Obligations.ModAddResult : Prop :=
  FormatS 0x40 .fpAdd ∧ FormatS 0x48 .fnAdd ∧
  ModCheck .fpAdd pSM2 64 ∧ ModCheck .fnAdd nSM2 64 ∧
  (∀ (s : State) (a b : Nat), a < pSM2 → b < pSM2 → s.din = toBE 32 a ++ toBE 32 b →
    exec .fpAdd s = .next (s.complete ⟨s.engine, .ok, toBE 32 ((a + b) % pSM2)⟩)) ∧
  ∀ (s : State) (a b : Nat), a < nSM2 → b < nSM2 → s.din = toBE 32 a ++ toBE 32 b →
    exec .fnAdd s = .next (s.complete ⟨s.engine, .ok, toBE 32 ((a + b) % nSM2)⟩)

/-- R106, R111: FP_SUB and FN_SUB, the residue in [0, m) of the exact difference. -/
def Obligations.ModSubResult : Prop :=
  FormatS 0x41 .fpSub ∧ FormatS 0x49 .fnSub ∧
  ModCheck .fpSub pSM2 64 ∧ ModCheck .fnSub nSM2 64 ∧
  (∀ (s : State) (a b : Nat), a < pSM2 → b < pSM2 → s.din = toBE 32 a ++ toBE 32 b →
    exec .fpSub s = .next (s.complete ⟨s.engine, .ok, toBE 32 (if b ≤ a then a - b else a + pSM2 - b)⟩)) ∧
  ∀ (s : State) (a b : Nat), a < nSM2 → b < nSM2 → s.din = toBE 32 a ++ toBE 32 b →
    exec .fnSub s = .next (s.complete ⟨s.engine, .ok, toBE 32 (if b ≤ a then a - b else a + nSM2 - b)⟩)

/-- R107, R112: FP_MUL and FN_MUL. -/
def Obligations.ModMulResult : Prop :=
  FormatS 0x42 .fpMul ∧ FormatS 0x4A .fnMul ∧
  ModCheck .fpMul pSM2 64 ∧ ModCheck .fnMul nSM2 64 ∧
  (∀ (s : State) (a b : Nat), a < pSM2 → b < pSM2 → s.din = toBE 32 a ++ toBE 32 b →
    exec .fpMul s = .next (s.complete ⟨s.engine, .ok, toBE 32 ((a * b) % pSM2)⟩)) ∧
  ∀ (s : State) (a b : Nat), a < nSM2 → b < nSM2 → s.din = toBE 32 a ++ toBE 32 b →
    exec .fnMul s = .next (s.complete ⟨s.engine, .ok, toBE 32 ((a * b) % nSM2)⟩)

/-- R108, R113: FP_SQR and FN_SQR. -/
def Obligations.ModSqrResult : Prop :=
  FormatS 0x43 .fpSqr ∧ FormatS 0x4B .fnSqr ∧
  ModCheck .fpSqr pSM2 32 ∧ ModCheck .fnSqr nSM2 32 ∧
  (∀ (s : State) (a : Nat), a < pSM2 → s.din = toBE 32 a →
    exec .fpSqr s = .next (s.complete ⟨s.engine, .ok, toBE 32 (a ^ 2 % pSM2)⟩)) ∧
  ∀ (s : State) (a : Nat), a < nSM2 → s.din = toBE 32 a →
    exec .fnSqr s = .next (s.complete ⟨s.engine, .ok, toBE 32 (a ^ 2 % nSM2)⟩)

/-- R109, R114: FP_INV and FN_INV answer, for every nonzero operand below the modulus, the unique x in [1, m) with
(a · x) mod m = 1, which is a^(m−2) mod m; the inverse of 0 raises InvalidOperand. -/
def Obligations.ModInvResult : Prop :=
  FormatS 0x44 .fpInv ∧ FormatS 0x4C .fnInv ∧
  ModCheck .fpInv pSM2 32 ∧ ModCheck .fnInv nSM2 32 ∧
  ∀ (i : Instr) (m : Nat), (i, m) ∈ [(Instr.fpInv, pSM2), (.fnInv, nSM2)] →
    (∀ s : State, s.din = toBE 32 0 → exec i s = .next (s.complete ⟨s.engine, .invalidOperand, []⟩)) ∧
    ∀ (s : State) (a : Nat), 0 < a → a < m → s.din = toBE 32 a →
      ∃ x, 1 ≤ x ∧ x < m ∧ a * x % m = 1 ∧ (∀ y < m, a * y % m = 1 → y = x) ∧ a ^ (m - 2) % m = x ∧
        exec i s = .next (s.complete ⟨s.engine, .ok, toBE 32 x⟩)

/-- R115: the arithmetic laws of the unit, for both moduli: results are canonical, addition and multiplication are
commutative and associative, subtraction is adding the negative, and a nonzero element times its inverse is 1. -/
def Obligations.ModularLaws : Prop :=
  ∀ m a b c : Nat, m ∈ [pSM2, nSM2] → a < m → b < m → c < m →
    (modAdd m a b < m ∧ modSub m a b < m ∧ modMul m a b < m ∧ modInv m a < m) ∧
    (modAdd m a b = modAdd m b a ∧ modAdd m (modAdd m a b) c = modAdd m a (modAdd m b c)) ∧
    (modMul m a b = modMul m b a ∧ modMul m (modMul m a b) c = modMul m a (modMul m b c)) ∧
    modSub m a b = modAdd m a (modSub m 0 b) ∧
    (a ≠ 0 → modMul m a (modInv m a) = 1)

/-! ## SM3 -/

/-- R144: SM3_INIT, in either phase. -/
def Obligations.Sm3InitRule : Prop :=
  FormatS 0x10 .sm3Init ∧
  (∀ s : State, s.din ≠ [] → exec .sm3Init s = .next (s.complete ⟨s.engine, .invalidInputLength, []⟩)) ∧
  ∀ s : State, s.din = [] → exec .sm3Init s = .next (s.complete
    ⟨{ s.engine with sm3 := ⟨.active, ⟨0x7380166F, 0x4914B2B9, 0x172442D7, 0xDA8A0600, 0xA96F30BC, 0x163138AA,
        0xE38DEE4D, 0xB0FB0E4E⟩, Vector.replicate 64 0, 0, 0⟩ }, .ok, []⟩)

/-- R145: SM3_UPDATE, said by blocks: the valid bytes of buf followed by DIN are compressed block by block, the rest is
kept, and only the SM3 context changes. -/
def Obligations.Sm3UpdateRule : Prop :=
  FormatS 0x11 .sm3Update ∧
  (∀ s : State, s.engine.sm3.phase = .idle →
    exec .sm3Update s = .next (s.complete ⟨s.engine, .sequenceError, []⟩)) ∧
  (∀ s : State, s.engine.sm3.phase = .active → 2 ^ 64 ≤ s.engine.sm3.bitlen.toNat + 8 * s.din.length →
    exec .sm3Update s = .next (s.complete ⟨s.engine, .invalidInputLength, []⟩)) ∧
  ∀ s : State, s.engine.sm3.phase = .active → s.engine.sm3.bitlen.toNat + 8 * s.din.length < 2 ^ 64 →
    ∃ (x : Sm3Ctx) (stream : Octets), stream = s.engine.sm3.buf.toList.take s.engine.sm3.nbuf.val ++ s.din ∧
      exec .sm3Update s = .next (s.complete ⟨{ s.engine with sm3 := x }, .ok, []⟩) ∧
      x.phase = .active ∧
      x.bitlen.toNat = s.engine.sm3.bitlen.toNat + 8 * s.din.length ∧
      x.V = (wholePieces 64 stream).foldl sm3CF s.engine.sm3.V ∧
      x.nbuf.val = stream.length % 64 ∧
      x.buf.toList.take x.nbuf.val = stream.drop (64 * (stream.length / 64)) ∧
      ((∀ j : Fin 64, s.engine.sm3.nbuf.val ≤ j.val → s.engine.sm3.buf[j.val] = 0) →
        ∀ j : Fin 64, x.nbuf.val ≤ j.val → x.buf[j.val] = 0)

/-- R146: SM3_FINAL pads the pending bytes with 80, the fewest zeros and the bit length, compresses them from V, returns
the digest and destroys the context. -/
def Obligations.Sm3FinalRule : Prop :=
  FormatS 0x12 .sm3Final ∧
  (∀ s : State, s.engine.sm3.phase = .idle →
    exec .sm3Final s = .next (s.complete ⟨s.engine, .sequenceError, []⟩)) ∧
  (∀ s : State, s.engine.sm3.phase = .active → s.din ≠ [] →
    exec .sm3Final s = .next (s.complete ⟨s.engine, .invalidInputLength, []⟩)) ∧
  ∀ (s : State) (k : Nat), s.engine.sm3.phase = .active → s.din = [] → k < 64 →
    (s.engine.sm3.nbuf.val + 1 + k) % 64 = 56 →
    exec .sm3Final s = .next (s.complete ⟨{ s.engine with sm3 := Sm3Ctx.idle }, .ok,
      ((wholePieces 64 (s.engine.sm3.buf.toList.take s.engine.sm3.nbuf.val ++ 0x80 :: List.replicate k 0 ++
        toBE 8 s.engine.sm3.bitlen.toNat)).foldl sm3CF s.engine.sm3.V).bytes⟩)

/-- R147 with R142: SM3_ONESHOT returns the Merkle–Damgård iteration of CF from IV over the padded message, and neither
reads nor writes the SM3 context. -/
def Obligations.Sm3OneshotRule : Prop :=
  FormatS 0x13 .sm3Oneshot ∧
  (∀ s : State, 2 ^ 64 ≤ 8 * s.din.length →
    exec .sm3Oneshot s = .next (s.complete ⟨s.engine, .invalidInputLength, []⟩)) ∧
  ∀ (s : State) (k : Nat), 8 * s.din.length < 2 ^ 64 → k < 64 → (s.din.length + 1 + k) % 64 = 56 →
    exec .sm3Oneshot s = .next (s.complete ⟨s.engine, .ok,
      ((wholePieces 64 (s.din ++ 0x80 :: List.replicate k 0 ++ toBE 8 (8 * s.din.length))).foldl sm3CF
        ⟨0x7380166F, 0x4914B2B9, 0x172442D7, 0xDA8A0600, 0xA96F30BC, 0x163138AA, 0xE38DEE4D, 0xB0FB0E4E⟩).bytes⟩)

/-- R148 with R139, R140: SM3_COMPRESS returns CF(V, B) for any V and any 64-byte B: the registers after rounds 0..63 of
R139's equations, XORed with V. -/
def Obligations.Sm3CompressRule : Prop :=
  FormatS 0x14 .sm3Compress ∧
  (∀ s : State, s.din.length ≠ 96 → exec .sm3Compress s = .next (s.complete ⟨s.engine, .invalidInputLength, []⟩)) ∧
  ∀ (s : State) (v : Chain) (b : Octets), b.length = 64 → s.din = v.bytes ++ b →
    ∃ r : Nat → Chain, r 0 = v ∧
      (∀ j < 64, ∀ ss1 tt2 : Word,
        ss1 = ((r j).a.rotateLeft 12 + (r j).e + (sm3T j).rotateLeft (j % 32)).rotateLeft 7 →
        tt2 = sm3GG j (r j).e (r j).f (r j).g + (r j).h + ss1 + (sm3W b).getD j 0 →
        (r (j + 1)).a = sm3FF j (r j).a (r j).b (r j).c + (r j).d + (ss1 ^^^ (r j).a.rotateLeft 12) +
          ((sm3W b).getD j 0 ^^^ (sm3W b).getD (j + 4) 0) ∧
        (r (j + 1)).b = (r j).a ∧ (r (j + 1)).c = (r j).b.rotateLeft 9 ∧ (r (j + 1)).d = (r j).c ∧
        (r (j + 1)).e = sm3P0 tt2 ∧ (r (j + 1)).f = (r j).e ∧ (r (j + 1)).g = (r j).f.rotateLeft 19 ∧
        (r (j + 1)).h = (r j).g) ∧
      exec .sm3Compress s = .next (s.complete ⟨s.engine, .ok, ((r 64).xor v).bytes⟩)

/-- R149 with R136-R138: SM3_EXPAND returns words W[0..67] and W′[0..63] that satisfy the expansion recurrence. -/
def Obligations.Sm3ExpandRule : Prop :=
  FormatS 0x15 .sm3Expand ∧
  (∀ s : State, s.din.length ≠ 64 → exec .sm3Expand s = .next (s.complete ⟨s.engine, .invalidInputLength, []⟩)) ∧
  ∀ s : State, s.din.length = 64 → ∃ w : Nat → Word,
    (∀ i < 16, w i = wordOfBytes ((s.din.drop (4 * i)).take 4)) ∧
    (∀ j, 16 ≤ j → j < 68 → w j = sm3P1 (w (j - 16) ^^^ w (j - 9) ^^^ (w (j - 3)).rotateLeft 15) ^^^
      (w (j - 13)).rotateLeft 7 ^^^ w (j - 6)) ∧
    exec .sm3Expand s = .next (s.complete ⟨s.engine, .ok,
      ((List.range 68).map fun j => bytesOfWord (w j)).flatten ++
        ((List.range 64).map fun j => bytesOfWord (w j ^^^ w (j + 4))).flatten⟩)

/-- R141: the shape of padding: the message, 80, the fewest zeros that make the length 56 modulo 64, and the 64-bit bit
count; len(M) + 9 rounded up to a multiple of 64. -/
def Obligations.Sm3PaddingShape : Prop :=
  ∀ m : Octets, ∃ k, sm3Pad m = m ++ 0x80 :: List.replicate k 0 ++ toBE 8 (8 * m.length) ∧
    (m.length + 1 + k) % 64 = 56 ∧ (∀ k', (m.length + 1 + k') % 64 = 56 → k ≤ k') ∧
    (sm3Pad m).length = 64 * ((m.length + 9 + 63) / 64)

/-- R143: streaming equivalence. For every partition of a message into parts, SM3_INIT, one SM3_UPDATE for each part and
SM3_FINAL give SM3(M), from any state of the engine, and so does SM3_ONESHOT(M). -/
def Obligations.Sm3StreamingEqualsOneshot : Prop :=
  ∀ (s : State) (parts : List Octets), allFit s.params parts → 8 * parts.flatten.length < 2 ^ 64 →
    Sys2Proof.core.run (parts.length + 2) (s.given (hashInputs parts)) =
      .next (s.answered { s.engine with sm3 := Sm3Ctx.idle }
        (List.replicate (parts.length + 1) ⟨.ok, []⟩ ++ [⟨.ok, sm3Hash parts.flatten⟩])) ∧
    exec .sm3Oneshot { s with din := parts.flatten } =
      .next (s.complete ⟨s.engine, .ok, sm3Hash parts.flatten⟩)

/-! ## SM4 -/

/-- R182 with R177: SM4_SETKEY loads round keys that satisfy the key recurrence, and ends any session; a wrong length raises
InvalidKey and keeps the old key. -/
def Obligations.Sm4SetKeyRule : Prop :=
  FormatS 0x20 .sm4SetKey ∧
  (∀ s : State, s.din.length ≠ 16 → exec .sm4SetKey s = .next (s.complete ⟨s.engine, .invalidKey, []⟩)) ∧
  ∀ s : State, s.din.length = 16 → ∃ (rk : Vector Word 32) (k : Nat → Word),
    (∀ i < 4, k i = wordOfBytes ((s.din.drop (4 * i)).take 4) ^^^
      [0xA3B1BAC6, 0x56AA3350, 0x677D9197, 0xB27022DC].getD i 0) ∧
    (∀ i < 32, k (i + 4) = k i ^^^ sm4T' (k (i + 1) ^^^ k (i + 2) ^^^ k (i + 3) ^^^ sm4CK i)) ∧
    (∀ i : Fin 32, rk[i.val] = k (i.val + 4)) ∧
    exec .sm4SetKey s = .next (s.complete ⟨⟨s.engine.sm3, ⟨true, rk⟩, Session.idle, Gcm.idle⟩, .ok, []⟩)

/-- R183, R184 with R178-R180: the block commands run the 32 rounds with the round keys in order, or reversed, and read the
block out in reversed word order. The key check comes before the length check; the engine does not change. -/
def Obligations.Sm4BlockRule : Prop :=
  FormatS 0x21 .sm4EncBlock ∧ FormatS 0x22 .sm4DecBlock ∧
  ∀ (i : Instr) (reversed : Bool), (i, reversed) ∈ [(Instr.sm4EncBlock, false), (.sm4DecBlock, true)] →
    (∀ s : State, s.engine.sm4.keyValid = false → exec i s = .next (s.complete ⟨s.engine, .sequenceError, []⟩)) ∧
    (∀ s : State, s.engine.sm4.keyValid = true → s.din.length ≠ 16 →
      exec i s = .next (s.complete ⟨s.engine, .invalidInputLength, []⟩)) ∧
    ∀ s : State, s.engine.sm4.keyValid = true → s.din.length = 16 → ∃ x : Nat → Word,
      (∀ j < 4, x j = wordOfBytes ((s.din.drop (4 * j)).take 4)) ∧
      (∀ j : Fin 32, x (j.val + 4) = x j.val ^^^ sm4T (x (j.val + 1) ^^^ x (j.val + 2) ^^^ x (j.val + 3) ^^^
        s.engine.sm4.rk.toList.getD (if reversed then 31 - j.val else j.val) 0)) ∧
      exec i s = .next (s.complete ⟨s.engine, .ok,
        bytesOfWord (x 35) ++ bytesOfWord (x 34) ++ bytesOfWord (x 33) ++ bytesOfWord (x 32)⟩)

/-- R181, at the command port: under any loaded round keys, decrypting the encryption of a block returns the block, and
encrypting its decryption does too. -/
def Obligations.Sm4DecryptInvertsEncrypt : Prop :=
  ∀ s : State, s.engine.sm4.keyValid = true → s.din.length = 16 →
    ∃ c d : Octets, c.length = 16 ∧ d.length = 16 ∧
      exec .sm4EncBlock s = .next (s.complete ⟨s.engine, .ok, c⟩) ∧
      exec .sm4DecBlock { s with din := c } = .next (s.complete ⟨s.engine, .ok, s.din⟩) ∧
      exec .sm4DecBlock s = .next (s.complete ⟨s.engine, .ok, d⟩) ∧
      exec .sm4EncBlock { s with din := d } = .next (s.complete ⟨s.engine, .ok, s.din⟩)

/-- R185: SM4_CLEARKEY zeroises the round keys and ends any session; the SM3 context is unaffected. -/
def Obligations.Sm4ClearKeyRule : Prop :=
  FormatS 0x23 .sm4ClearKey ∧
  (∀ s : State, s.din ≠ [] → exec .sm4ClearKey s = .next (s.complete ⟨s.engine, .invalidInputLength, []⟩)) ∧
  ∀ s : State, s.din = [] → exec .sm4ClearKey s =
    .next (s.complete ⟨⟨s.engine.sm3, ⟨false, Vector.replicate 32 0⟩, Session.idle, Gcm.idle⟩, .ok, []⟩)

/-- R170, R176: the S-box is a permutation of the bytes with its printed corners, and CK's corners are as printed. -/
def Obligations.Sm4ConstantTables : Prop :=
  Function.Bijective sm4Sbox ∧ sm4Sbox 0x00 = 0xD6 ∧ sm4Sbox 0xFF = 0x48 ∧
  sm4CK 0 = 0x00070E15 ∧ sm4CK 1 = 0x1C232A31 ∧ sm4CK 31 = 0x646B7279

/-! ## ECB, CBC and CTR -/

/-- R201's checks in order: no key raises SequenceError and changes nothing; an unsupported mode, a padding or tag length the
mode does not take, or an IV length it does not take raises InvalidParameter and ends any session. -/
def Obligations.ModeInitRejects : Prop :=
  (∀ (s : State) (mode tagLen : Nat) (dir : Dir) (pad : Pad), s.engine.sm4.keyValid = false →
    exec (.modeInit mode dir pad tagLen) s = .next (s.complete ⟨s.engine, .sequenceError, []⟩)) ∧
  ∀ (s : State) (mode tagLen : Nat) (dir : Dir) (pad : Pad), s.engine.sm4.keyValid = true →
    (4 ≤ mode ∨ (pad = .pkcs7 ∧ (mode = 2 ∨ mode = 3)) ∨ (mode ≠ 3 ∧ tagLen ≠ 0) ∨
      (mode = 3 ∧ tagLen ≠ 0 ∧ (tagLen < 12 ∨ 16 < tagLen)) ∨ (mode = 0 ∧ s.din ≠ []) ∨
      ((mode = 1 ∨ mode = 2) ∧ s.din.length ≠ 16) ∨ (mode = 3 ∧ (s.din = [] ∨ 2 ^ 61 ≤ s.din.length))) →
    exec (.modeInit mode dir pad tagLen) s = .next (s.complete
      ⟨⟨s.engine.sm3, s.engine.sm4, Session.idle, Gcm.idle⟩, .invalidParameter, []⟩)

/-- R202, R203, R204: MODE_INIT in ECB, CBC and CTR, from any earlier session; a wrong IV length raises InvalidParameter. -/
def Obligations.ModeInitEcbCbcCtr : Prop :=
  ∀ (s : State) (dir : Dir) (pad : Pad), s.engine.sm4.keyValid = true →
    (s.din ≠ [] → exec (.modeInit 0 dir pad 0) s =
      .next (s.complete ⟨s.engine.endSession, .invalidParameter, []⟩)) ∧
    (s.din = [] → exec (.modeInit 0 dir pad 0) s = .next (s.complete
      ⟨⟨s.engine.sm3, s.engine.sm4, ⟨.active, .ecb, dir, pad, 0, 0, [], 0, 0, 16⟩, Gcm.idle⟩, .ok, []⟩)) ∧
    (s.din.length ≠ 16 → exec (.modeInit 1 dir pad 0) s =
      .next (s.complete ⟨s.engine.endSession, .invalidParameter, []⟩)) ∧
    (s.din.length = 16 → exec (.modeInit 1 dir pad 0) s = .next (s.complete
      ⟨⟨s.engine.sm3, s.engine.sm4, ⟨.active, .cbc, dir, pad, 0, BitVec.ofNat 128 (beNat s.din), [], 0, 0, 16⟩,
        Gcm.idle⟩, .ok, []⟩)) ∧
    (s.din.length ≠ 16 → exec (.modeInit 2 dir .noPadding 0) s =
      .next (s.complete ⟨s.engine.endSession, .invalidParameter, []⟩)) ∧
    (s.din.length = 16 → exec (.modeInit 2 dir .noPadding 0) s = .next (s.complete
      ⟨⟨s.engine.sm3, s.engine.sm4, ⟨.active, .ctr, dir, .noPadding, 0, 0, [], BitVec.ofNat 128 (beNat s.din), 0, 16⟩,
        Gcm.idle⟩, .ok, []⟩))

/-- R206 with R205: MODE_UPDATE in ECB and CBC processes the whole blocks of pend ‖ DIN, PKCS7 decryption holding back the
last 1 to 16 bytes, and keeps the rest; only the chaining block and pend change. -/
def Obligations.ModeUpdateBlocksRule : Prop :=
  FormatS 0x32 .modeUpdate ∧
  (∀ s : State, s.engine.sess.phase = .idle →
    exec .modeUpdate s = .next (s.complete ⟨s.engine, .sequenceError, []⟩)) ∧
  ∀ (s : State) (buf : Octets) (n : Nat) (blocks : List Block), s.engine.sess.phase = .active →
    buf = s.engine.sess.pend ++ s.din → n % 16 = 0 →
    (if s.engine.sess.dir = .dec ∧ s.engine.sess.pad = .pkcs7 then
        (buf = [] ∧ n = 0) ∨ (n < buf.length ∧ buf.length ≤ n + 16)
      else n ≤ buf.length ∧ buf.length < n + 16) →
    blocks = blocksOf (buf.take n) →
    (s.engine.sess.mode = .ecb →
      exec .modeUpdate s = .next (s.complete
        ⟨{ s.engine with sess := { s.engine.sess with pend := buf.drop n } }, .ok,
          bytesOfBlocks (blocks.map (match s.engine.sess.dir with
            | .enc => sm4Encrypt s.engine.sm4.rk
            | .dec => sm4Decrypt s.engine.sm4.rk))⟩)) ∧
    (s.engine.sess.mode = .cbc → s.engine.sess.dir = .enc →
      exec .modeUpdate s = .next (s.complete
        ⟨{ s.engine with sess := { s.engine.sess with
            chain := (cbcEncBlocks s.engine.sm4.rk s.engine.sess.chain blocks).getLastD s.engine.sess.chain
            pend := buf.drop n } }, .ok,
          bytesOfBlocks (cbcEncBlocks s.engine.sm4.rk s.engine.sess.chain blocks)⟩)) ∧
    (s.engine.sess.mode = .cbc → s.engine.sess.dir = .dec →
      exec .modeUpdate s = .next (s.complete
        ⟨{ s.engine with sess := { s.engine.sess with
            chain := blocks.getLastD s.engine.sess.chain, pend := buf.drop n } }, .ok,
          bytesOfBlocks (List.zipWith (fun c prev => sm4Decrypt s.engine.sm4.rk c ^^^ prev) blocks
            (s.engine.sess.chain :: blocks))⟩))

/-- R208 with R207, R216: MODE_UPDATE in CTR XORs DIN with the keystream left over and the encryptions of the next counters
modulo 2^128, and keeps the unused keystream; DIR has no effect (R217). -/
def Obligations.ModeUpdateCtrRule : Prop :=
  FormatS 0x32 .modeUpdate ∧
  (∀ s : State, s.engine.sess.phase = .idle →
    exec .modeUpdate s = .next (s.complete ⟨s.engine, .sequenceError, []⟩)) ∧
  ∀ s : State, s.engine.sess.phase = .active → s.engine.sess.mode = .ctr → ∃ x : Session,
    CounterAdvanced s.engine.sm4.rk (fun c => c + 1) s.engine.sess x s.din.length ∧
    exec .modeUpdate s = .next (s.complete ⟨{ s.engine with sess := x }, .ok,
      xorBytes s.din (keystreamFor s.engine.sm4.rk (fun c => c + 1) s.engine.sess s.din.length)⟩)

/-- R209, R212: MODE_FINAL without padding, and in CTR: no output; a nonempty DIN, or a pending partial block without
padding, raises InvalidInputLength; the session ends in every case. An IDLE session raises SequenceError. -/
def Obligations.ModeFinalWithoutPadding : Prop :=
  FormatS 0x33 .modeFinal ∧
  (∀ s : State, s.engine.sess.phase = .idle → exec .modeFinal s = .next (s.complete ⟨s.engine, .sequenceError, []⟩)) ∧
  (∀ s : State, s.engine.sess.phase = .active → (s.engine.sess.mode = .ecb ∨ s.engine.sess.mode = .cbc) →
    s.engine.sess.pad = .noPadding → exec .modeFinal s = .next (s.complete
      ⟨⟨s.engine.sm3, s.engine.sm4, Session.idle, Gcm.idle⟩,
        if s.din = [] ∧ s.engine.sess.pend = [] then .ok else .invalidInputLength, []⟩)) ∧
  ∀ s : State, s.engine.sess.phase = .active → s.engine.sess.mode = .ctr → exec .modeFinal s = .next (s.complete
    ⟨⟨s.engine.sm3, s.engine.sm4, Session.idle, Gcm.idle⟩, if s.din = [] then .ok else .invalidInputLength, []⟩)

/-- R210: MODE_FINAL with PKCS7 encryption outputs exactly one block, the encryption of pend ‖ bytes_k(k) with
k = 16 − len(pend), in every state that keeps the invariant. -/
def Obligations.ModeFinalPkcs7Encrypt : Prop :=
  ∀ s : State, s.engine.sess.phase = .active → (s.engine.sess.mode = .ecb ∨ s.engine.sess.mode = .cbc) →
    s.engine.sess.pad = .pkcs7 → s.engine.sess.dir = .enc →
    (s.din ≠ [] → exec .modeFinal s = .next (s.complete
      ⟨⟨s.engine.sm3, s.engine.sm4, Session.idle, Gcm.idle⟩, .invalidInputLength, []⟩)) ∧
    (s.din = [] → s.Inv → ∀ k p : Nat, k = 16 - s.engine.sess.pend.length →
      p = beNat (s.engine.sess.pend ++ List.replicate k (BitVec.ofNat 8 k)) →
      exec .modeFinal s = .next (s.complete ⟨⟨s.engine.sm3, s.engine.sm4, Session.idle, Gcm.idle⟩, .ok,
        bytesOfBlock (sm4Encrypt s.engine.sm4.rk
          (if s.engine.sess.mode = .cbc then BitVec.ofNat 128 p ^^^ s.engine.sess.chain else BitVec.ofNat 128 p))⟩))

/-- R211: MODE_FINAL with PKCS7 decryption: exactly one held-back block is needed; its padding is checked byte by byte; the
block is released without its padding, or BadPadding releases nothing. -/
def Obligations.ModeFinalPkcs7Decrypt : Prop :=
  ∀ s : State, s.engine.sess.phase = .active → (s.engine.sess.mode = .ecb ∨ s.engine.sess.mode = .cbc) →
    s.engine.sess.pad = .pkcs7 → s.engine.sess.dir = .dec →
    ((s.din ≠ [] ∨ s.engine.sess.pend.length ≠ 16) → exec .modeFinal s = .next (s.complete
      ⟨⟨s.engine.sm3, s.engine.sm4, Session.idle, Gcm.idle⟩, .invalidInputLength, []⟩)) ∧
    (s.din = [] → s.engine.sess.pend.length = 16 → ∀ (y : Block) (p : Octets) (k : Nat),
      y = sm4Decrypt s.engine.sm4.rk (BitVec.ofNat 128 (beNat s.engine.sess.pend)) →
      p = bytesOfBlock (if s.engine.sess.mode = .cbc then y ^^^ s.engine.sess.chain else y) →
      k = (p.getD 15 0).toNat →
      ((1 ≤ k ∧ k ≤ 16 ∧ ∀ j, 16 - k ≤ j → j < 16 → (p.getD j 0).toNat = k) →
        exec .modeFinal s = .next (s.complete
          ⟨⟨s.engine.sm3, s.engine.sm4, Session.idle, Gcm.idle⟩, .ok, p.take (16 - k)⟩)) ∧
      (¬(1 ≤ k ∧ k ≤ 16 ∧ ∀ j, 16 - k ≤ j → j < 16 → (p.getD j 0).toNat = k) →
        exec .modeFinal s = .next (s.complete
          ⟨⟨s.engine.sm3, s.engine.sm4, Session.idle, Gcm.idle⟩, .badPadding, []⟩)))

/-- R213: MODE_ABORT, in any phase. -/
def Obligations.ModeAbortRule : Prop :=
  FormatS 0x34 .modeAbort ∧
  (∀ s : State, s.din ≠ [] → exec .modeAbort s = .next (s.complete ⟨s.engine, .invalidInputLength, []⟩)) ∧
  ∀ s : State, s.din = [] → exec .modeAbort s =
    .next (s.complete ⟨⟨s.engine.sm3, s.engine.sm4, Session.idle, Gcm.idle⟩, .ok, []⟩)

/-- R218: for every chunking of an admissible plaintext, an ECB, CBC or CTR encryption session answers OK throughout, and
the outputs of its commands together are the one-shot ciphertext. -/
def Obligations.SessionEncryptsOneShot : Prop :=
  ∀ (s : State) (n : Nat) (mode : Mode) (pad : Pad) (iv : Octets) (parts : List Octets),
    Mode.ofField n = some mode → mode ≠ .gcm → padAllowed mode pad = true → ivLengthAllowed mode iv.length = true →
    s.engine.sm4.keyValid = true → allFit s.params parts → admissible mode pad parts.flatten →
    ∃ rs : List Response, allOk rs ∧ outputs rs = oneShotCipher s.engine.sm4.rk mode pad iv parts.flatten ∧
      Sys2Proof.core.run (parts.length + 2)
          (s.given (sessionInputs (encode (.modeInit n .enc pad 0)) iv [] parts [])) =
        .next (s.answered s.engine.endSession rs)

/-- R219: round trip. However the ciphertext of an admissible plaintext is split, an ECB, CBC or CTR decryption session with
the same key and IV answers OK throughout and outputs the plaintext. -/
def Obligations.SessionDecryptsItsEncryption : Prop :=
  ∀ (s : State) (n : Nat) (mode : Mode) (pad : Pad) (iv m : Octets) (parts : List Octets),
    Mode.ofField n = some mode → mode ≠ .gcm → padAllowed mode pad = true → ivLengthAllowed mode iv.length = true →
    s.engine.sm4.keyValid = true → allFit s.params parts → admissible mode pad m →
    parts.flatten = oneShotCipher s.engine.sm4.rk mode pad iv m →
    ∃ rs : List Response, allOk rs ∧ outputs rs = m ∧
      Sys2Proof.core.run (parts.length + 2)
          (s.given (sessionInputs (encode (.modeInit n .dec pad 0)) iv [] parts [])) =
        .next (s.answered s.engine.endSession rs)

/-- R220: pad makes whole blocks, unpad takes exactly what pad put there, and every other string of whole blocks is
BadPadding. -/
def Obligations.Pkcs7PadUnpad : Prop :=
  (∀ m : Octets, (pkcs7Pad m).length % 16 = 0 ∧ m.length < (pkcs7Pad m).length ∧ pkcs7Unpad (pkcs7Pad m) = some m) ∧
  ∀ q m : Octets, q ≠ [] → q.length % 16 = 0 → (pkcs7Unpad q = some m ↔ q = pkcs7Pad m)

/-! ## GCM -/

/-- R246 with R243-R245: MODE_INIT in GCM, for the default tag length and for 12..16, with any IV of 1 to 2^61 − 1 bytes; padding,
another tag length and another IV length raise InvalidParameter and end any session. -/
def Obligations.GcmInitRule : Prop :=
  (∀ (s : State) (dir : Dir) (pad : Pad) (tagLen : Nat), s.engine.sm4.keyValid = false →
    exec (.modeInit 3 dir pad tagLen) s = .next (s.complete ⟨s.engine, .sequenceError, []⟩)) ∧
  (∀ (s : State) (dir : Dir) (pad : Pad) (tagLen : Nat), s.engine.sm4.keyValid = true →
    (pad = .pkcs7 ∨ (tagLen ≠ 0 ∧ (tagLen < 12 ∨ 16 < tagLen)) ∨ s.din = [] ∨ 2 ^ 61 ≤ s.din.length) →
    exec (.modeInit 3 dir pad tagLen) s = .next (s.complete
      ⟨⟨s.engine.sm3, s.engine.sm4, Session.idle, Gcm.idle⟩, .invalidParameter, []⟩)) ∧
  ∀ (s : State) (dir : Dir) (tagLen : Nat), s.engine.sm4.keyValid = true →
    (tagLen = 0 ∨ (12 ≤ tagLen ∧ tagLen ≤ 16)) → 1 ≤ s.din.length → s.din.length < 2 ^ 61 →
    ∃ (h j0 ctr : Block) (t : Fin 17), h = sm4Encrypt s.engine.sm4.rk 0 ∧
      (s.din.length = 12 → j0 = BitVec.ofNat 128 (beNat (s.din ++ [0, 0, 0, 1]))) ∧
      (s.din.length ≠ 12 → j0 = ghash h (zpad s.din ++ List.replicate 8 0 ++ toBE 8 (8 * s.din.length))) ∧
      ctr.toNat = j0.toNat - j0.toNat % 2 ^ 32 + (j0.toNat % 2 ^ 32 + 1) % 2 ^ 32 ∧
      t.val = (if tagLen = 0 then 16 else tagLen) ∧
      exec (.modeInit 3 dir .noPadding tagLen) s = .next (s.complete
        ⟨⟨s.engine.sm3, s.engine.sm4, ⟨.active, .gcm, dir, .noPadding, t, 0, [], ctr, 0, 16⟩,
          ⟨h, j0, 0, [], 0, 0, false, []⟩⟩, .ok, []⟩)

/-- R247, R214 with R248: MODE_AAD. Outside the AAD phase of a GCM session it raises SequenceError and changes nothing; the
limit ends the session; else the whole blocks of gpend ‖ DIN go into X and the rest is kept. -/
def Obligations.ModeAadRule : Prop :=
  FormatS 0x31 .modeAad ∧
  (∀ s : State, (s.engine.sess.phase = .idle ∨ s.engine.sess.mode ≠ .gcm ∨ s.engine.gcm.started = true) →
    exec .modeAad s = .next (s.complete ⟨s.engine, .sequenceError, []⟩)) ∧
  (∀ s : State, s.engine.sess.phase = .active → s.engine.sess.mode = .gcm → s.engine.gcm.started = false →
    2 ^ 61 ≤ s.engine.gcm.alen.toNat + s.din.length → exec .modeAad s = .next (s.complete
      ⟨⟨s.engine.sm3, s.engine.sm4, Session.idle, Gcm.idle⟩, .invalidInputLength, []⟩)) ∧
  ∀ s : State, s.engine.sess.phase = .active → s.engine.sess.mode = .gcm → s.engine.gcm.started = false →
    s.engine.gcm.alen.toNat + s.din.length < 2 ^ 61 →
    ∃ (blocks : List Block) (rest : Octets) (alen : BitVec 64), SplitsAs (s.engine.gcm.gpend ++ s.din) blocks rest ∧
      alen.toNat = s.engine.gcm.alen.toNat + s.din.length ∧
      exec .modeAad s = .next (s.complete ⟨{ s.engine with gcm := { s.engine.gcm with
        alen := alen
        gpend := rest
        X := blocks.foldl (fun x b => gfMul (x ^^^ b) s.engine.gcm.H) s.engine.gcm.X } }, .ok, []⟩)

/-- R249 with R207, R248: MODE_UPDATE in GCM encryption. The data limit ends the session; else DIN is XORed with the inc32
keystream, the AAD's partial block is flushed before the first data, the ciphertext goes into GHASH, and it is released
at once. -/
def Obligations.GcmUpdateEncrypt : Prop :=
  FormatS 0x32 .modeUpdate ∧
  (∀ s : State, s.engine.sess.phase = .idle →
    exec .modeUpdate s = .next (s.complete ⟨s.engine, .sequenceError, []⟩)) ∧
  (∀ s : State, s.engine.sess.phase = .active → s.engine.sess.mode = .gcm → s.engine.sess.dir = .enc →
    2 ^ 36 - 32 < s.engine.gcm.clen.toNat + s.din.length → exec .modeUpdate s = .next (s.complete
      ⟨⟨s.engine.sm3, s.engine.sm4, Session.idle, Gcm.idle⟩, .invalidInputLength, []⟩)) ∧
  ∀ s : State, s.engine.sess.phase = .active → s.engine.sess.mode = .gcm → s.engine.sess.dir = .enc →
    s.engine.gcm.clen.toNat + s.din.length ≤ 2 ^ 36 - 32 → s.engine.gcm.gpend.length < 16 →
    ∃ (x : Session) (c rest : Octets) (blocks : List Block) (clen : BitVec 64),
      CounterAdvanced s.engine.sm4.rk inc32 s.engine.sess x s.din.length ∧
      c = xorBytes s.din (keystreamFor s.engine.sm4.rk inc32 s.engine.sess s.din.length) ∧
      SplitsAs ((if s.engine.gcm.started then s.engine.gcm.gpend else []) ++ c) blocks rest ∧
      clen.toNat = s.engine.gcm.clen.toNat + s.din.length ∧
      exec .modeUpdate s = .next (s.complete ⟨{ s.engine with
        sess := x
        gcm := { s.engine.gcm with
          clen := clen
          started := true
          gpend := rest
          X := ((if s.engine.gcm.started then [] else flushBlocks s.engine.gcm.gpend) ++ blocks).foldl
            (fun z b => gfMul (z ^^^ b) s.engine.gcm.H) s.engine.gcm.X } }, .ok, c⟩)

/-- R250 with R207, R248: MODE_UPDATE in GCM decryption. The data limit and the withholding capacity end the session; else
the ciphertext goes into GHASH, the plaintext is appended to dbuf, and nothing is released. -/
def Obligations.GcmUpdateDecrypt : Prop :=
  FormatS 0x32 .modeUpdate ∧
  (∀ s : State, s.engine.sess.phase = .idle →
    exec .modeUpdate s = .next (s.complete ⟨s.engine, .sequenceError, []⟩)) ∧
  (∀ s : State, s.engine.sess.phase = .active → s.engine.sess.mode = .gcm → s.engine.sess.dir = .dec →
    (2 ^ 36 - 32 < s.engine.gcm.clen.toNat + s.din.length ∨
      s.params.gcmDecBufBytes < s.engine.gcm.dbuf.length + s.din.length) → exec .modeUpdate s = .next (s.complete
      ⟨⟨s.engine.sm3, s.engine.sm4, Session.idle, Gcm.idle⟩, .invalidInputLength, []⟩)) ∧
  ∀ s : State, s.engine.sess.phase = .active → s.engine.sess.mode = .gcm → s.engine.sess.dir = .dec →
    s.engine.gcm.clen.toNat + s.din.length ≤ 2 ^ 36 - 32 →
    s.engine.gcm.dbuf.length + s.din.length ≤ s.params.gcmDecBufBytes → s.engine.gcm.gpend.length < 16 →
    ∃ (x : Session) (rest : Octets) (blocks : List Block) (clen : BitVec 64),
      CounterAdvanced s.engine.sm4.rk inc32 s.engine.sess x s.din.length ∧
      SplitsAs ((if s.engine.gcm.started then s.engine.gcm.gpend else []) ++ s.din) blocks rest ∧
      clen.toNat = s.engine.gcm.clen.toNat + s.din.length ∧
      exec .modeUpdate s = .next (s.complete ⟨{ s.engine with
        sess := x
        gcm := { s.engine.gcm with
          clen := clen
          started := true
          gpend := rest
          X := ((if s.engine.gcm.started then [] else flushBlocks s.engine.gcm.gpend) ++ blocks).foldl
            (fun z b => gfMul (z ^^^ b) s.engine.gcm.H) s.engine.gcm.X
          dbuf := s.engine.gcm.dbuf ++
            xorBytes s.din (keystreamFor s.engine.sm4.rk inc32 s.engine.sess s.din.length) } }, .ok, []⟩)

/-- R252, R253 with R251, R254, R255: MODE_FINAL in GCM. The tag is the first t bytes of E(J0) ⊕ S, S closing GHASH with the
partial block and the length block in bits. Encryption outputs it; decryption compares DIN with it, a wrong length being
a mismatch, and releases the withheld plaintext or nothing. The session ends in every case. -/
def Obligations.GcmFinalRule : Prop :=
  FormatS 0x33 .modeFinal ∧
  (∀ s : State, s.engine.sess.phase = .idle →
    exec .modeFinal s = .next (s.complete ⟨s.engine, .sequenceError, []⟩)) ∧
  (∀ s : State, s.engine.sess.phase = .active → s.engine.sess.mode = .gcm → s.engine.sess.dir = .enc → s.din ≠ [] →
    exec .modeFinal s = .next (s.complete
      ⟨⟨s.engine.sm3, s.engine.sm4, Session.idle, Gcm.idle⟩, .invalidInputLength, []⟩)) ∧
  ∀ (s : State) (blocks : List Block) (ghashed : Block) (tag : Octets), s.engine.sess.phase = .active →
    s.engine.sess.mode = .gcm → s.engine.gcm.gpend.length < 16 →
    blocks = flushBlocks s.engine.gcm.gpend ++ [BitVec.ofNat 128
      (beNat (toBE 8 (8 * s.engine.gcm.alen.toNat) ++ toBE 8 (8 * s.engine.gcm.clen.toNat)))] →
    ghashed = blocks.foldl (fun x b => gfMul (x ^^^ b) s.engine.gcm.H) s.engine.gcm.X →
    tag = (bytesOfBlock (sm4Encrypt s.engine.sm4.rk s.engine.gcm.J0 ^^^ ghashed)).take s.engine.sess.t.val →
    (s.engine.sess.dir = .enc → s.din = [] → exec .modeFinal s = .next (s.complete
      ⟨⟨s.engine.sm3, s.engine.sm4, Session.idle, Gcm.idle⟩, .ok, tag⟩)) ∧
    (s.engine.sess.dir = .dec → s.din = tag → exec .modeFinal s = .next (s.complete
      ⟨⟨s.engine.sm3, s.engine.sm4, Session.idle, Gcm.idle⟩, .ok, s.engine.gcm.dbuf⟩)) ∧
    (s.engine.sess.dir = .dec → s.din ≠ tag → exec .modeFinal s = .next (s.complete
      ⟨⟨s.engine.sm3, s.engine.sm4, Session.idle, Gcm.idle⟩, .authenticationFailed, []⟩))

/-- R256, encryption: however AAD and plaintext are split, a GCM encryption session answers OK throughout and outputs C and
then the tag T of the one-shot meaning. -/
def Obligations.GcmSessionSeals : Prop :=
  ∀ (s : State) (tagLen : Nat) (iv : Octets) (aad parts : List Octets), s.engine.sm4.keyValid = true →
    (tagLen = 0 ∨ (12 ≤ tagLen ∧ tagLen ≤ 16)) → ivLengthAllowed .gcm iv.length = true → s.params.dinFits iv.length = true →
    allFit s.params aad → allFit s.params parts → aad.flatten.length < 2 ^ 61 →
    admissible .gcm .noPadding parts.flatten →
    ∃ (rs : List Response) (c tag : Octets), c = oneShotCipher s.engine.sm4.rk .gcm .noPadding iv parts.flatten ∧
      tag = oneShotTag s.engine.sm4.rk iv aad.flatten c (if tagLen = 0 then 16 else tagLen) ∧
      allOk rs ∧ outputs rs = c ∧
      Sys2Proof.core.run (aad.length + parts.length + 2)
          (s.given (sessionInputs (encode (.modeInit 3 .enc .noPadding tagLen)) iv aad parts [])) =
        .next (s.answered s.engine.endSession (rs ++ [⟨.ok, tag⟩]))

/-- R256, decryption: however AAD and ciphertext are split, a GCM decryption session outputs nothing before MODE_FINAL; then
it outputs P for the tag T, and AuthenticationFailed with no output for any other DIN. -/
def Obligations.GcmSessionOpens : Prop :=
  ∀ (s : State) (tagLen : Nat) (iv p final : Octets) (aad parts : List Octets), s.engine.sm4.keyValid = true →
    (tagLen = 0 ∨ (12 ≤ tagLen ∧ tagLen ≤ 16)) → ivLengthAllowed .gcm iv.length = true → s.params.dinFits iv.length = true →
    s.params.dinFits final.length = true → allFit s.params aad → allFit s.params parts → aad.flatten.length < 2 ^ 61 →
    admissible .gcm .noPadding p → p.length ≤ s.params.gcmDecBufBytes →
    parts.flatten = oneShotCipher s.engine.sm4.rk .gcm .noPadding iv p →
    Sys2Proof.core.run (aad.length + parts.length + 2)
        (s.given (sessionInputs (encode (.modeInit 3 .dec .noPadding tagLen)) iv aad parts final)) =
      .next (s.answered s.engine.endSession (List.replicate (aad.length + parts.length + 1) ⟨.ok, []⟩ ++
        [if final = oneShotTag s.engine.sm4.rk iv aad.flatten parts.flatten (if tagLen = 0 then 16 else tagLen)
          then ⟨.ok, p⟩ else ⟨.authenticationFailed, []⟩]))

/-- R241: the ring laws of GFMul: it is commutative and associative, 0 is absorbing, the identity is 80…0, and it
distributes over ⊕. -/
def Obligations.GfMulLaws : Prop :=
  (∀ x y : Block, gfMul x y = gfMul y x) ∧
  (∀ x y z : Block, gfMul (gfMul x y) z = gfMul x (gfMul y z)) ∧
  (∀ x y z : Block, gfMul x (y ^^^ z) = gfMul x y ^^^ gfMul x z) ∧
  (∀ x : Block, gfMul 0 x = 0) ∧
  ∀ x : Block, gfMul 0x80000000000000000000000000000000 x = x

/-! ## The whole machine -/

/-- The invariant of the unit contexts holds at reset (R27, R28, R46). -/
def Obligations.ResetKeepsInvariant : Prop := State.reset.Inv

/-- Every step from a state that keeps the invariant of the unit contexts gives a state that keeps it (R25-R38, R46, R257),
whatever the input. -/
def Obligations.StepKeepsInvariant : Prop := ∀ s t : State, s.Inv → step s = .next t → t.Inv

/-- Every command is answered, in every state and on every DIN, by exactly one response, and no error is a model fault
(R57, R281). That it changes nothing of the port but its emptied DIN and that one response is the model's choice of how to
hold the port (log entry 1, DESIGN CHOICE), and that a step with no input pending has a next state is the model's choice
too (log entry 6, DESIGN CHOICE). -/
def Obligations.EveryCommandAnswersOnce : Prop :=
  (∀ (i : Instr) (s : State), ∃ (e : Engine) (st : Status) (out : Octets), exec i s =
    .next { s with engine := e, din := [], responses := ⟨st, out⟩ :: s.responses }) ∧
  ∀ s : State, ∃ t, step s = .next t

/-- R282, R283, R215: on a status other than OK, DOUT is ε, and the state is unchanged, but for the session that a failing
mode command ends; the key and the SM3 context never change. -/
def Obligations.ErrorsLeaveState : Prop :=
  ∀ (s t : State) (c : Command) (rest : List Input) (st : Status) (out : Octets) (older : List Response),
    s.pending = .command c :: rest → step s = .next t → t.responses = ⟨st, out⟩ :: older → st ≠ .ok →
    out = [] ∧ older = s.responses ∧
      ((∀ i, decode c.cmd = .command i → s.params.dinFits c.din.length = true → errorEndsSession i st = false) →
        t.engine = s.engine) ∧
      ∀ i, decode c.cmd = .command i → s.params.dinFits c.din.length = true → errorEndsSession i st = true →
        t.engine = ⟨s.engine.sm3, s.engine.sm4, Session.idle, Gcm.idle⟩

/-- R296, R293: a command returns only the statuses its row lists, and never a reserved one. -/
def Obligations.StatusesPerCommand : Prop :=
  ∀ (i : Instr) (s : State) (st : Status), statusOf i s = some st →
    st ∈ statusesOf s.engine i ∧ st.reserved = false

/-- R313 with R39: the frames of the units. The commands that hold no state leave the engine as it was; SM3_INIT, SM3_UPDATE
and SM3_FINAL change only the SM3 context; a key command never changes the SM3 context; a mode command changes
neither the SM3 context nor the key unit. That no command changes the inputs still to come or the parameters is the
model's choice of how to hold them (log entries 1 and 2, DESIGN CHOICE), which neither rule says. -/
def Obligations.UnitFrames : Prop :=
  ∀ (i : Instr) (s t : State), exec i s = .next t →
    t.params = s.params ∧ t.pending = s.pending ∧
    (i ∈ statelessCommands → t.engine = s.engine) ∧
    (i ∈ [Instr.sm3Init, .sm3Update, .sm3Final] →
      t.engine.sm4 = s.engine.sm4 ∧ t.engine.sess = s.engine.sess ∧ t.engine.gcm = s.engine.gcm) ∧
    (i ∈ [Instr.sm4SetKey, .sm4ClearKey] → t.engine.sm3 = s.engine.sm3) ∧
    ((i ∈ [Instr.modeAad, .modeUpdate, .modeFinal, .modeAbort] ∨ ∃ m d p n, i = .modeInit m d p n) →
      t.engine.sm3 = s.engine.sm3 ∧ t.engine.sm4 = s.engine.sm4) ∧
    (i = .modeAad → s.engine.sess.phase = .active → t.engine.sess.phase = .active → t.engine.sess = s.engine.sess)

/-- R42: GET_STATE shows the public summary only: two engines that agree on the phases, key_valid, sess.cfg, gcm.started and
sm3.nbuf get the same response, whatever key, data, chaining or hash values they hold. -/
def Obligations.GetStateHidesSecrets : Prop :=
  ∀ s s' t t' : State, s.engine.sm3.phase = s'.engine.sm3.phase → s.engine.sm3.nbuf = s'.engine.sm3.nbuf →
    s.engine.sm4.keyValid = s'.engine.sm4.keyValid → s.engine.sess.phase = s'.engine.sess.phase →
    s.engine.sess.mode = s'.engine.sess.mode → s.engine.sess.dir = s'.engine.sess.dir →
    s.engine.sess.pad = s'.engine.sess.pad → s.engine.sess.t = s'.engine.sess.t →
    s.engine.gcm.started = s'.engine.gcm.started → s.din = s'.din →
    exec .getState s = .next t → exec .getState s' = .next t' → t.responses.head? = t'.responses.head?

/-- R61: "update(a) followed by update(b) is equivalent to update(a ‖ b)": where one update with a ‖ b answers OK, two
updates with a and then b answer OK, leave the same engine, and output the same bytes together. -/
def Obligations.UpdatesConcatenate : Prop :=
  ∀ (i : Instr) (s : State) (a b : Octets) (e : Engine) (out : Octets), i ∈ [Instr.sm3Update, .modeUpdate] →
    exec i { s with din := a ++ b } = .next (s.complete ⟨e, .ok, out⟩) →
    ∃ (e₁ : Engine) (out₁ out₂ : Octets), out = out₁ ++ out₂ ∧
      exec i { s with din := a } = .next (s.complete ⟨e₁, .ok, out₁⟩) ∧
      ∀ s₁ : State, s₁ = s.complete ⟨e₁, .ok, out₁⟩ →
        exec i { s₁ with din := b } = .next (s₁.complete ⟨e, .ok, out₂⟩)

/-- R44, R62, R292: an instance's state is private to it. Whatever the order in which the instances of a platform take their
inputs, each ends where its own steps alone take it, and no instance is created or lost. -/
def Obligations.InstancesAreIndependent : Prop :=
  ∀ (p : Platform) (schedule : List Nat), ∃ q : Platform, p.run schedule = .next q ∧
    q.engines.length = p.engines.length ∧
    ∀ (k : Nat) (s : State), p.engines[k]? = some s →
      ∃ t, Sys2Proof.core.run (schedule.count k) s = .next t ∧ q.engines[k]? = some t
end

