-- ==== Sys2Proof/Laws/State.lean ====
section
/-! SUPPORT. One lemma per field per update of the machine's records, so that no later proof unfolds an update. -/
namespace Sys2Proof.Machine

section Complete
variable (s : State) (r : Reply)

@[simp] theorem State.complete_engine : (s.complete r).engine = r.engine := rfl
@[simp] theorem State.complete_params : (s.complete r).params = s.params := rfl
@[simp] theorem State.complete_pending : (s.complete r).pending = s.pending := rfl
@[simp] theorem State.complete_din : (s.complete r).din = [] := rfl
@[simp] theorem State.complete_responses : (s.complete r).responses = ⟨r.status, r.dout⟩ :: s.responses := rfl

end Complete

section Begin
variable (s : State) (din : Octets) (rest : List Input)

@[simp] theorem State.begin_engine : (s.begin din rest).engine = s.engine := rfl
@[simp] theorem State.begin_params : (s.begin din rest).params = s.params := rfl
@[simp] theorem State.begin_pending : (s.begin din rest).pending = rest := rfl
@[simp] theorem State.begin_din : (s.begin din rest).din = din := rfl
@[simp] theorem State.begin_responses : (s.begin din rest).responses = s.responses := rfl

end Begin

section TakeReset
variable (s : State) (rest : List Input)

@[simp] theorem State.takeReset_engine : (s.takeReset rest).engine = .reset := rfl
@[simp] theorem State.takeReset_params : (s.takeReset rest).params = s.params := rfl
@[simp] theorem State.takeReset_pending : (s.takeReset rest).pending = rest := rfl
@[simp] theorem State.takeReset_din : (s.takeReset rest).din = s.din := rfl
@[simp] theorem State.takeReset_responses : (s.takeReset rest).responses = s.responses := rfl

end TakeReset

section Given
variable (s : State) (inputs : List Input)

@[simp] theorem State.given_engine : (s.given inputs).engine = s.engine := rfl
@[simp] theorem State.given_params : (s.given inputs).params = s.params := rfl
@[simp] theorem State.given_pending : (s.given inputs).pending = inputs := rfl
@[simp] theorem State.given_din : (s.given inputs).din = s.din := rfl
@[simp] theorem State.given_responses : (s.given inputs).responses = s.responses := rfl

end Given

section Answered
variable (s : State) (e : Engine) (rs : List Response)

@[simp] theorem State.answered_engine : (s.answered e rs).engine = e := rfl
@[simp] theorem State.answered_params : (s.answered e rs).params = s.params := rfl
@[simp] theorem State.answered_pending : (s.answered e rs).pending = [] := rfl
@[simp] theorem State.answered_din : (s.answered e rs).din = [] := rfl
@[simp] theorem State.answered_responses : (s.answered e rs).responses = rs.reverse ++ s.responses := rfl

end Answered

section EndSession
variable (e : Engine)

@[simp] theorem Engine.endSession_sm3 : e.endSession.sm3 = e.sm3 := rfl
@[simp] theorem Engine.endSession_sm4 : e.endSession.sm4 = e.sm4 := rfl
@[simp] theorem Engine.endSession_sess : e.endSession.sess = .idle := rfl
@[simp] theorem Engine.endSession_gcm : e.endSession.gcm = .idle := rfl
@[simp] theorem Engine.endSession_endSession : e.endSession.endSession = e.endSession := rfl

end EndSession

section WithKey
variable (e : Engine) (k : Sm4Key)

@[simp] theorem Engine.withKey_sm3 : (e.withKey k).sm3 = e.sm3 := rfl
@[simp] theorem Engine.withKey_sm4 : (e.withKey k).sm4 = k := rfl
@[simp] theorem Engine.withKey_sess : (e.withKey k).sess = .idle := rfl
@[simp] theorem Engine.withKey_gcm : (e.withKey k).gcm = .idle := rfl

end WithKey

section StartSession
variable (e : Engine) (mode : Mode) (dir : Dir) (pad : Pad) (t : Fin 17) (iv : Octets)

@[simp] theorem Engine.startSession_sm3 : (e.startSession mode dir pad t iv).sm3 = e.sm3 := by cases mode <;> rfl
@[simp] theorem Engine.startSession_sm4 : (e.startSession mode dir pad t iv).sm4 = e.sm4 := by cases mode <;> rfl

end StartSession

section Idle

@[simp] theorem Session.idle_phase : Session.idle.phase = .idle := rfl
@[simp] theorem Sm3Ctx.idle_phase : Sm3Ctx.idle.phase = .idle := rfl
@[simp] theorem Sm4Key.cleared_keyValid : Sm4Key.cleared.keyValid = false := rfl
@[simp] theorem Engine.reset_sm3 : Engine.reset.sm3 = .idle := rfl
@[simp] theorem Engine.reset_sm4 : Engine.reset.sm4 = .cleared := rfl
@[simp] theorem Engine.reset_sess : Engine.reset.sess = .idle := rfl
@[simp] theorem Engine.reset_gcm : Engine.reset.gcm = .idle := rfl

end Idle

section Replies
variable (e : Engine) (st : Status) (dout : Octets)

@[simp] theorem answer_engine : (answer e dout).engine = e := rfl
@[simp] theorem answer_status : (answer e dout).status = .ok := rfl
@[simp] theorem answer_dout : (answer e dout).dout = dout := rfl
@[simp] theorem raise_engine : (raise e st).engine = e := rfl
@[simp] theorem raise_status : (raise e st).status = st := rfl
@[simp] theorem raise_dout : (raise e st).dout = [] := rfl
@[simp] theorem raiseEnding_engine : (raiseEnding e st).engine = e.endSession := rfl
@[simp] theorem raiseEnding_status : (raiseEnding e st).status = st := rfl
@[simp] theorem raiseEnding_dout : (raiseEnding e st).dout = [] := rfl

end Replies

end Sys2Proof.Machine
end

