-- ==== Sys2Proof/Laws/Octets.lean ====
section
/-! SUPPORT. Big-endian conversion and the cutting of octet strings into pieces: lengths, bounds, round trips, and how each
goes over concatenation. -/
namespace Sys2Proof.Machine

@[simp] theorem toBE_length (k v : Nat) : (toBE k v).length = k := by
  induction k with
  | zero => rfl
  | succ k ih => simp [toBE, ih]

@[simp] theorem bytesOfWord_length (w : Word) : (bytesOfWord w).length = 4 := toBE_length 4 _

@[simp] theorem bytesOfBlock_length (x : Block) : (bytesOfBlock x).length = 16 := toBE_length 16 _

@[simp] theorem bytesK_length (k : Nat) (c : Byte) : (bytesK k c).length = k := List.length_replicate

theorem beNat_lt (s : Octets) : beNat s < 256 ^ s.length := by
  induction s with
  | nil => simp [beNat]
  | cons b s ih =>
    have hb : b.toNat < 256 := b.isLt
    have : b.toNat * 256 ^ s.length ≤ 255 * 256 ^ s.length := Nat.mul_le_mul_right _ (by omega)
    simp only [beNat, List.length_cons, pow_succ]
    omega

theorem beNat_append (s t : Octets) : beNat (s ++ t) = beNat s * 256 ^ t.length + beNat t := by
  induction s with
  | nil => simp [beNat]
  | cons b s ih => simp only [List.cons_append, beNat, ih, List.length_append, pow_add]; ring

theorem beNat_toBE (k v : Nat) : beNat (toBE k v) = v % 256 ^ k := by
  induction k with
  | zero => simp [toBE, beNat, Nat.mod_one]
  | succ k ih =>
    have h : v % (256 ^ k * 256) = v % 256 ^ k + 256 ^ k * (v / 256 ^ k % 256) := Nat.mod_mul
    simp only [toBE, beNat, toBE_length, ih, BitVec.toNat_ofNat]
    rw [show v % 256 ^ (k + 1) = v % (256 ^ k * 256) from rfl, h, Nat.mul_comm (256 ^ k), Nat.add_comm]

/-- A number below 256^k comes back from its k bytes (R12). -/
theorem beNat_toBE_of_lt {k v : Nat} (h : v < 256 ^ k) : beNat (toBE k v) = v := by
  rw [beNat_toBE, Nat.mod_eq_of_lt h]

theorem toBE_mod (k v : Nat) : toBE k (v % 256 ^ k) = toBE k v := by
  induction k generalizing v with
  | zero => rfl
  | succ k ih =>
    have h : v % 256 ^ (k + 1) % 256 ^ k = v % 256 ^ k := Nat.mod_mod_of_dvd _ (pow_dvd_pow _ (Nat.le_succ k))
    simp only [toBE]
    rw [← ih (v % 256 ^ (k + 1)), h, ih]
    congr 1
    apply BitVec.eq_of_toNat_eq
    have : v % 256 ^ (k + 1) / 256 ^ k = v / 256 ^ k % 256 := by rw [pow_succ, Nat.mod_mul_right_div_self]
    simp [this]

/-- A byte string comes back from its integer (R12). -/
theorem toBE_beNat (s : Octets) : toBE s.length (beNat s) = s := by
  induction s with
  | nil => rfl
  | cons b s ih =>
    have hlt := beNat_lt s
    have hpos : 0 < 256 ^ s.length := Nat.pow_pos (by norm_num)
    simp only [List.length_cons, toBE, beNat]
    congr 1
    · apply BitVec.eq_of_toNat_eq
      rw [Nat.add_comm, Nat.add_mul_div_right _ _ hpos, Nat.div_eq_of_lt hlt]
      simp
    · rw [← toBE_mod, Nat.mul_add_mod_self_right, Nat.mod_eq_of_lt hlt, ih]

@[simp] theorem wordOfBytes_bytesOfWord (w : Word) : wordOfBytes (bytesOfWord w) = w := by
  apply BitVec.eq_of_toNat_eq
  have h : w.toNat < 256 ^ 4 := w.isLt
  simp [wordOfBytes, bytesOfWord, beNat_toBE_of_lt h]

@[simp] theorem blockOfBytes_bytesOfBlock (x : Block) : blockOfBytes (bytesOfBlock x) = x := by
  apply BitVec.eq_of_toNat_eq
  have h : x.toNat < 256 ^ 16 := x.isLt
  simp [blockOfBytes, bytesOfBlock, beNat_toBE_of_lt h]

theorem bytesOfBlock_blockOfBytes {s : Octets} (h : s.length = 16) : bytesOfBlock (blockOfBytes s) = s := by
  have hlt := beNat_lt s
  rw [h] at hlt
  have : (blockOfBytes s).toNat = beNat s := by
    simp only [blockOfBytes, BitVec.toNat_ofNat]
    exact Nat.mod_eq_of_lt hlt
  rw [bytesOfBlock, this, ← h, toBE_beNat]

theorem bytesOfWord_wordOfBytes {s : Octets} (h : s.length = 4) : bytesOfWord (wordOfBytes s) = s := by
  have hlt := beNat_lt s
  rw [h] at hlt
  have : (wordOfBytes s).toNat = beNat s := by
    simp only [wordOfBytes, BitVec.toNat_ofNat]
    exact Nat.mod_eq_of_lt hlt
  rw [bytesOfWord, this, ← h, toBE_beNat]

@[simp] theorem pieces_length (size n : Nat) (s : Octets) : (pieces size n s).length = n := by
  induction n generalizing s with
  | zero => rfl
  | succ n ih => simp [pieces, ih]

/-- Pieces of the first part do not see what follows it. -/
theorem pieces_append (size n : Nat) (s t : Octets) (h : size * n ≤ s.length) :
    pieces size n (s ++ t) = pieces size n s := by
  induction n generalizing s with
  | zero => rfl
  | succ n ih =>
    have h1 : size ≤ s.length := by rw [Nat.mul_succ] at h; omega
    have h2 : size * n ≤ (s.drop size).length := by simp [Nat.mul_succ] at *; omega
    simp only [pieces]
    rw [List.take_append_of_le_length h1, List.drop_append_of_le_length h1, ih _ h2]

theorem pieces_add (size m n : Nat) (s : Octets) :
    pieces size (m + n) s = pieces size m s ++ pieces size n (s.drop (size * m)) := by
  induction m generalizing s with
  | zero => simp [pieces]
  | succ m ih =>
    rw [show m + 1 + n = (m + n) + 1 by omega]
    simp only [pieces, ih, List.cons_append, List.drop_drop]
    rw [Nat.mul_succ, Nat.add_comm]

/-- Cutting a string of whole pieces followed by another cuts each on its own. -/
theorem wholePieces_append {size : Nat} (hs : 0 < size) (s t : Octets) (h : s.length % size = 0) :
    wholePieces size (s ++ t) = wholePieces size s ++ wholePieces size t := by
  obtain ⟨n, hn⟩ := Nat.dvd_of_mod_eq_zero h
  have h1 : (s ++ t).length / size = n + t.length / size := by
    rw [List.length_append, hn, Nat.mul_add_div hs]
  have h2 : s.length / size = n := by rw [hn]; exact Nat.mul_div_cancel_left n hs
  unfold wholePieces
  rw [h1, h2, pieces_add, pieces_append _ _ _ _ (Nat.le_of_eq hn.symm)]
  congr 2
  rw [← hn, List.drop_left]

@[simp] theorem wholePieces_nil (size : Nat) : wholePieces size [] = [] := by simp [wholePieces, pieces]

/-- A string shorter than a piece holds no whole piece. -/
theorem wholePieces_short {size : Nat} {s : Octets} (h : s.length < size) : wholePieces size s = [] := by
  simp [wholePieces, Nat.div_eq_of_lt h, pieces]

/-- A string of one piece. -/
theorem wholePieces_single {size : Nat} {s : Octets} (hs : 0 < size) (h : s.length = size) :
    wholePieces size s = [s] := by
  simp [wholePieces, h, Nat.div_self hs, pieces, List.take_of_length_le]

/-- The whole pieces and the remainder make up the string. -/
theorem flatten_pieces (size n : Nat) (s : Octets) : (pieces size n s).flatten ++ s.drop (size * n) = s := by
  induction n generalizing s with
  | zero => simp [pieces]
  | succ n ih =>
    have h := ih (s.drop size)
    rw [List.drop_drop, Nat.add_comm] at h
    simp only [pieces, List.flatten_cons, List.append_assoc, Nat.mul_succ]
    rw [h, List.take_append_drop]

theorem mem_pieces_length {size n : Nat} {s x : Octets} (h : size * n ≤ s.length) (hx : x ∈ pieces size n s) :
    x.length = size := by
  induction n generalizing s with
  | zero => simp [pieces] at hx
  | succ n ih =>
    rw [Nat.mul_succ] at h
    simp only [pieces, List.mem_cons] at hx
    rcases hx with rfl | hx
    · simp; omega
    · exact ih (by simp; omega) hx

theorem mem_wholePieces_length {size : Nat} {s x : Octets} (hx : x ∈ wholePieces size s) : x.length = size :=
  mem_pieces_length (Nat.mul_div_le _ _) hx

theorem blocksOf_append (s t : Octets) (h : s.length % 16 = 0) : blocksOf (s ++ t) = blocksOf s ++ blocksOf t := by
  simp [blocksOf, wholePieces_append (by norm_num) s t h]

theorem blocksOf_short {s : Octets} (h : s.length < 16) : blocksOf s = [] := by
  simp [blocksOf, wholePieces_short h]

theorem blocksOf_single {s : Octets} (h : s.length = 16) : blocksOf s = [blockOfBytes s] := by
  simp [blocksOf, wholePieces_single (by norm_num) h]

@[simp] theorem blocksOf_nil : blocksOf [] = [] := by simp [blocksOf]

@[simp] theorem blocksOf_length (s : Octets) : (blocksOf s).length = s.length / 16 := by
  simp [blocksOf, wholePieces]

@[simp] theorem bytesOfBlocks_length (xs : List Block) : (bytesOfBlocks xs).length = 16 * xs.length := by
  induction xs with
  | nil => rfl
  | cons x xs ih => simp only [bytesOfBlocks, List.map_cons, List.flatten_cons, List.length_append] at *; simp [ih]; ring

@[simp] theorem bytesOfBlocks_nil : bytesOfBlocks [] = [] := rfl

@[simp] theorem bytesOfBlocks_cons (x : Block) (xs : List Block) :
    bytesOfBlocks (x :: xs) = bytesOfBlock x ++ bytesOfBlocks xs := rfl

@[simp] theorem bytesOfBlocks_append (xs ys : List Block) :
    bytesOfBlocks (xs ++ ys) = bytesOfBlocks xs ++ bytesOfBlocks ys := by simp [bytesOfBlocks]

/-- Blocks come back from their bytes, whatever shorter rest follows (R54). -/
theorem blocksOf_bytesOfBlocks_append (xs : List Block) {rest : Octets} (h : rest.length < 16) :
    blocksOf (bytesOfBlocks xs ++ rest) = xs := by
  induction xs with
  | nil => exact blocksOf_short (by simpa using h)
  | cons x xs ih =>
    rw [bytesOfBlocks_cons, List.append_assoc, blocksOf_append _ _ (by simp), ih, blocksOf_single (by simp)]
    simp

theorem blocksOf_bytesOfBlocks (xs : List Block) : blocksOf (bytesOfBlocks xs) = xs := by
  simpa using blocksOf_bytesOfBlocks_append xs (rest := []) (by simp)

/-- The whole blocks of a string are its first 16·⌊n/16⌋ bytes. -/
theorem bytesOfBlocks_blocksOf (s : Octets) : bytesOfBlocks (blocksOf s) = s.take (16 * (s.length / 16)) := by
  have h := flatten_pieces 16 (s.length / 16) s
  have hx : bytesOfBlocks (blocksOf s) = (pieces 16 (s.length / 16) s).flatten := by
    unfold bytesOfBlocks blocksOf wholePieces
    rw [List.map_map]
    congr 1
    conv_rhs => rw [← List.map_id (pieces 16 (s.length / 16) s)]
    apply List.map_congr_left
    intro x hx
    exact bytesOfBlock_blockOfBytes (mem_pieces_length (Nat.mul_div_le _ _) hx)
  have hlen : 16 * (s.length / 16) = (pieces 16 (s.length / 16) s).flatten.length := by
    rw [← hx, bytesOfBlocks_length, blocksOf_length]
  have htake := List.take_left' (l₂ := s.drop (16 * (s.length / 16))) hlen.symm
  rw [hx, ← htake, h]

/-- Every string splits into its whole blocks and a shorter rest, in one way. -/
theorem splitsAs_iff {s : Octets} {blocks : List Block} {rest : Octets} :
    SplitsAs s blocks rest ↔ blocks = blocksOf s ∧ rest = s.drop (16 * (s.length / 16)) := by
  constructor
  · rintro ⟨rfl, h⟩
    refine ⟨(blocksOf_bytesOfBlocks_append blocks h).symm, ?_⟩
    have : 16 * ((bytesOfBlocks blocks ++ rest).length / 16) = (bytesOfBlocks blocks).length := by
      simp only [List.length_append, bytesOfBlocks_length]; omega
    rw [this, List.drop_left]
  · rintro ⟨rfl, rfl⟩
    refine ⟨?_, by simp; omega⟩
    rw [bytesOfBlocks_blocksOf, List.take_append_drop]

end Sys2Proof.Machine
end

