-- ==== Sys2Proof/Laws/Ops.lean ====
section
/-! SUPPORT. One lemma for each shared operation of the command port that says once everything it can do, and the inversion
lemma of a step. -/
namespace Sys2Proof.Machine

theorem finish_eq (s : State) (r : Reply) : finish s r = .next (s.complete r) := rfl

/-- `needEmptyDin` runs its body on ε and raises InvalidInputLength on anything else (R77). -/
theorem needEmptyDin_nil (e : Engine) (body : Reply) : needEmptyDin e [] body = body := rfl

theorem needEmptyDin_nonempty (e : Engine) {din : Octets} (body : Reply) (h : din ≠ []) :
    needEmptyDin e din body = raise e .invalidInputLength := by
  simp [needEmptyDin, h]

theorem needEmptyDin_cases (e : Engine) (din : Octets) (body : Reply) :
    (din = [] ∧ needEmptyDin e din body = body) ∨
      (din ≠ [] ∧ needEmptyDin e din body = raise e .invalidInputLength) := by
  cases din with
  | nil => exact .inl ⟨rfl, rfl⟩
  | cons b d => exact .inr ⟨by simp, rfl⟩

/-- DIN fits exactly when it is not longer than `MAX_DIN_BYTES` (R59). -/
theorem dinFits_iff (p : Params) (n : Nat) : p.dinFits n = true ↔ ∀ m, p.maxDin = some m → n ≤ m := by
  cases h : p.maxDinExtra with
  | none => simp [Params.dinFits, Params.maxDin, h]
  | some k => simp [Params.dinFits, Params.maxDin, h]; omega

/-- A DIN of at most 96 bytes fits, whatever the parameter is (D47). -/
theorem dinFits_of_le {p : Params} {n : Nat} (h : n ≤ 96) : p.dinFits n = true := by
  simp [Params.dinFits, Config.leastMaxDin, h]

theorem runCommand_command {cmd : BitVec 32} {i : Instr} {s : State} (hd : decode cmd = .command i)
    (hf : s.params.dinFits s.din.length = true) : runCommand cmd s = exec i s := by
  simp [runCommand, hd, hf]

theorem runCommand_illegal {cmd : BitVec 32} {why : IllegalWord} {s : State} (hd : decode cmd = .illegal why) :
    runCommand cmd s = .next (s.complete (raise s.engine .illegalCommand)) := by
  simp [runCommand, hd, finish_eq]

/-- A step performs the command at the head of the inputs (R61, R78). -/
theorem step_command {s : State} {c : Command} {rest : List Input} {i : Instr} (hp : s.pending = .command c :: rest)
    (hd : decode c.cmd = .command i) (hf : s.params.dinFits c.din.length = true) :
    step s = exec i (s.begin c.din rest) := by
  simp only [step, hp]
  exact runCommand_command hd hf

/-- Everything a step can do: wait, take the reset event, refuse an illegal word, refuse an over-long DIN, or perform
the decoded command. -/
theorem step_cases (s : State) :
    (s.pending = [] ∧ step s = .next s) ∨
    (∃ rest, s.pending = .resetEvent :: rest ∧ step s = .next (s.takeReset rest)) ∨
    (∃ c rest why, s.pending = .command c :: rest ∧ decode c.cmd = .illegal why ∧
      step s = .next ((s.begin c.din rest).complete (raise s.engine .illegalCommand))) ∨
    (∃ c rest i, s.pending = .command c :: rest ∧ decode c.cmd = .command i ∧ s.params.dinFits c.din.length = false ∧
      step s = .next ((s.begin c.din rest).complete (raise s.engine .invalidInputLength))) ∨
    (∃ c rest i, s.pending = .command c :: rest ∧ decode c.cmd = .command i ∧ s.params.dinFits c.din.length = true ∧
      step s = exec i (s.begin c.din rest)) := by
  match hp : s.pending with
  | [] => exact .inl ⟨rfl, by simp [step, hp]⟩
  | .resetEvent :: rest => exact .inr (.inl ⟨rest, rfl, by simp [step, hp]⟩)
  | .command c :: rest =>
    match hd : decode c.cmd with
    | .illegal why => exact .inr (.inr (.inl ⟨c, rest, why, rfl, hd, by simp [step, hp, runCommand, hd, finish_eq]⟩))
    | .command i =>
      cases hf : s.params.dinFits c.din.length with
      | false =>
        exact .inr (.inr (.inr (.inl ⟨c, rest, i, rfl, hd, hf, by simp [step, hp, runCommand, hd, hf, finish_eq]⟩)))
      | true => exact .inr (.inr (.inr (.inr ⟨c, rest, i, rfl, hd, hf, step_command hp hd hf⟩)))

/-- The next command offered is the one the very next step takes. -/
theorem step_withFetchWord (s : State) (nbits w : Nat) :
    step (s.withFetchWord nbits w) = runCommand (BitVec.ofNat 32 (w % 2 ^ nbits)) s := rfl

end Sys2Proof.Machine
end

