-- ==== Sys2Proof/Laws/Sm4.lean ====
section
/-! SUPPORT. The SM4 rounds undo each other when run with the reversed round keys (43_sm4.md R181). -/
namespace Sys2Proof.Machine

/-- The window read backwards. -/
def Window.flip (x : Window) : Window := { x0 := x.x3, x1 := x.x2, x2 := x.x1, x3 := x.x0 }

@[simp] theorem Window.flip_flip (x : Window) : x.flip.flip = x := rfl

theorem blockWord_blockOfWords (x0 x1 x2 x3 : Word) :
    blockWord (blockOfWords x0 x1 x2 x3) 0 = x0 ∧ blockWord (blockOfWords x0 x1 x2 x3) 1 = x1 ∧
      blockWord (blockOfWords x0 x1 x2 x3) 2 = x2 ∧ blockWord (blockOfWords x0 x1 x2 x3) 3 = x3 := by
  refine ⟨?_, ?_, ?_, ?_⟩ <;>
  · unfold blockWord blockOfWords
    ext i hi
    simp only [BitVec.getElem_extractLsb', BitVec.getLsbD_append]
    simp
    grind

theorem blockOfWords_blockWord (x : Block) :
    blockOfWords (blockWord x 0) (blockWord x 1) (blockWord x 2) (blockWord x 3) = x := by
  unfold blockWord blockOfWords
  ext i hi
  simp only [BitVec.getElem_append, BitVec.getElem_extractLsb']
  grind

theorem Window.ofBlock_reversed (x : Window) : Window.ofBlock x.reversed = x.flip := by
  obtain ⟨h0, h1, h2, h3⟩ := blockWord_blockOfWords x.x3 x.x2 x.x1 x.x0
  simp [Window.ofBlock, Window.reversed, Window.flip, h0, h1, h2, h3]

theorem Window.flip_reversed (x : Window) : x.flip.reversed = blockOfWords x.x0 x.x1 x.x2 x.x3 := rfl

theorem Window.ofBlock_flip_reversed (p : Block) : (Window.ofBlock p).flip.reversed = p := blockOfWords_blockWord p

/-- One round on the flipped window takes the newest word back to the one it replaced. -/
theorem sm4_round_undo (x : Window) (rk : Word) :
    ((x.push (sm4F x rk)).flip.push (sm4F (x.push (sm4F x rk)).flip rk)) = x.flip := by
  have h : sm4F (x.push (sm4F x rk)).flip rk = x.x0 := by
    simp only [sm4F, Window.push, Window.flip]
    rw [BitVec.xor_comm x.x3 x.x2, BitVec.xor_assoc x.x2, BitVec.xor_comm x.x3 x.x1, ← BitVec.xor_assoc x.x2,
      BitVec.xor_comm x.x2 x.x1]
    rw [BitVec.xor_assoc, BitVec.xor_self, BitVec.xor_zero]
  rw [h]
  rfl

theorem sm4Rounds_append (r r' : List Word) (x : Window) : sm4Rounds (r ++ r') x = sm4Rounds r' (sm4Rounds r x) := by
  induction r generalizing x with
  | nil => rfl
  | cons rk r ih => simp [sm4Rounds, ih]

/-- The rounds with the reversed keys, on the flipped window, undo the rounds. -/
theorem sm4Rounds_reverse (r : List Word) (x : Window) : sm4Rounds r.reverse (sm4Rounds r x).flip = x.flip := by
  induction r generalizing x with
  | nil => rfl
  | cons rk r ih =>
    simp only [sm4Rounds, List.reverse_cons, sm4Rounds_append, ih]
    exact sm4_round_undo x rk

theorem sm4Crypt_reverse (r : List Word) (p : Block) : sm4Crypt r.reverse (sm4Crypt r p) = p := by
  unfold sm4Crypt
  rw [Window.ofBlock_reversed, sm4Rounds_reverse, Window.ofBlock_flip_reversed]

/-- D_rk(E_rk(P)) = P, for every rk and so for every rk = KeyExpand(MK) (R181). -/
@[simp] theorem sm4Decrypt_encrypt (rk : Vector Word 32) (p : Block) : sm4Decrypt rk (sm4Encrypt rk p) = p :=
  sm4Crypt_reverse rk.toList p

/-- E_rk(D_rk(C)) = C. -/
@[simp] theorem sm4Encrypt_decrypt (rk : Vector Word 32) (c : Block) : sm4Encrypt rk (sm4Decrypt rk c) = c := by
  have h := sm4Crypt_reverse rk.toList.reverse c
  rwa [List.reverse_reverse] at h

end Sys2Proof.Machine
end

