-- ==== Sys2Proof/Laws/Modes.lean ====
section
/-! SUPPORT. What BlockOp and CtrXor do to a whole byte string (44_modes.md R205, R207): each over concatenation, and CtrXor
as an exclusive-or with a keystream. -/
namespace Sys2Proof.Machine

theorem toBE_getElem? (k v i : Nat) (h : i < k) : (toBE k v)[i]? = some (BitVec.ofNat 8 (v / 256 ^ (k - 1 - i))) := by
  induction k generalizing i with
  | zero => omega
  | succ k ih =>
    cases i with
    | zero => simp [toBE]
    | succ i =>
      simp only [toBE, List.getElem?_cons_succ]
      rw [ih i (by omega)]
      congr 4
      omega

/-- Byte i of a block read as 16 bytes (R54). -/
theorem bytesOfBlock_getElem? (x : Block) (i : Nat) (h : i < 16) : (bytesOfBlock x)[i]? = some (blockByte x i) := by
  rw [bytesOfBlock, toBE_getElem? 16 _ i h]
  congr 1
  apply BitVec.eq_of_toNat_eq
  have hp : (2 : Nat) ^ (120 - 8 * i) = 256 ^ (16 - 1 - i) := by
    rw [show (256 : Nat) = 2 ^ 8 from rfl, ← pow_mul]; congr 1; omega
  simp only [blockByte, BitVec.toNat_ofNat, BitVec.extractLsb'_toNat, Nat.shiftRight_eq_div_pow, hp]

theorem bytesOfBlock_drop (x : Block) (i : Nat) (h : i < 16) :
    (bytesOfBlock x).drop i = blockByte x i :: (bytesOfBlock x).drop (i + 1) := by
  have hi : i < (bytesOfBlock x).length := by simpa using h
  rw [List.drop_eq_getElem_cons hi]
  congr 1
  have := bytesOfBlock_getElem? x i h
  rw [List.getElem?_eq_getElem hi] at this
  exact Option.some.inj this

@[simp] theorem keystream_length (rk : Vector Word 32) (inc : Block → Block) (n : Nat) (c : Block) :
    (keystream rk inc n c).length = 16 * n := by
  induction n generalizing c with
  | zero => rfl
  | succ n ih => simp only [keystream, List.length_append, bytesOfBlock_length, ih]; ring

section Ctr
variable (rk : Vector Word 32) (inc : Block → Block)

/-- A byte of CtrXor uses the first byte of the keystream and leaves the rest (R207). -/
theorem ctrByte_spec (x : Session) (c : Byte) (n : Nat) : ∃ k : Byte,
    keystreamFor rk inc x (n + 1) = k :: keystreamFor rk inc (x.ctrByte rk inc c).2 n ∧
      (x.ctrByte rk inc c).1 = c ^^^ k ∧
      (x.ctrByte rk inc c).2 = { x with ctr := (x.ctrByte rk inc c).2.ctr, ks := (x.ctrByte rk inc c).2.ks,
                                        ksOff := (x.ctrByte rk inc c).2.ksOff } ∧
      inc^[freshBlocks x.ksOff.val (n + 1)] x.ctr =
        inc^[freshBlocks (x.ctrByte rk inc c).2.ksOff.val n] (x.ctrByte rk inc c).2.ctr := by
  by_cases h : x.ksOff = 16
  · have hf : freshBlocks 16 (n + 1) = freshBlocks 1 n + 1 := by unfold freshBlocks; omega
    refine ⟨blockByte (sm4Encrypt rk x.ctr) 0, ?_, ?_, ?_, ?_⟩
    · have h0 : (bytesOfBlock x.ks).drop 16 = [] := List.drop_of_length_le (by simp)
      have h1 := bytesOfBlock_drop (sm4Encrypt rk x.ctr) 0 (by omega)
      simp only [List.drop_zero, Nat.zero_add] at h1
      simp only [keystreamFor, Session.ctrByte, h, if_true]
      change (bytesOfBlock x.ks).drop 16 ++ keystream rk inc (freshBlocks 16 (n + 1)) x.ctr =
        _ :: ((bytesOfBlock (sm4Encrypt rk x.ctr)).drop 1 ++ keystream rk inc (freshBlocks 1 n) (inc x.ctr))
      rw [h0, hf, keystream, List.nil_append]
      conv_lhs => rw [h1]
      rfl
    · simp [Session.ctrByte, h]
    · simp [Session.ctrByte, h]
    · simp only [Session.ctrByte, h, if_true]
      change inc^[freshBlocks 16 (n + 1)] x.ctr = inc^[freshBlocks 1 n] (inc x.ctr)
      rw [hf, Function.iterate_succ_apply]
  · have hv : x.ksOff.val < 16 := by
      have : x.ksOff.val ≠ 16 := fun e => h (Fin.ext e)
      omega
    have hs : (x.ksOff + 1).val = x.ksOff.val + 1 := by
      rw [Fin.val_add]; simp; omega
    have hf : freshBlocks x.ksOff.val (n + 1) = freshBlocks (x.ksOff.val + 1) n := by unfold freshBlocks; omega
    refine ⟨blockByte x.ks x.ksOff.val, ?_, ?_, ?_, ?_⟩
    · simp only [keystreamFor, Session.ctrByte, h, if_false, hs, hf]
      rw [bytesOfBlock_drop _ _ hv]
      rfl
    · simp [Session.ctrByte, h]
    · simp [Session.ctrByte, h]
    · simp only [Session.ctrByte, h, if_false, hs, hf]

/-- CtrXor is the exclusive-or with the keystream, and moves the counter state on by its length (R207). -/
theorem ctrXor_spec (x : Session) (s : Octets) :
    (x.ctrXor rk inc s).1 = xorBytes s (keystreamFor rk inc x s.length) ∧
      CounterAdvanced rk inc x (x.ctrXor rk inc s).2 s.length := by
  induction s generalizing x with
  | nil =>
    have hf : freshBlocks x.ksOff.val 0 = 0 := by unfold freshBlocks; have := x.ksOff.isLt; omega
    refine ⟨by simp [Session.ctrXor, xorBytes], ?_, ?_⟩
    · simp [Session.ctrXor, hf]
    · simp [Session.ctrXor, keystreamFor, hf, keystream]
  | cons c cs ih =>
    obtain ⟨k, hk, hout, hsess, hctr⟩ := ctrByte_spec rk inc x c cs.length
    obtain ⟨ih1, ih2, ih3⟩ := ih (x.ctrByte rk inc c).2
    refine ⟨?_, ?_, ?_⟩
    · simp only [Session.ctrXor, List.length_cons, hk, xorBytes, List.zipWith_cons_cons]
      rw [hout, ih1]
      rfl
    · simp only [Session.ctrXor, List.length_cons, hctr]
      conv_lhs => rw [ih2]
      rw [hsess]
    · simp only [Session.ctrXor, List.length_cons, hk, List.drop_succ_cons]
      exact ih3

theorem ctrXor_append (x : Session) (s t : Octets) :
    x.ctrXor rk inc (s ++ t) = ((x.ctrXor rk inc s).1 ++ ((x.ctrXor rk inc s).2.ctrXor rk inc t).1,
      ((x.ctrXor rk inc s).2.ctrXor rk inc t).2) := by
  induction s generalizing x with
  | nil => rfl
  | cons c cs ih => simp [Session.ctrXor, ih]

@[simp] theorem ctrXor_length (x : Session) (s : Octets) : (x.ctrXor rk inc s).1.length = s.length := by
  induction s generalizing x with
  | nil => rfl
  | cons c cs ih => simp [Session.ctrXor, ih]

end Ctr

section Blocks
variable (rk : Vector Word 32)

theorem blockRun_append (mode : Mode) (dir : Dir) (chain : Block) (xs ys : List Block) :
    blockRun rk mode dir chain (xs ++ ys) =
      ((blockRun rk mode dir chain xs).1 ++ (blockRun rk mode dir (blockRun rk mode dir chain xs).2 ys).1,
        (blockRun rk mode dir (blockRun rk mode dir chain xs).2 ys).2) := by
  induction xs generalizing chain with
  | nil => simp [blockRun]
  | cons x xs ih => simp [blockRun, ih]

@[simp] theorem blockRun_length (mode : Mode) (dir : Dir) (chain : Block) (xs : List Block) :
    (blockRun rk mode dir chain xs).1.length = 16 * xs.length := by
  induction xs generalizing chain with
  | nil => rfl
  | cons x xs ih => simp [blockRun, ih]; ring

/-- In ECB each block is transformed on its own (R205). -/
theorem blockRun_ecb (dir : Dir) (chain : Block) (xs : List Block) :
    blockRun rk .ecb dir chain xs =
      (bytesOfBlocks (xs.map (match dir with
        | .enc => sm4Encrypt rk
        | .dec => sm4Decrypt rk)), chain) := by
  induction xs with
  | nil => rfl
  | cons x xs ih => cases dir <;> simp [blockRun, blockStep, ih]

/-- CBC encryption chains each block on the ciphertext block before it (R205). -/
theorem blockRun_cbc_enc (chain : Block) (xs : List Block) :
    blockRun rk .cbc .enc chain xs =
      (bytesOfBlocks (cbcEncBlocks rk chain xs), (cbcEncBlocks rk chain xs).getLastD chain) := by
  induction xs generalizing chain with
  | nil => rfl
  | cons x xs ih => simp [blockRun, blockStep, ih, cbcEncBlocks, List.getLast?_cons]

/-- CBC decryption inverts it (R205). -/
theorem blockRun_cbc_dec (chain : Block) (xs : List Block) :
    blockRun rk .cbc .dec chain xs =
      (bytesOfBlocks (List.zipWith (fun c prev => sm4Decrypt rk c ^^^ prev) xs (chain :: xs)), xs.getLastD chain) := by
  induction xs generalizing chain with
  | nil => rfl
  | cons x xs ih => simp [blockRun, blockStep, ih, List.getLast?_cons]

@[simp] theorem cbcEncBlocks_length (chain : Block) (xs : List Block) : (cbcEncBlocks rk chain xs).length = xs.length := by
  induction xs generalizing chain with
  | nil => rfl
  | cons x xs ih => simp [cbcEncBlocks, ih]

/-- Decrypting a CBC ciphertext gives the blocks back. -/
theorem cbc_dec_enc (chain : Block) (xs : List Block) :
    List.zipWith (fun c prev => sm4Decrypt rk c ^^^ prev) (cbcEncBlocks rk chain xs)
      (chain :: cbcEncBlocks rk chain xs) = xs := by
  induction xs generalizing chain with
  | nil => rfl
  | cons x xs ih =>
    simp only [cbcEncBlocks, List.zipWith_cons_cons, sm4Decrypt_encrypt]
    rw [ih, BitVec.xor_assoc, BitVec.xor_self, BitVec.xor_zero]

end Blocks

/-- Exclusive-or with the same mask twice gives the bytes back (R13, R217). -/
theorem xorBytes_xorBytes {s mask : Octets} (h : s.length ≤ mask.length) : xorBytes (xorBytes s mask) mask = s := by
  induction s generalizing mask with
  | nil => rfl
  | cons b s ih =>
    cases mask with
    | nil => simp at h
    | cons k mask =>
      simp only [xorBytes, List.zipWith_cons_cons] at *
      rw [ih (by simpa using h), BitVec.xor_assoc, BitVec.xor_self, BitVec.xor_zero]

theorem xorBytes_length {s mask : Octets} (h : s.length ≤ mask.length) : (xorBytes s mask).length = s.length := by
  simp [xorBytes, h]

theorem keystreamFor_length (rk : Vector Word 32) (inc : Block → Block) (x : Session) (n : Nat) :
    n ≤ (keystreamFor rk inc x n).length := by
  have := x.ksOff.isLt
  simp only [keystreamFor, List.length_append, List.length_drop, bytesOfBlock_length, keystream_length, freshBlocks]
  omega

end Sys2Proof.Machine
end

