-- ==== Sys2Proof/Laws/Ghash.lean ====
section
/-! SUPPORT. GFMul is bilinear and its multiplication by x commutes with it (45_gcm.md R241); GHASH, Absorb and Flush over
concatenation (R242, R248). -/
namespace Sys2Proof.Machine

theorem block_xor_left_comm (a b c : Block) : a ^^^ (b ^^^ c) = b ^^^ (a ^^^ c) := by
  rw [← BitVec.xor_assoc, BitVec.xor_comm a b, BitVec.xor_assoc]

theorem gfShift_xor (u v : Block) : gfShift (u ^^^ v) = gfShift u ^^^ gfShift v := by
  unfold gfShift
  rw [BitVec.getLsbD_xor, BitVec.ushiftRight_xor_distrib]
  cases u.getLsbD 0 <;> cases v.getLsbD 0 <;> simp [BitVec.xor_assoc, BitVec.xor_comm, block_xor_left_comm]

@[simp] theorem gfShift_zero : gfShift 0#128 = 0#128 := by decide

theorem gfLoop_zero_x (n : Nat) (z v : Block) : gfLoop 0#128 n z v = z := by
  induction n generalizing z v with
  | zero => rfl
  | succ n ih => simp [gfLoop, ih]

theorem gfLoop_xor (x : Block) (n : Nat) (z z' v v' : Block) :
    gfLoop x n (z ^^^ z') (v ^^^ v') = gfLoop x n z v ^^^ gfLoop x n z' v' := by
  induction n generalizing z z' v v' with
  | zero => rfl
  | succ n ih =>
    simp only [gfLoop, gfShift_xor]
    rw [← ih]
    congr 1
    split
    · simp only [BitVec.xor_assoc, block_xor_left_comm z']
    · rfl

theorem gfLoop_shift (x : Block) (n : Nat) (z v : Block) :
    gfLoop x n (gfShift z) (gfShift v) = gfShift (gfLoop x n z v) := by
  induction n generalizing z v with
  | zero => rfl
  | succ n ih =>
    simp only [gfLoop]
    rw [← ih]
    congr 1
    split
    · rw [gfShift_xor]
    · rfl

theorem gfLoop_xor_x (x x' : Block) (n : Nat) (z z' v : Block) :
    gfLoop (x ^^^ x') n (z ^^^ z') v = gfLoop x n z v ^^^ gfLoop x' n z' v := by
  induction n generalizing z z' v with
  | zero => rfl
  | succ n ih =>
    simp only [gfLoop]
    rw [← ih]
    congr 1
    rw [BitVec.getLsbD_xor]
    cases x.getLsbD n <;> cases x'.getLsbD n <;> simp [BitVec.xor_assoc, BitVec.xor_comm, block_xor_left_comm]

theorem gfMul_xor_right (x y z : Block) : gfMul x (y ^^^ z) = gfMul x y ^^^ gfMul x z := by
  simpa [gfMul] using gfLoop_xor x 128 0 0 y z

theorem gfMul_xor_left (x y z : Block) : gfMul (x ^^^ y) z = gfMul x z ^^^ gfMul y z := by
  simpa [gfMul] using gfLoop_xor_x x y 128 0 0 z

theorem gfMul_shift_right (x y : Block) : gfMul x (gfShift y) = gfShift (gfMul x y) := by
  simpa [gfMul] using gfLoop_shift x 128 0 y

@[simp] theorem gfMul_zero_left (y : Block) : gfMul 0#128 y = 0#128 := gfLoop_zero_x 128 0 y

theorem ghashFrom_append (h x : Block) (xs ys : List Block) :
    ghashFrom h x (xs ++ ys) = ghashFrom h (ghashFrom h x xs) ys := by simp [ghashFrom]

@[simp] theorem ghashFrom_nil (h x : Block) : ghashFrom h x [] = x := rfl

/-- Absorb said by the whole blocks and the rest of gpend ‖ S (R248). -/
theorem absorb_eq {g : Gcm} {s : Octets} {blocks : List Block} {rest : Octets} (h : SplitsAs (g.gpend ++ s) blocks rest) :
    g.absorb s = { g with X := ghashFrom g.H g.X blocks, gpend := rest } := by
  obtain ⟨rfl, rfl⟩ := splitsAs_iff.mp h
  rfl

theorem absorb_gpend_length (g : Gcm) (s : Octets) : (g.absorb s).gpend.length = (g.gpend.length + s.length) % 16 := by
  simp only [Gcm.absorb, List.length_drop, List.length_append]
  omega

/-- Absorbing in two parts is absorbing the whole (R248). -/
theorem absorb_append (g : Gcm) (s t : Octets) : (g.absorb s).absorb t = g.absorb (s ++ t) := by
  have h1 := splitsAs_iff.mpr ⟨rfl, (rfl : (g.gpend ++ s).drop (16 * ((g.gpend ++ s).length / 16)) = _)⟩
  obtain ⟨hs, hr⟩ := h1
  have hg := absorb_eq ⟨hs, hr⟩
  set b1 := blocksOf (g.gpend ++ s)
  set r1 := (g.gpend ++ s).drop (16 * ((g.gpend ++ s).length / 16))
  have h2 := splitsAs_iff.mpr ⟨rfl, (rfl : (r1 ++ t).drop (16 * ((r1 ++ t).length / 16)) = _)⟩
  have h3 : SplitsAs (g.gpend ++ (s ++ t)) (b1 ++ blocksOf (r1 ++ t)) ((r1 ++ t).drop (16 * ((r1 ++ t).length / 16))) := by
    refine ⟨?_, h2.2⟩
    rw [bytesOfBlocks_append, List.append_assoc, ← h2.1, ← List.append_assoc, ← List.append_assoc, ← hs]
  rw [absorb_eq h3, hg]
  have h4 : SplitsAs (Gcm.gpend { g with X := ghashFrom g.H g.X b1, gpend := r1 } ++ t) _ _ := h2
  rw [absorb_eq h4]
  simp [ghashFrom_append]

@[simp] theorem absorb_nil {g : Gcm} (h : g.gpend.length < 16) : g.absorb [] = g := by
  have : SplitsAs (g.gpend ++ []) [] g.gpend := ⟨by simp, h⟩
  rw [absorb_eq this]
  rfl

/-- Flush said by the one padded block it absorbs, if any (R248). -/
theorem flush_eq {g : Gcm} (h : g.gpend.length < 16) :
    g.flush = { g with X := ghashFrom g.H g.X (flushBlocks g.gpend), gpend := [] } := by
  unfold Gcm.flush flushBlocks
  cases hp : g.gpend with
  | nil => simp [← hp]
  | cons b p =>
    have hlen : (b :: p).length < 16 := hp ▸ h
    have : SplitsAs (g.gpend ++ bytesK (16 - (b :: p).length) 0)
        [blockOfBytes (b :: p ++ bytesK (16 - (b :: p).length) 0)] [] := by
      refine ⟨?_, by simp⟩
      rw [hp]
      simp only [bytesOfBlocks_cons, bytesOfBlocks_nil, List.append_nil]
      rw [bytesOfBlock_blockOfBytes (by simp at *; omega)]
    simp only [List.length_cons, Nat.zero_lt_succ, if_true, reduceCtorEq, if_false] at *
    exact absorb_eq this

end Sys2Proof.Machine
end

