-- ==== Sys2Proof/Laws/Modular.lean ====
section
/-! SUPPORT. What the two operand checks can answer (41_modular.md R104), and that every result is below the modulus. -/
namespace Sys2Proof.Machine

/-- Two operands below the modulus: the operation's result (R104). -/
theorem modBinary_ok {m a b : Nat} {e : Engine} {din : Octets} (f : Nat → Nat → Nat) (hm : m ≤ 256 ^ 32) (ha : a < m)
    (hb : b < m) (hd : din = toBE 32 a ++ toBE 32 b) : modBinary m f e din = answer e (toBE 32 (f a b)) := by
  have h1 : beNat (toBE 32 a) = a := beNat_toBE_of_lt (ha.trans_le hm)
  have h2 : beNat (toBE 32 b) = b := beNat_toBE_of_lt (hb.trans_le hm)
  subst hd
  simp [modBinary, List.take_left', List.drop_left', h1, h2, Nat.not_le.mpr ha, Nat.not_le.mpr hb]

/-- One operand below the modulus (R104). -/
theorem modUnary_ok {m a r : Nat} {e : Engine} {din : Octets} {f : Nat → Option Nat} (hm : m ≤ 256 ^ 32) (ha : a < m)
    (hf : f a = some r) (hd : din = toBE 32 a) : modUnary m f e din = answer e (toBE 32 r) := by
  have h1 : beNat (toBE 32 a) = a := beNat_toBE_of_lt (ha.trans_le hm)
  subst hd
  simp [modUnary, h1, Nat.not_le.mpr ha, hf]

theorem modBinary_badLength {m : Nat} {e : Engine} {din : Octets} (f : Nat → Nat → Nat) (h : din.length ≠ 64) :
    modBinary m f e din = raise e .invalidInputLength := by
  simp [modBinary, h]

theorem modUnary_badLength {m : Nat} {e : Engine} {din : Octets} (f : Nat → Option Nat) (h : din.length ≠ 32) :
    modUnary m f e din = raise e .invalidInputLength := by
  simp [modUnary, h]

theorem modSub_lt {m : Nat} (hm : 0 < m) (a b : Nat) : modSub m a b < m := by
  have h1 : (0 : Int) < m := by exact_mod_cast hm
  have h2 := Int.emod_lt_of_pos ((a : Int) - b) h1
  have h3 := Int.emod_nonneg ((a : Int) - b) h1.ne'
  unfold modSub
  omega

/-- The exact difference modulo m, on residues (R14). -/
theorem modSub_eq {m a b : Nat} (ha : a < m) (hb : b < m) : modSub m a b = if b ≤ a then a - b else a + m - b := by
  unfold modSub
  split
  · rw [Int.emod_eq_of_lt (by omega) (by omega)]
    omega
  · rw [← Int.add_emod_right, Int.emod_eq_of_lt (by omega) (by omega)]
    omega

/-- Euclid's algorithm returns a residue. -/
theorem euclid_lt {m : Nat} (hm : 0 < m) (fuel r0 r1 t0 t1 : Nat) (h0 : t0 < m) (h1 : t1 < m) :
    euclid m fuel r0 r1 t0 t1 < m := by
  induction fuel generalizing r0 r1 t0 t1 with
  | zero => exact h0
  | succ fuel ih =>
    unfold euclid
    split
    · exact h0
    · exact ih _ _ _ _ h1 (modSub_lt hm _ _)

end Sys2Proof.Machine
end

