-- ==== Sys2Proof/Laws/PerInstr.lean ====
section
/-! SUPPORT. The family `OpcodeField`: the encoding of a well-formed command carries its opcode in CMD[7:0], and a format S
encoding nothing else (30_encoding.md R66-R68). -/
namespace Sys2Proof.Laws.OpcodeField

/-- OPC of the encoding is the command's own, and the bits above are its selections (R66, R67). -/
def Statement (i : Instr) : Prop :=
  i.wellFormed = true → opcField (encode i) = i.opcode ∧ (encode i).toNat = i.opcode + i.selections

theorem nop : Statement .nop := by unfold Statement; decide
theorem getState : Statement .getState := by unfold Statement; decide
theorem engineReset : Statement .engineReset := by unfold Statement; decide
theorem sm3Init : Statement .sm3Init := by unfold Statement; decide
theorem sm3Update : Statement .sm3Update := by unfold Statement; decide
theorem sm3Final : Statement .sm3Final := by unfold Statement; decide
theorem sm3Oneshot : Statement .sm3Oneshot := by unfold Statement; decide
theorem sm3Compress : Statement .sm3Compress := by unfold Statement; decide
theorem sm3Expand : Statement .sm3Expand := by unfold Statement; decide
theorem sm4SetKey : Statement .sm4SetKey := by unfold Statement; decide
theorem sm4EncBlock : Statement .sm4EncBlock := by unfold Statement; decide
theorem sm4DecBlock : Statement .sm4DecBlock := by unfold Statement; decide
theorem sm4ClearKey : Statement .sm4ClearKey := by unfold Statement; decide

theorem modeInit (mode : Nat) (dir : Dir) (pad : Pad) (tagLen : Nat) : Statement (.modeInit mode dir pad tagLen) := by
  intro h
  simp only [Instr.wellFormed, modeFits, tagLenFits, Bool.and_eq_true, decide_eq_true_eq] at h
  have hd : dir.bit < 2 := by cases dir <;> decide
  have hp : pad.bit < 2 := by cases pad <;> decide
  simp only [opcField, cmdField, encode, Instr.opcode, Instr.selections, BitVec.toNat_ofNat]
  omega

theorem modeAad : Statement .modeAad := by unfold Statement; decide
theorem modeUpdate : Statement .modeUpdate := by unfold Statement; decide
theorem modeFinal : Statement .modeFinal := by unfold Statement; decide
theorem modeAbort : Statement .modeAbort := by unfold Statement; decide
theorem fpAdd : Statement .fpAdd := by unfold Statement; decide
theorem fpSub : Statement .fpSub := by unfold Statement; decide
theorem fpMul : Statement .fpMul := by unfold Statement; decide
theorem fpSqr : Statement .fpSqr := by unfold Statement; decide
theorem fpInv : Statement .fpInv := by unfold Statement; decide
theorem fnAdd : Statement .fnAdd := by unfold Statement; decide
theorem fnSub : Statement .fnSub := by unfold Statement; decide
theorem fnMul : Statement .fnMul := by unfold Statement; decide
theorem fnSqr : Statement .fnSqr := by unfold Statement; decide
theorem fnInv : Statement .fnInv := by unfold Statement; decide

end Sys2Proof.Laws.OpcodeField
end

