-- ==== Sys2Proof/Laws/Prime.lean ====
section
/-! SUPPORT. Both moduli of the modular arithmetic unit are prime (41_modular.md R102), so that every nonzero residue has an
inverse. Each prime is shown by a primitive root and the factors of its predecessor, which are prime in turn. -/
namespace Sys2Proof.Machine

/-- a^e mod m by squaring; `fuel` bounds the bits of e. -/
def powMod (m a : Nat) : Nat → Nat → Nat
  | 0, _ => 1 % m
  | fuel + 1, e => powMod m (a * a % m) fuel (e / 2) * (if e % 2 = 1 then a else 1) % m

theorem powMod_eq (m a fuel e : Nat) (h : e < 2 ^ fuel) : powMod m a fuel e = a ^ e % m := by
  induction fuel generalizing a e with
  | zero => simp [show e = 0 by omega, powMod]
  | succ fuel ih =>
    have hd : e / 2 < 2 ^ fuel := by rw [Nat.pow_succ] at h; omega
    have he : a ^ e = (a * a) ^ (e / 2) * (if e % 2 = 1 then a else 1) := by
      have h2 : e = 2 * (e / 2) + e % 2 := by omega
      conv_lhs => rw [h2, pow_add, pow_mul, pow_two]
      rcases Nat.mod_two_eq_zero_or_one e with h0 | h0 <;> simp [h0]
    rw [powMod, ih _ _ hd, he, Nat.mul_mod, Nat.mod_mod, ← Nat.pow_mod, ← Nat.mul_mod]

/-- What a witness `a` and factors of p − 1, each with its multiplicity, must satisfy for p to be prime (Lucas). -/
def isWitness (p a : Nat) (factors : List (Nat × Nat)) : Bool :=
  1 < p && p < 2 ^ 256 && (factors.map fun f => f.1 ^ f.2).prod = p - 1 && powMod p a 256 (p - 1) = 1 &&
    factors.all fun f => powMod p a 256 ((p - 1) / f.1) ≠ 1

theorem prime_of_witness {p : Nat} (a : Nat) (factors : List (Nat × Nat)) (h : isWitness p a factors = true)
    (hf : ∀ f ∈ factors, f.1.Prime) : p.Prime := by
  simp only [isWitness, Bool.and_eq_true, decide_eq_true_eq, List.all_eq_true] at h
  obtain ⟨⟨⟨⟨h1, h2⟩, hp⟩, ha⟩, hq⟩ := h
  have key : ∀ e, e < 2 ^ 256 → ((a : ZMod p) ^ e = 1 ↔ powMod p a 256 e = 1) := by
    intro e he
    rw [powMod_eq _ _ _ _ he, ← Nat.cast_pow, ← Nat.cast_one, ZMod.natCast_eq_natCast_iff, Nat.ModEq,
      Nat.mod_eq_of_lt h1]
  refine lucas_primality p (a : ZMod p) ((key _ (by omega)).mpr ha) ?_
  intro q hqp hqd
  rw [Ne, key _ ((Nat.div_le_self _ _).trans_lt (by omega))]
  rw [← hp, Prime.dvd_prod_iff hqp.prime] at hqd
  obtain ⟨x, hx, hqx⟩ := hqd
  obtain ⟨f, hfm, rfl⟩ := List.mem_map.mp hx
  rw [(Nat.prime_dvd_prime_iff_eq hqp (hf f hfm)).mp (hqp.dvd_of_dvd_pow hqx)]
  exact hq f hfm

theorem prime_3079049 : Nat.Prime 3079049 := by
  refine prime_of_witness 3
    [(2, 3), (7, 1), (54983, 1)]
    (by decide +kernel) ?_
  simp only [List.forall_mem_cons, List.not_mem_nil, false_imp_iff, implies_true, and_true]
  exact ⟨by norm_num, by norm_num, by norm_num⟩

theorem prime_6158099 : Nat.Prime 6158099 := by
  refine prime_of_witness 2
    [(2, 1), (3079049, 1)]
    (by decide +kernel) ?_
  simp only [List.forall_mem_cons, List.not_mem_nil, false_imp_iff, implies_true, and_true]
  exact ⟨by norm_num, prime_3079049⟩

theorem prime_4773264379806847 : Nat.Prime 4773264379806847 := by
  refine prime_of_witness 3
    [(2, 1), (3, 1), (7, 1), (11, 1), (823, 1), (34511, 1), (363761, 1)]
    (by decide +kernel) ?_
  simp only [List.forall_mem_cons, List.not_mem_nil, false_imp_iff, implies_true, and_true]
  exact ⟨by norm_num, by norm_num, by norm_num, by norm_num, by norm_num, by norm_num, by norm_num⟩

theorem prime_66013261729388519804782124120027 : Nat.Prime 66013261729388519804782124120027 := by
  refine prime_of_witness 2
    [(2, 1), (13, 1), (1213, 1), (71209, 1), (6158099, 1), (4773264379806847, 1)]
    (by decide +kernel) ?_
  simp only [List.forall_mem_cons, List.not_mem_nil, false_imp_iff, implies_true, and_true]
  exact ⟨by norm_num, by norm_num, by norm_num, by norm_num, prime_6158099, prime_4773264379806847⟩

theorem prime_3017783777 : Nat.Prime 3017783777 := by
  refine prime_of_witness 3
    [(2, 5), (7, 2), (337, 1), (5711, 1)]
    (by decide +kernel) ?_
  simp only [List.forall_mem_cons, List.not_mem_nil, false_imp_iff, implies_true, and_true]
  exact ⟨by norm_num, by norm_num, by norm_num, by norm_num⟩

theorem prime_4641351449027 : Nat.Prime 4641351449027 := by
  refine prime_of_witness 2
    [(2, 1), (769, 1), (3017783777, 1)]
    (by decide +kernel) ?_
  simp only [List.forall_mem_cons, List.not_mem_nil, false_imp_iff, implies_true, and_true]
  exact ⟨by norm_num, by norm_num, prime_3017783777⟩

theorem prime_8214737 : Nat.Prime 8214737 := by
  refine prime_of_witness 3
    [(2, 4), (67, 1), (79, 1), (97, 1)]
    (by decide +kernel) ?_
  simp only [List.forall_mem_cons, List.not_mem_nil, false_imp_iff, implies_true, and_true]
  exact ⟨by norm_num, by norm_num, by norm_num, by norm_num⟩

theorem prime_417514796639753 : Nat.Prime 417514796639753 := by
  refine prime_of_witness 3
    [(2, 3), (7, 1), (367, 1), (2473, 1), (8214737, 1)]
    (by decide +kernel) ?_
  simp only [List.forall_mem_cons, List.not_mem_nil, false_imp_iff, implies_true, and_true]
  exact ⟨by norm_num, by norm_num, by norm_num, by norm_num, prime_8214737⟩

theorem prime_348253387243 : Nat.Prime 348253387243 := by
  refine prime_of_witness 3
    [(2, 1), (3, 1), (61, 1), (5303, 1), (179429, 1)]
    (by decide +kernel) ?_
  simp only [List.forall_mem_cons, List.not_mem_nil, false_imp_iff, implies_true, and_true]
  exact ⟨by norm_num, by norm_num, by norm_num, by norm_num, by norm_num⟩

/-- p is prime (R102). -/
theorem pSM2_prime : pSM2.Prime := by
  refine prime_of_witness 13
    [(2, 1), (43, 1), (30223, 1), (348253387243, 1), (4641351449027, 1), (417514796639753, 1), (66013261729388519804782124120027, 1)]
    (by decide +kernel) ?_
  simp only [List.forall_mem_cons, List.not_mem_nil, false_imp_iff, implies_true, and_true]
  exact ⟨by norm_num, by norm_num, by norm_num, prime_348253387243, prime_4641351449027, prime_417514796639753, prime_66013261729388519804782124120027⟩

theorem prime_10042883 : Nat.Prime 10042883 := by
  refine prime_of_witness 2
    [(2, 1), (1013, 1), (4957, 1)]
    (by decide +kernel) ?_
  simp only [List.forall_mem_cons, List.not_mem_nil, false_imp_iff, implies_true, and_true]
  exact ⟨by norm_num, by norm_num, by norm_num⟩

theorem prime_2368433183657 : Nat.Prime 2368433183657 := by
  refine prime_of_witness 3
    [(2, 3), (41, 1), (719, 1), (10042883, 1)]
    (by decide +kernel) ?_
  simp only [List.forall_mem_cons, List.not_mem_nil, false_imp_iff, implies_true, and_true]
  exact ⟨by norm_num, by norm_num, by norm_num, prime_10042883⟩

theorem prime_3258964060712033 : Nat.Prime 3258964060712033 := by
  refine prime_of_witness 3
    [(2, 5), (43, 1), (2368433183657, 1)]
    (by decide +kernel) ?_
  simp only [List.forall_mem_cons, List.not_mem_nil, false_imp_iff, implies_true, and_true]
  exact ⟨by norm_num, by norm_num, prime_2368433183657⟩

theorem prime_17965699 : Nat.Prime 17965699 := by
  refine prime_of_witness 2
    [(2, 1), (3, 1), (71, 1), (181, 1), (233, 1)]
    (by decide +kernel) ?_
  simp only [List.forall_mem_cons, List.not_mem_nil, false_imp_iff, implies_true, and_true]
  exact ⟨by norm_num, by norm_num, by norm_num, by norm_num, by norm_num⟩

theorem prime_107615843 : Nat.Prime 107615843 := by
  refine prime_of_witness 2
    [(2, 1), (43, 1), (103, 1), (12149, 1)]
    (by decide +kernel) ?_
  simp only [List.forall_mem_cons, List.not_mem_nil, false_imp_iff, implies_true, and_true]
  exact ⟨by norm_num, by norm_num, by norm_num, by norm_num⟩

theorem prime_9061163 : Nat.Prime 9061163 := by
  refine prime_of_witness 2
    [(2, 1), (11, 1), (71, 1), (5801, 1)]
    (by decide +kernel) ?_
  simp only [List.forall_mem_cons, List.not_mem_nil, false_imp_iff, implies_true, and_true]
  exact ⟨by norm_num, by norm_num, by norm_num, by norm_num⟩

theorem prime_5636460199499 : Nat.Prime 5636460199499 := by
  refine prime_of_witness 2
    [(2, 1), (31, 1), (79, 1), (127, 1), (9061163, 1)]
    (by decide +kernel) ?_
  simp only [List.forall_mem_cons, List.not_mem_nil, false_imp_iff, implies_true, and_true]
  exact ⟨by norm_num, by norm_num, by norm_num, by norm_num, prime_9061163⟩

theorem prime_101456283590983 : Nat.Prime 101456283590983 := by
  refine prime_of_witness 3
    [(2, 1), (3, 2), (5636460199499, 1)]
    (by decide +kernel) ?_
  simp only [List.forall_mem_cons, List.not_mem_nil, false_imp_iff, implies_true, and_true]
  exact ⟨by norm_num, by norm_num, prime_5636460199499⟩

theorem prime_2566129871 : Nat.Prime 2566129871 := by
  refine prime_of_witness 7
    [(2, 1), (5, 1), (3049, 1), (84163, 1)]
    (by decide +kernel) ?_
  simp only [List.forall_mem_cons, List.not_mem_nil, false_imp_iff, implies_true, and_true]
  exact ⟨by norm_num, by norm_num, by norm_num, by norm_num⟩

theorem prime_18120927127286907576013935251791662753637 : Nat.Prime 18120927127286907576013935251791662753637 := by
  refine prime_of_witness 6
    [(2, 2), (3, 2), (17965699, 1), (107615843, 1), (2566129871, 1), (101456283590983, 1)]
    (by decide +kernel) ?_
  simp only [List.forall_mem_cons, List.not_mem_nil, false_imp_iff, implies_true, and_true]
  exact ⟨by norm_num, by norm_num, prime_17965699, prime_107615843, prime_2566129871, prime_101456283590983⟩

theorem prime_125197554539772723432468576818475380947471091418362477724521 : Nat.Prime 125197554539772723432468576818475380947471091418362477724521 := by
  refine prime_of_witness 3
    [(2, 3), (5, 1), (53, 1), (3258964060712033, 1), (18120927127286907576013935251791662753637, 1)]
    (by decide +kernel) ?_
  simp only [List.forall_mem_cons, List.not_mem_nil, false_imp_iff, implies_true, and_true]
  exact ⟨by norm_num, by norm_num, by norm_num, prime_3258964060712033, prime_18120927127286907576013935251791662753637⟩

theorem prime_117774739 : Nat.Prime 117774739 := by
  refine prime_of_witness 2
    [(2, 1), (3, 2), (59, 1), (110899, 1)]
    (by decide +kernel) ?_
  simp only [List.forall_mem_cons, List.not_mem_nil, false_imp_iff, implies_true, and_true]
  exact ⟨by norm_num, by norm_num, by norm_num, by norm_num⟩

theorem prime_1413296869 : Nat.Prime 1413296869 := by
  refine prime_of_witness 6
    [(2, 2), (3, 1), (117774739, 1)]
    (by decide +kernel) ?_
  simp only [List.forall_mem_cons, List.not_mem_nil, false_imp_iff, implies_true, and_true]
  exact ⟨by norm_num, by norm_num, prime_117774739⟩

/-- n is prime (R102). -/
theorem nSM2_prime : nSM2.Prime := by
  refine prime_of_witness 3
    [(2, 1), (3, 1), (7759, 1), (14057, 1), (1413296869, 1), (125197554539772723432468576818475380947471091418362477724521, 1)]
    (by decide +kernel) ?_
  simp only [List.forall_mem_cons, List.not_mem_nil, false_imp_iff, implies_true, and_true]
  exact ⟨by norm_num, by norm_num, by norm_num, by norm_num, prime_1413296869, prime_125197554539772723432468576818475380947471091418362477724521⟩

end Sys2Proof.Machine
end

