-- ==== Sys2Proof/Laws/Sm3.lean ====
section
/-! SUPPORT. Absorbing bytes one by one, said by blocks (42_sm3.md R142, R145), and the length of padding (R141). -/
namespace Sys2Proof.Machine

/-- The valid bytes of the pending-block buffer (R25). -/
def Sm3Ctx.filled (x : Sm3Ctx) : Octets := x.buf.toList.take x.nbuf.val

@[simp] theorem Sm3Ctx.filled_length (x : Sm3Ctx) : x.filled.length = x.nbuf.val := by
  have := x.nbuf.isLt
  simp only [Sm3Ctx.filled, List.length_take, Vector.length_toList]
  omega

theorem take_succ_set (l : Octets) (n : Nat) (c : Byte) (h : n < l.length) :
    (l.set n c).take (n + 1) = l.take n ++ [c] := by
  rw [List.take_add_one, List.take_set_of_le le_rfl]
  simp [h]

/-- A byte that does not fill the buffer. -/
theorem absorbByte_short (x : Sm3Ctx) (c : Byte) (h : x.nbuf.val + 1 < 64) :
    (x.absorbByte c).V = x.V ∧ (x.absorbByte c).filled = x.filled ++ [c] ∧ (x.absorbByte c).phase = x.phase ∧
      (x.absorbByte c).bitlen = x.bitlen := by
  simp only [Sm3Ctx.absorbByte, h, dite_true, Sm3Ctx.filled, Vector.toList_set, true_and, and_true]
  exact take_succ_set _ _ _ (by simp)

/-- A byte that fills the buffer: the block is compressed and the buffer emptied. -/
theorem absorbByte_full (x : Sm3Ctx) (c : Byte) (h : ¬x.nbuf.val + 1 < 64) :
    (x.absorbByte c).V = sm3CF x.V (x.filled ++ [c]) ∧ (x.absorbByte c).filled = [] ∧
      (x.absorbByte c).phase = x.phase ∧ (x.absorbByte c).bitlen = x.bitlen ∧ (x.absorbByte c).buf = Vector.replicate 64 0 ∧
      (x.absorbByte c).nbuf = 0 := by
  have hlt := x.nbuf.isLt
  have hs := take_succ_set x.buf.toList x.nbuf.val c (by simp)
  rw [List.take_of_length_le (by simp; omega)] at hs
  simp only [Sm3Ctx.absorbByte, h, dite_false, Sm3Ctx.filled, Vector.toList_set, hs, and_true, true_and]
  simp

theorem sm3Blocks_append (v : Chain) (s t : Octets) (h : s.length % 64 = 0) :
    sm3Blocks v (s ++ t) = sm3Blocks (sm3Blocks v s) t := by
  simp [sm3Blocks, wholePieces_append (by norm_num) s t h]

theorem sm3Blocks_single (v : Chain) {s : Octets} (h : s.length = 64) : sm3Blocks v s = sm3CF v s := by
  simp [sm3Blocks, wholePieces_single (by norm_num) h]

theorem sm3Blocks_short (v : Chain) {s : Octets} (h : s.length < 64) : sm3Blocks v s = v := by
  simp [sm3Blocks, wholePieces_short h]

/-- Absorbing bytes one by one compresses the whole blocks of the valid bytes and the new bytes, and keeps the rest. -/
theorem foldl_absorbByte (x : Sm3Ctx) (s : Octets) :
    (s.foldl Sm3Ctx.absorbByte x).V = sm3Blocks x.V (x.filled ++ s) ∧
      (s.foldl Sm3Ctx.absorbByte x).filled = (x.filled ++ s).drop (64 * ((x.filled ++ s).length / 64)) ∧
      (s.foldl Sm3Ctx.absorbByte x).phase = x.phase ∧ (s.foldl Sm3Ctx.absorbByte x).bitlen = x.bitlen := by
  induction s generalizing x with
  | nil =>
    have hlt := x.nbuf.isLt
    have h0 : x.nbuf.val / 64 = 0 := by omega
    refine ⟨?_, ?_, rfl, rfl⟩
    · rw [sm3Blocks_short _ (by simp)]
      rfl
    · simp [h0]
  | cons c s ih =>
    have hlt := x.nbuf.isLt
    obtain ⟨h1, h2, h3, h4⟩ := ih (x.absorbByte c)
    simp only [List.foldl_cons]
    rw [h1, h2, h3, h4]
    by_cases hn : x.nbuf.val + 1 < 64
    · obtain ⟨a1, a2, a3, a4⟩ := absorbByte_short x c hn
      rw [a1, a2, a3, a4, List.append_assoc, List.singleton_append]
      exact ⟨rfl, rfl, rfl, rfl⟩
    · obtain ⟨a1, a2, a3, a4, -, -⟩ := absorbByte_full x c hn
      have hl : (x.filled ++ [c]).length = 64 := by simp; omega
      have he : x.filled ++ c :: s = (x.filled ++ [c]) ++ s := by simp
      have hd : 64 * (((x.filled ++ [c]) ++ s).length / 64) = (x.filled ++ [c]).length + 64 * (s.length / 64) := by
        rw [List.length_append, hl]; omega
      have hb : sm3Blocks x.V (x.filled ++ [c] ++ s) = sm3Blocks (sm3CF x.V (x.filled ++ [c])) s := by
        rw [sm3Blocks_append _ _ _ (by rw [hl]), sm3Blocks_single _ hl]
      rw [a1, a2, a3, a4, he, hb, hd, ← List.drop_drop, List.drop_left]
      exact ⟨rfl, rfl, rfl, rfl⟩

/-- Absorbing in two parts is absorbing the whole (R61, R143). -/
theorem absorb_absorb (x : Sm3Ctx) (s t : Octets) : (x.absorb s).absorb t = x.absorb (s ++ t) := by
  have hf : ∀ (y : Sm3Ctx) (b : BitVec 64) (u : Octets),
      u.foldl Sm3Ctx.absorbByte { y with bitlen := b } = { u.foldl Sm3Ctx.absorbByte y with bitlen := b } := by
    intro y b u
    induction u generalizing y with
    | nil => rfl
    | cons c u ih =>
      simp only [List.foldl_cons]
      rw [← ih]
      congr 1
      simp only [Sm3Ctx.absorbByte]
      split <;> rfl
  unfold Sm3Ctx.absorb
  rw [hf, List.foldl_append, List.length_append, Nat.mul_add, BitVec.ofNat_add, BitVec.add_assoc]

/-- The bytes of the buffer from nbuf on stay zero (R25, R145). -/
theorem absorbByte_tailZero (x : Sm3Ctx) (c : Byte) (h : ∀ i : Fin 64, x.nbuf.val ≤ i.val → x.buf[i.val] = 0) (i : Fin 64)
    (hi : (x.absorbByte c).nbuf.val ≤ i.val) : (x.absorbByte c).buf[i.val] = 0 := by
  by_cases hn : x.nbuf.val + 1 < 64
  · simp only [Sm3Ctx.absorbByte, hn, dite_true] at hi ⊢
    rw [Vector.getElem_set_ne _ _ (by omega)]
    exact h i (by omega)
  · obtain ⟨-, -, -, -, hb, -⟩ := absorbByte_full x c hn
    simp [hb]

theorem foldl_tailZero (x : Sm3Ctx) (s : Octets) (h : ∀ i : Fin 64, x.nbuf.val ≤ i.val → x.buf[i.val] = 0) (i : Fin 64)
    (hi : (s.foldl Sm3Ctx.absorbByte x).nbuf.val ≤ i.val) : (s.foldl Sm3Ctx.absorbByte x).buf[i.val] = 0 := by
  induction s generalizing x with
  | nil => exact h i hi
  | cons c s ih => exact ih (x.absorbByte c) (absorbByte_tailZero x c h) hi

/-- The one number of padding zeros below 64 (R141). -/
theorem sm3PadZeros_unique {n k : Nat} (hk : k < 64) (h : (n + 1 + k) % 64 = 56) : sm3PadZeros n = k := by
  unfold sm3PadZeros
  omega

end Sys2Proof.Machine
end

