-- ==== Sys2Proof/Tests/Slice0.lean ====
section
/-! SUPPORT. Smoke tests of WellFormed, words written out from 30_encoding.md, single steps against 95_test_vectors.md, and a
witness for the hypotheses of each statement. -/
namespace Sys2Proof.Tests
open Sys2Proof Sys2Proof.Machine

-- One theorem at a time: the check's memory limit has no room for a thread for each.
set_option Elab.async false

/-! ## States of the tests -/

/-- A machine at reset with both parameters given: `MAX_DIN_BYTES` = 96 and `GCM_DEC_BUF_BYTES` = 48. -/
def base : State := { State.reset with params := { maxDinExtra := some 0, gcmDecBufBytes := 48 } }

/-- The key K of 95_test_vectors.md as a block. -/
def keyK : Block := 0x0123456789abcdeffedcba9876543210

/-- An engine with key K loaded. -/
def keyedEngine : Engine := Engine.reset.withKey { keyValid := true, rk := sm4KeyExpand keyK }

/-- The machine with key K loaded. -/
def keyed : State := { base with engine := keyedEngine }

/-- The machine with key K and a session just begun. -/
def inSession (mode : Mode) (dir : Dir) (pad : Pad) (t : Fin 17) (iv : Octets) : State :=
  { keyed with engine := keyedEngine.startSession mode dir pad t iv }

/-- The machine with an SM3 context just begun, and `bits` message bits said to be absorbed. -/
def hashing (bits : BitVec 64) : State := { base with engine := { Engine.reset with sm3 := { Sm3Ctx.started with bitlen := bits } } }

/-- The machine with DIN. -/
def withDin (s : State) (din : Octets) : State := { s with din := din }

/-- The bytes of hex digits. -/
def hex (s : String) : Octets := (hexPairs s.toList).getD []

/-- The response of one step to one assembler line. -/
def answerTo (s : State) (line : String) : Option Response :=
  match assembleLine line with
  | some [c] =>
    (match step (s.offer c) with
    | .next t => t.responses.head?
    | .fault _ => none
    | .refused _ => none)
  | _ => none

/-- The response of one step to a command given as a pair. -/
def answerToWord (s : State) (cmd : BitVec 32) (din : Octets) : Option Response :=
  match step (s.offer ⟨cmd, din⟩) with
  | .next t => t.responses.head?
  | .fault _ => none
  | .refused _ => none

/-- The next state of one step on one command. -/
def after (s : State) (cmd : BitVec 32) (din : Octets) : Option State :=
  match step (s.offer ⟨cmd, din⟩) with
  | .next t => some t
  | .fault _ => none
  | .refused _ => none

/-- The operand a of section 2.2. -/
def opA : Nat := 0x32C4AE2C1F1981195F9904466A39C9948FE30BBFF2660BE1715A4589334C74C7

/-- The operand b of section 2.2. -/
def opB : Nat := 0xBC3736A2F4F6779C59BDCEE36B692153D0A9877CC62A474002DF32E52139F0A0

/-- A response with STATUS OK. -/
def okWith (dout : String) : Option Response := some ⟨.ok, hex dout⟩

/-- A response with an error. -/
def errWith (st : Status) : Option Response := some ⟨st, []⟩

/-! ## WellFormed -/

theorem test_wellFormed_all_fields : (Instr.modeInit 15 .dec .pkcs7 31).wellFormed = true := by decide
theorem test_wellFormed_refuses_mode : (Instr.modeInit 16 .enc .noPadding 0).wellFormed = false := by decide
theorem test_wellFormed_refuses_tagLen : (Instr.modeInit 3 .enc .noPadding 32).wellFormed = false := by decide

/-! ## Decode: every opcode of R68, and format M bit by bit (R67) -/

theorem test_decode_control :
    decode 0x00000000 = .command .nop ∧ decode 0x00000001 = .command .getState ∧
      decode 0x00000002 = .command .engineReset := by decide

theorem test_decode_sm3 :
    decode 0x00000010 = .command .sm3Init ∧ decode 0x00000011 = .command .sm3Update ∧
      decode 0x00000012 = .command .sm3Final ∧ decode 0x00000013 = .command .sm3Oneshot ∧
      decode 0x00000014 = .command .sm3Compress ∧ decode 0x00000015 = .command .sm3Expand := by decide

theorem test_decode_sm4 :
    decode 0x00000020 = .command .sm4SetKey ∧ decode 0x00000021 = .command .sm4EncBlock ∧
      decode 0x00000022 = .command .sm4DecBlock ∧ decode 0x00000023 = .command .sm4ClearKey := by decide

theorem test_decode_mode :
    decode 0x00000031 = .command .modeAad ∧ decode 0x00000032 = .command .modeUpdate ∧
      decode 0x00000033 = .command .modeFinal ∧ decode 0x00000034 = .command .modeAbort := by decide

/-- MODE = 0101, DIR = 0, PAD = 1, TAGLEN = 10110: bits 000 0000 0000 10110 00 1 0 0101 0011 0000. -/
theorem test_decode_modeInit : decode 0b00000000000101100010010100110000 = .command (.modeInit 5 .enc .pkcs7 22) := by
  decide

theorem test_decode_modular :
    decode 0x00000040 = .command .fpAdd ∧ decode 0x00000041 = .command .fpSub ∧ decode 0x00000042 = .command .fpMul ∧
      decode 0x00000043 = .command .fpSqr ∧ decode 0x00000044 = .command .fpInv ∧ decode 0x00000048 = .command .fnAdd ∧
      decode 0x00000049 = .command .fnSub ∧ decode 0x0000004A = .command .fnMul ∧
      decode 0x0000004B = .command .fnSqr ∧ decode 0x0000004C = .command .fnInv := by decide

/-- The neighbours of each run of the map, and each reserved field at its ends (R73, R74). -/
theorem test_decode_illegal :
    decode 0x00000003 = .illegal .unassignedOpcode ∧ decode 0x00000016 = .illegal .unassignedOpcode ∧
      decode 0x00000024 = .illegal .unassignedOpcode ∧ decode 0x00000035 = .illegal .unassignedOpcode ∧
      decode 0x00000045 = .illegal .unassignedOpcode ∧ decode 0x0000004D = .illegal .unassignedOpcode ∧
      decode 0x80000000 = .illegal .reservedBits ∧ decode 0x00000100 = .illegal .reservedBits ∧
      decode 0x80000030 = .illegal .reservedBits ∧ decode 0x00200030 = .illegal .reservedBits ∧
      decode 0x00004030 = .illegal .reservedBits := by decide

theorem test_decodeTableWord :
    decodeTableWord 32 0x00000313 = none ∧ decodeTableWord 8 0x00000313 = some .sm3Oneshot := by decide

/-! ## Steps, with the expected values of 95_test_vectors.md -/

/-- The first command after reset runs, whatever the parameters are. -/
theorem test_step_from_reset :
    step (State.reset.withFetchWord 32 0x00000001) = .next { State.reset with responses := [⟨.ok, [0, 0, 0, 0]⟩] } := rfl

theorem test_step_waits : step base = .next base := rfl

theorem test_illegal_word : answerToWord base 0x00000101 [] = errWith .illegalCommand := by decide

/-- A DIN over `MAX_DIN_BYTES` (R59). -/
theorem test_din_limit : answerToWord base 0x00000011 (List.replicate 97 0) = errWith .invalidInputLength := by decide

/-- T-CTL-2, T-CTL-3. -/
theorem test_nop : answerTo base "nop" = okWith "" ∧ answerTo base "nop 78" = errWith .invalidInputLength := by decide

/-- T-CTL-4. -/
theorem test_getState :
    answerTo (inSession .gcm .enc .noPadding 16 (bytesK 12 0)) "state" = okWith "06030010" := by decide +kernel

theorem test_engineReset :
    after (inSession .cbc .dec .pkcs7 0 (bytesK 16 1)) 0x02 [] =
      some { base with responses := [⟨.ok, []⟩] } := by decide +kernel

/-- T-MOD-1. -/
theorem test_fpAdd : answerToWord base 0x40 (toBE 32 opA ++ toBE 32 opB) =
    okWith "EEFBE4CF140FF8B5B956D329D5A2EAE8608C933CB89053217439786E54866567" := by decide +kernel

/-- T-MOD-11. -/
theorem test_fpSub : answerToWord base 0x41 (toBE 32 0 ++ toBE 32 1) =
    okWith "FFFFFFFEFFFFFFFFFFFFFFFFFFFFFFFFFFFFFFFF00000000FFFFFFFFFFFFFFFE" := by decide +kernel

/-- T-MOD-3. -/
theorem test_fpMul : answerToWord base 0x42 (toBE 32 opA ++ toBE 32 opB) =
    okWith "EDD7E745BDC4630CCFA1DA1057033A525346DBF202F082F3C431349991ACE76A" := by decide +kernel

/-- T-MOD-4. -/
theorem test_fpSqr : answerToWord base 0x43 (toBE 32 opA) =
    okWith "F4E2CCA0BCFD67FBA8531EEBFF519E4CB3D47F9FE8C5EFF5151F4C497EC99FBF" := by decide +kernel

/-- T-MOD-5. -/
theorem test_fpInv : answerToWord base 0x44 (toBE 32 opA) =
    okWith "053B878FB82E213C17E554B9A574B7BD31775222704B7FD9C7D6F8441026CD80" := by decide +kernel

/-- T-MOD-21. -/
theorem test_fpInv_zero : answerToWord base 0x44 (toBE 32 0) = errWith .invalidOperand := by decide +kernel

/-- T-MOD-16. -/
theorem test_fnAdd : answerToWord base 0x48 (toBE 32 (nSM2 - 1) ++ toBE 32 (nSM2 - 1)) =
    okWith "FFFFFFFEFFFFFFFFFFFFFFFFFFFFFFFF7203DF6B21C6052B53BBF40939D54121" := by decide +kernel

/-- T-MOD-25: p − 1 is no operand modulo n. -/
theorem test_fnAdd_operand : answerToWord base 0x48 (toBE 32 (pSM2 - 1) ++ toBE 32 0) = errWith .invalidOperand := by
  decide +kernel

/-- T-MOD-2. -/
theorem test_fnSub : answerToWord base 0x49 (toBE 32 opA ++ toBE 32 opB) =
    okWith "768D77882A23097D05DB3562FED0A840313D63AE4E01C9CCC23706AD4BE7C54A" := by decide +kernel

/-- T-MOD-3. -/
theorem test_fnMul : answerToWord base 0x4A (toBE 32 opA ++ toBE 32 opB) =
    okWith "CF7296D5CBF0B64BB5E9A11B294962E9C779B41C038E9C8D815234A0DF9D6623" := by decide +kernel

/-- T-MOD-4. -/
theorem test_fnSqr : answerToWord base 0x4B (toBE 32 opA) =
    okWith "82D3D1B296D3A3803888B7FFC78F23ECA824E7EC8D7DDAF231FFB0D256A19DA2" := by decide +kernel

/-- T-MOD-6. -/
theorem test_fnInv : answerToWord base 0x4C (toBE 32 3) =
    okWith "AAAAAAA9FFFFFFFFFFFFFFFFFFFFFFFFA157EA476BD958C78D27F806268E2B6D" := by decide +kernel

theorem test_sm3Init : answerTo base "sm3.init" = okWith "" := by decide

/-- T-SM3-22. -/
theorem test_sm3Update_idle : answerTo base "sm3.update \"abc\"" = errWith .sequenceError := by decide

/-- The pending bytes and the bit count after SM3_UPDATE "abc" (R145). -/
theorem test_sm3Update :
    after (hashing 0) 0x11 [0x61, 0x62, 0x63] = some { hashing 0 with
      engine := { Engine.reset with sm3 := { Sm3Ctx.started with
        buf := ((Vector.replicate 64 0).set 0 0x61).set 1 0x62 |>.set 2 0x63, nbuf := 3, bitlen := 24 } }
      responses := [⟨.ok, []⟩] } := by decide +kernel

/-- T-SM3-21. -/
theorem test_sm3Final : answerTo (hashing 0) "sm3.final" =
    okWith "1ab21d8355cfa17f8e61194831e81a8f22bec8c728fefb747ed035eb5082aa2b" := by decide +kernel

/-- T-SM3-23, its second SM3_FINAL. -/
theorem test_sm3Final_idle : answerTo base "sm3.final" = errWith .sequenceError := by decide

/-- T-SM3-2. -/
theorem test_sm3Oneshot : answerTo base "sm3.oneshot \"abc\"" =
    okWith "66c7f0f462eeedd9d1f2d46bdc10e4e24167c4875cf2f7a2297da02b8f4ba8e0" := by decide +kernel

/-- T-SM3-12. -/
theorem test_sm3Compress : answerToWord base 0x14 (sm3Iv.bytes ++ bytesK 64 0) =
    okWith "a1203a404a5566cd536fcee820df7e1335c58f56b7c4c62e813c32cc47bf9b6c" := by decide +kernel

/-- T-SM3-10: W[66], W[67], W′[0] and W′[63] of Pad("abc"). -/
theorem test_sm3Expand : ((answerToWord base 0x15 (sm3Pad [0x61, 0x62, 0x63])).map fun r =>
    ((r.dout.drop 264).take 12, r.dout.drop 524)) = some (hex "e11db9ddb99c054561626380", hex "49e260d5") := by
  decide +kernel

/-- T-SM4-2: rk[0] and rk[31] of K. -/
theorem test_sm4SetKey : (sm4KeyExpand keyK)[0] = 0xf12186f9 ∧ (sm4KeyExpand keyK)[31] = 0x9124a012 := by decide +kernel

/-- T-SM4-13. -/
theorem test_sm4SetKey_length : answerToWord base 0x20 (bytesK 17 0) = errWith .invalidKey := by decide

/-- T-SM4-4. -/
theorem test_sm4EncBlock : answerTo keyed "sm4.enc.block 0123456789abcdeffedcba9876543210" =
    okWith "681edf34d206965e86b3e94f536e4246" := by decide +kernel

/-- T-SM4-15. -/
theorem test_sm4EncBlock_no_key : answerToWord base 0x21 (bytesK 15 0) = errWith .sequenceError := by decide

/-- T-SM4-8. -/
theorem test_sm4DecBlock : answerTo keyed "sm4.dec.block 0123456789abcdeffedcba9876543210" =
    okWith "9338375e82eec1cbbef65edf8757a631" := by decide +kernel

/-- T-SM4-17. -/
theorem test_sm4ClearKey : after keyed 0x23 [] = some { base with responses := [⟨.ok, []⟩] } := by
  decide +kernel

/-- T-MODE-1. -/
theorem test_modeInit_mode : answerToWord keyed 0x00000430 [] = errWith .invalidParameter := by decide +kernel

/-- T-MODE-5, T-GCM-17. -/
theorem test_modeInit_tagLen :
    answerTo keyed "mode.init ecb, enc, t=4" = errWith .invalidParameter ∧
      answerTo keyed "mode.init gcm, enc, t=17, 00" = errWith .invalidParameter := by decide +kernel

/-- T-MODE-4. -/
theorem test_modeAad_not_gcm : answerTo (inSession .ecb .enc .noPadding 0 []) "mode.aad 61" = errWith .sequenceError := by
  decide +kernel

/-- Three bytes of AAD wait in gpend (R247, R248). -/
theorem test_modeAad : ((after (inSession .gcm .enc .noPadding 16 (bytesK 12 0)) 0x31 [0x61, 0x62, 0x63]).map fun t =>
    (t.engine.gcm.gpend, t.engine.gcm.alen, t.engine.gcm.X)) = some ([0x61, 0x62, 0x63], 3, 0) := by decide +kernel

/-- T-CTR-4: the counter wraps from 2^128 − 1 to 0. -/
theorem test_modeUpdate_ctr : answerToWord (inSession .ctr .enc .noPadding 0 (bytesK 16 0xff)) 0x32 (bytesK 32 0) =
    okWith "6811af7e097364e786fb45ce5d9a60f02677f46b09c122cc975533105bd4a22a" := by decide +kernel

/-- T-GCM-4, its update. -/
theorem test_modeUpdate_gcm : answerToWord (inSession .gcm .enc .noPadding 16 (bytesK 12 0)) 0x32 (bytesK 16 0) =
    okWith "b3136c044e95482d4f652e694f2741cd" := by decide +kernel

/-- T-ECB-3. -/
theorem test_modeFinal_pkcs7 : answerTo (inSession .ecb .enc .pkcs7 0 []) "mode.final" =
    okWith "002a8a4efa863ccad024ac0300bb40d2" := by decide +kernel

/-- T-GCM-1. -/
theorem test_modeFinal_gcm : answerTo (inSession .gcm .enc .noPadding 16 (bytesK 12 0)) "mode.final" =
    okWith "4e595bf03f23bd10329baf5698e898ec" := by decide +kernel

/-- T-MODE-7. -/
theorem test_modeAbort : after (inSession .cbc .enc .noPadding 0 (bytesK 16 0)) 0x34 [] =
    some { keyed with responses := [⟨.ok, []⟩] } := by decide +kernel

/-- T-GCM-5: GFMul through an 8-byte IV's J0. -/
theorem test_gfMul : gcmJ0 0x2677f46b09c122cc975533105bd4a22a (hex "cafebabefacedbad") = 0x92130fb8aea18961935d9e1a8f62a107 := by
  decide +kernel

theorem test_assembler_rejects :
    assembleLine "mode.init xts, enc" = none ∧ assembleLine "sm3.update \"abc" = none ∧ assembleLine "  ; a comment" = some [] := by
  decide

/-! ## Witnesses: concrete values that meet the hypotheses of each statement, at the ends of each clause -/

theorem witness_DecodeEncodeRoundTrip :
    (Instr.modeInit 15 .dec .pkcs7 31).wellFormed = true ∧ (Instr.modeInit 0 .enc .noPadding 0).wellFormed = true ∧
      Instr.fnInv.wellFormed = true := by decide

theorem witness_LegalWordIsItsEncoding :
    decode 0x001F3F30 = .command (.modeInit 15 .dec .pkcs7 31) ∧ decode 0x4C = .command .fnInv := by decide

/-- Every clause of R79's rejected selections at its ends. -/
theorem witness_LegalWordCount : keyed.engine.sm4.keyValid = true ∧
    ∀ x ∈ [(4, Pad.noPadding, 0), (15, .noPadding, 31), (2, .pkcs7, 0), (3, .pkcs7, 16), (0, .noPadding, 1),
        (2, .noPadding, 31), (3, .noPadding, 1), (3, .noPadding, 11), (3, .noPadding, 17), (3, .noPadding, 31)],
      x.1 < 16 ∧ x.2.2 < 32 ∧ (4 ≤ x.1 ∨ (x.2.1 = .pkcs7 ∧ (x.1 = 2 ∨ x.1 = 3)) ∨ (x.1 ≠ 3 ∧ x.2.2 ≠ 0) ∨
        (x.1 = 3 ∧ x.2.2 ≠ 0 ∧ (x.2.2 < 12 ∨ 16 < x.2.2))) := by decide +kernel

theorem witness_IllegalWordChangesNothing :
    (base.offer ⟨0xFF, [1]⟩).pending = .command ⟨0xFF, [1]⟩ :: [] ∧
      unassignedOpcode 0x03 = true ∧ unassignedOpcode 0xFF = true ∧
      (0x00204030 : BitVec 32).toNat % 256 = 0x30 ∧ (0x00200030 : BitVec 32).toNat / 2 ^ 21 ≠ 0 ∧
      (0x00008030 : BitVec 32).toNat / 2 ^ 14 % 4 ≠ 0 ∧
      (0x80000001 : BitVec 32).toNat % 256 ≠ 0x30 ∧ (0x80000001 : BitVec 32).toNat / 256 ≠ 0 := by decide

theorem witness_StepRunsDecodedCommand :
    (base.offer ⟨0x11, bytesK 96 0⟩).pending = .command ⟨0x11, bytesK 96 0⟩ :: [] ∧
      decode 0x11 = .command .sm3Update ∧ base.params.maxDin = some 96 ∧ (bytesK 96 0).length ≤ 96 := by decide

theorem witness_DinLimitBeforeCommandChecks :
    (base.offer ⟨0x11, bytesK 97 0⟩).pending = .command ⟨0x11, bytesK 97 0⟩ :: [] ∧
      decode 0x11 = .command .sm3Update ∧ base.params.maxDin = some 96 ∧ 96 < (bytesK 97 0).length := by decide

theorem witness_ResetEventRestoresResetValues :
    { keyed with pending := [.resetEvent, .resetEvent] }.pending = .resetEvent :: [.resetEvent] := rfl

/-- For every statement that asks only whether DIN is ε: NopRule, EngineResetRule, Sm3InitRule, Sm4ClearKeyRule, ModeAbortRule. -/
theorem witness_NopRule : (withDin keyed [0]).din ≠ [] ∧ keyed.din = [] := by decide +kernel

theorem witness_EngineResetRule : (withDin keyed [0]).din ≠ [] ∧ keyed.din = [] ∧
    exec .engineReset keyed = .next (keyed.complete ⟨.reset, .ok, []⟩) ∧
    step { keyed with pending := .resetEvent :: [] } = .next (keyed.takeReset []) := ⟨by decide, rfl, rfl, rfl⟩

theorem witness_Sm3InitRule : (withDin (hashing 8) [0]).din ≠ [] ∧ (hashing 8).din = [] := by decide

theorem witness_Sm4ClearKeyRule : (withDin keyed [0]).din ≠ [] ∧ keyed.din = [] := by decide +kernel

theorem witness_ModeAbortRule : (withDin (inSession .ecb .enc .noPadding 0 []) [0]).din ≠ [] ∧
    (inSession .ecb .enc .noPadding 0 []).din = [] := by decide +kernel

theorem keyed_inv : keyed.Inv where
  sm3 := { idle := fun _ => rfl, wholeBytes := rfl, pending := rfl, tailZero := fun i _ => by simp [keyed, keyedEngine, Sm3Ctx.idle] }
  sm4 := fun h => by simp [keyed, keyedEngine] at h
  idleSession := fun _ => ⟨rfl, rfl⟩
  activeSession := fun h => by simp [keyed, keyedEngine] at h

theorem witness_GetStateRule : (withDin keyed [0]).din ≠ [] ∧ keyed.din = [] ∧ keyed.Inv ∧
    keyed.engine.sess.phase = .idle ∧ keyed.engine.sm3.phase = .idle := ⟨by decide, rfl, keyed_inv, rfl, rfl⟩

theorem witness_ModCheckRule :
    (withDin base (bytesK 63 0)).din.length ≠ 64 ∧ (toBE 32 pSM2 ++ toBE 32 0).length = 64 ∧
      pSM2 ≤ beNat ((toBE 32 pSM2 ++ toBE 32 0).take 32) ∧ nSM2 ≤ beNat ((toBE 32 0 ++ toBE 32 nSM2).drop 32) ∧
      (withDin base (bytesK 64 0)).din.length ≠ 32 ∧ (toBE 32 nSM2).length = 32 ∧ nSM2 ≤ beNat (toBE 32 nSM2) := by
  decide +kernel

theorem witness_ModAddResult : pSM2 - 1 < pSM2 ∧ nSM2 - 1 < nSM2 ∧
    (withDin base (toBE 32 (nSM2 - 1) ++ toBE 32 (nSM2 - 1))).din = toBE 32 (nSM2 - 1) ++ toBE 32 (nSM2 - 1) := by
  decide +kernel

theorem witness_ModSubResult : 0 < pSM2 ∧ 1 < nSM2 ∧
    (withDin base (toBE 32 0 ++ toBE 32 1)).din = toBE 32 0 ++ toBE 32 1 := by decide +kernel

theorem witness_ModMulResult : pSM2 - 1 < pSM2 ∧ nSM2 - 1 < nSM2 ∧
    (withDin base (toBE 32 2 ++ toBE 32 (pSM2 - 1))).din = toBE 32 2 ++ toBE 32 (pSM2 - 1) := by decide +kernel

theorem witness_ModSqrResult : pSM2 - 1 < pSM2 ∧ nSM2 - 1 < nSM2 ∧
    (withDin base (toBE 32 (nSM2 - 1))).din = toBE 32 (nSM2 - 1) := by decide +kernel

/-- Both ends of the range, and 0. -/
theorem witness_ModInvResult : 0 < 1 ∧ 1 < pSM2 ∧ 0 < nSM2 - 1 ∧ nSM2 - 1 < nSM2 ∧
    (withDin base (toBE 32 (nSM2 - 1))).din = toBE 32 (nSM2 - 1) ∧
    (withDin base (toBE 32 0)).din = toBE 32 0 := by decide +kernel

theorem witness_ModularLaws : pSM2 ∈ [pSM2, nSM2] ∧ nSM2 ∈ [pSM2, nSM2] ∧ pSM2 - 1 < pSM2 ∧ 0 < nSM2 ∧ pSM2 - 1 ≠ 0 := by
  decide +kernel

/-- The last message byte that is accepted, and the first that is not. -/
theorem witness_Sm3UpdateRule : base.engine.sm3.phase = .idle ∧
    (hashing (2 ^ 64 - 8)).engine.sm3.phase = .active ∧
    2 ^ 64 ≤ (hashing (2 ^ 64 - 8)).engine.sm3.bitlen.toNat + 8 * (withDin (hashing (2 ^ 64 - 8)) [0]).din.length ∧
    (hashing (2 ^ 64 - 16)).engine.sm3.bitlen.toNat + 8 * (withDin (hashing (2 ^ 64 - 16)) [0]).din.length < 2 ^ 64 := by
  decide +kernel

theorem witness_Sm3FinalRule : base.engine.sm3.phase = .idle ∧ (hashing 0).engine.sm3.phase = .active ∧
    (withDin (hashing 0) [0]).din ≠ [] ∧ (hashing 0).din = [] ∧ 55 < 64 ∧
    ((hashing 0).engine.sm3.nbuf.val + 1 + 55) % 64 = 56 := by decide

theorem witness_Sm3OneshotRule : 2 ^ 64 ≤ 8 * (withDin base (bytesK (2 ^ 61) 0)).din.length ∧
    8 * (withDin base (bytesK 56 0)).din.length < 2 ^ 64 ∧ 63 < 64 ∧
    ((withDin base (bytesK 56 0)).din.length + 1 + 63) % 64 = 56 := by
  simp [withDin]

theorem witness_Sm3CompressRule : (withDin base (bytesK 95 0)).din.length ≠ 96 ∧ (bytesK 64 1).length = 64 ∧
    (withDin base (sm3Iv.bytes ++ bytesK 64 1)).din = sm3Iv.bytes ++ bytesK 64 1 := by decide

theorem witness_Sm3ExpandRule : (withDin base (bytesK 63 0)).din.length ≠ 64 ∧
    (withDin base (bytesK 64 0)).din.length = 64 := by decide

theorem witness_Sm3StreamingEqualsOneshot : allFit base.params [bytesK 96 0, [], [1]] ∧
    8 * [bytesK 96 0, [], [1]].flatten.length < 2 ^ 64 := by
  constructor
  · intro d hd
    simp at hd
    rcases hd with rfl | rfl | rfl <;> decide
  · decide

theorem witness_Sm4SetKeyRule : (withDin keyed (bytesK 15 0)).din.length ≠ 16 ∧
    (withDin keyed (bytesK 16 0)).din.length = 16 := by decide

theorem witness_Sm4BlockRule : base.engine.sm4.keyValid = false ∧ keyed.engine.sm4.keyValid = true ∧
    (withDin keyed (bytesK 32 0)).din.length ≠ 16 ∧ (withDin keyed (bytesK 16 0)).din.length = 16 := by decide +kernel

theorem witness_Sm4DecryptInvertsEncrypt : (withDin keyed (bytesK 16 0)).engine.sm4.keyValid = true ∧
    (withDin keyed (bytesK 16 0)).din.length = 16 := by decide +kernel

/-- Each rejected selection and IV length of MODE_INIT at its ends. -/
theorem witness_ModeInitRejects : base.engine.sm4.keyValid = false ∧ keyed.engine.sm4.keyValid = true ∧
    (withDin keyed [0]).din ≠ [] ∧ (withDin keyed (bytesK 15 0)).din.length ≠ 16 ∧ keyed.din = [] ∧
    2 ^ 61 ≤ (withDin keyed (bytesK (2 ^ 61) 0)).din.length ∧ (11 < 12 ∨ 16 < 11) ∧ (17 < 12 ∨ 16 < 17) := by
  refine ⟨rfl, rfl, by simp [withDin], by simp [withDin], rfl, by simp [withDin], by omega, by omega⟩

theorem witness_ModeInitEcbCbcCtr : keyed.engine.sm4.keyValid = true ∧ (withDin keyed [0]).din ≠ [] ∧ keyed.din = [] ∧
    (withDin keyed (bytesK 17 0)).din.length ≠ 16 ∧ (withDin keyed (bytesK 16 0)).din.length = 16 := by decide +kernel

/-- 32 bytes: PKCS7 decryption holds the last 16 back, every other session processes all of them; and no byte at all. -/
def cbcDec : State := withDin (inSession .cbc .dec .pkcs7 0 (bytesK 16 0)) (bytesK 32 0)

/-- The same data in an encryption session of each block mode. -/
def blockEnc (mode : Mode) : State := withDin (inSession mode .enc .noPadding 0 (bytesK 16 0)) (bytesK 32 0)

theorem witness_ModeUpdateBlocksRule : base.engine.sess.phase = .idle ∧
    (cbcDec.engine.sess.phase = .active ∧ cbcDec.engine.sess.mode = .cbc ∧ cbcDec.engine.sess.dir = .dec ∧
      cbcDec.engine.sess.pad = .pkcs7 ∧ 16 % 16 = 0 ∧ 16 < (cbcDec.engine.sess.pend ++ cbcDec.din).length ∧
      (cbcDec.engine.sess.pend ++ cbcDec.din).length ≤ 16 + 16) ∧
    ((withDin cbcDec []).engine.sess.pend ++ (withDin cbcDec []).din = [] ∧ 0 % 16 = 0) ∧
    ∀ mode ∈ [Mode.ecb, .cbc], (blockEnc mode).engine.sess.phase = .active ∧ (blockEnc mode).engine.sess.mode = mode ∧
      (blockEnc mode).engine.sess.dir = .enc ∧ 32 % 16 = 0 ∧
      32 ≤ ((blockEnc mode).engine.sess.pend ++ (blockEnc mode).din).length ∧
      ((blockEnc mode).engine.sess.pend ++ (blockEnc mode).din).length < 32 + 16 := by decide +kernel

theorem witness_ModeUpdateCtrRule : (inSession .ctr .enc .noPadding 0 (bytesK 16 0)).engine.sess.phase = .active ∧
    (inSession .ctr .enc .noPadding 0 (bytesK 16 0)).engine.sess.mode = .ctr := by decide +kernel

theorem witness_ModeFinalWithoutPadding : base.engine.sess.phase = .idle ∧
    (inSession .cbc .dec .noPadding 0 (bytesK 16 0)).engine.sess.phase = .active ∧
    (inSession .cbc .dec .noPadding 0 (bytesK 16 0)).engine.sess.mode = .cbc ∧
    (inSession .cbc .dec .noPadding 0 (bytesK 16 0)).engine.sess.pad = .noPadding ∧
    (inSession .ctr .enc .noPadding 0 (bytesK 16 0)).engine.sess.mode = .ctr := by decide +kernel

/-- A CBC encryption session with 15 bytes pending. -/
def pendingEnc : State := { keyed with engine := { keyedEngine with
  sess := { Session.idle with phase := .active, mode := .cbc, pad := .pkcs7, pend := bytesK 15 7 } } }

theorem pendingEnc_inv : pendingEnc.Inv where
  sm3 := keyed_inv.sm3
  sm4 := keyed_inv.sm4
  idleSession := fun h => by simp [pendingEnc] at h
  activeSession := fun _ =>
    { keyed := rfl, padding := rfl, tagLength := by simp [pendingEnc, Session.idle], chain := fun h => absurd rfl h
      pend := by simp [pendingEnc, pendLimit, isBlockMode, Session.idle], counter := fun _ => ⟨rfl, rfl, rfl⟩
      noGcm := fun _ => rfl, gcm := fun h => by simp [pendingEnc] at h }

theorem witness_ModeFinalPkcs7Encrypt : pendingEnc.engine.sess.phase = .active ∧ pendingEnc.engine.sess.mode = .cbc ∧
    pendingEnc.engine.sess.pad = .pkcs7 ∧ pendingEnc.engine.sess.dir = .enc ∧ pendingEnc.din = [] ∧ pendingEnc.Inv ∧
    (withDin pendingEnc [0]).din ≠ [] :=
  ⟨rfl, rfl, rfl, rfl, rfl, pendingEnc_inv, by simp [withDin]⟩

/-- An ECB decryption session that holds a block back. -/
def heldBack (block : Octets) : State := { keyed with engine := { keyedEngine with
  sess := { Session.idle with phase := .active, dir := .dec, pad := .pkcs7, pend := block } } }

/-- Both outcomes of the padding check: the encrypted full padding block (T-ECB-2), and K's own encryption (T-ECB-4); and a
block that is not whole. -/
theorem witness_ModeFinalPkcs7Decrypt :
    (∀ held ∈ [hex "002a8a4efa863ccad024ac0300bb40d2", hex "681edf34d206965e86b3e94f536e4246"],
      (heldBack held).engine.sess.phase = .active ∧ (heldBack held).engine.sess.mode = .ecb ∧
      (heldBack held).engine.sess.pad = .pkcs7 ∧ (heldBack held).engine.sess.dir = .dec ∧ (heldBack held).din = [] ∧
      (heldBack held).engine.sess.pend.length = 16) ∧
    bytesOfBlock (sm4Decrypt keyedEngine.sm4.rk 0x002a8a4efa863ccad024ac0300bb40d2) = bytesK 16 16 ∧
    bytesOfBlock (sm4Decrypt keyedEngine.sm4.rk 0x681edf34d206965e86b3e94f536e4246) = bytesOfBlock keyK ∧
    (heldBack (bytesK 15 0)).engine.sess.pend.length ≠ 16 ∧ (withDin (heldBack (bytesK 16 0)) [0]).din ≠ [] := by
  decide +kernel

theorem witness_SessionEncryptsOneShot : Mode.ofField 1 = some .cbc ∧ Mode.cbc ≠ .gcm ∧ padAllowed .cbc .pkcs7 = true ∧
    ivLengthAllowed .cbc (bytesK 16 0).length = true ∧ keyed.engine.sm4.keyValid = true ∧
    allFit keyed.params [[1, 2], [], [3]] ∧ admissible .cbc .pkcs7 [[1, 2], [], [3]].flatten := by
  refine ⟨rfl, by decide, rfl, rfl, rfl, ?_, trivial⟩
  intro d hd
  simp at hd
  rcases hd with rfl | rfl | rfl <;> rfl

theorem witness_SessionDecryptsItsEncryption : Mode.ofField 0 = some .ecb ∧ Mode.ecb ≠ .gcm ∧
    padAllowed .ecb .noPadding = true ∧ ivLengthAllowed .ecb ([] : Octets).length = true ∧
    keyed.engine.sm4.keyValid = true ∧
    allFit keyed.params [hex "681edf34d206965e", hex "86b3e94f536e4246"] ∧
    admissible .ecb .noPadding (bytesOfBlock keyK) ∧
    [hex "681edf34d206965e", hex "86b3e94f536e4246"].flatten =
      oneShotCipher keyedEngine.sm4.rk .ecb .noPadding [] (bytesOfBlock keyK) := by
  refine ⟨rfl, by decide, rfl, rfl, rfl, ?_, by simp [admissible], by decide +kernel⟩
  intro d hd
  simp at hd
  rcases hd with rfl | rfl <;> decide

theorem witness_Pkcs7PadUnpad : (bytesK 16 16) ≠ [] ∧ (bytesK 16 16).length % 16 = 0 := by decide

theorem witness_GcmInitRule : keyed.engine.sm4.keyValid = true ∧ (12 ≤ 12 ∧ 12 ≤ 16) ∧ (12 ≤ 16 ∧ 16 ≤ 16) ∧
    1 ≤ (withDin keyed [0]).din.length ∧ (withDin keyed (bytesK (2 ^ 61 - 1) 0)).din.length < 2 ^ 61 ∧
    (withDin keyed (bytesK 12 0)).din.length = 12 ∧ (withDin keyed [0]).din.length ≠ 12 := by
  refine ⟨rfl, by omega, by omega, by simp [withDin], by simp [withDin], by simp [withDin], by simp [withDin]⟩

/-- A GCM session with its counts and direction given. -/
def gcmAt (dir : Dir) (alen clen : BitVec 64) (started : Bool) : State := { keyed with engine := { keyedEngine with
  sess := { Session.idle with phase := .active, mode := .gcm, dir := dir, t := 16 }
  gcm := { Gcm.idle with alen := alen, clen := clen, started := started } } }

/-- The first AAD byte over the limit, and the last within it. -/
theorem witness_ModeAadRule : base.engine.sess.phase = .idle ∧
    (inSession .ecb .enc .noPadding 0 []).engine.sess.mode ≠ .gcm ∧ (gcmAt .enc 0 0 true).engine.gcm.started = true ∧
    (∀ n ∈ [0x1FFFFFFFFFFFFFFF, 0x1FFFFFFFFFFFFFFE], (gcmAt .enc (BitVec.ofNat 64 n) 0 false).engine.sess.phase = .active ∧
      (gcmAt .enc (BitVec.ofNat 64 n) 0 false).engine.sess.mode = .gcm ∧ (gcmAt .enc (BitVec.ofNat 64 n) 0 false).engine.gcm.started = false) ∧
    2 ^ 61 ≤ (gcmAt .enc 0x1FFFFFFFFFFFFFFF#64 0 false).engine.gcm.alen.toNat + 1 ∧
    (gcmAt .enc 0x1FFFFFFFFFFFFFFE#64 0 false).engine.gcm.alen.toNat + 1 < 2 ^ 61 ∧
    (withDin (gcmAt .enc 0 0 false) [0]).din.length = 1 := by
  decide +kernel

/-- The last data byte that is accepted, and the first that is not. -/
theorem witness_GcmUpdateEncrypt : base.engine.sess.phase = .idle ∧
    (∀ n ∈ [0xFFFFFFFDF, 0xFFFFFFFE0], (gcmAt .enc 0 (BitVec.ofNat 64 n) true).engine.sess.phase = .active ∧
      (gcmAt .enc 0 (BitVec.ofNat 64 n) true).engine.sess.mode = .gcm ∧ (gcmAt .enc 0 (BitVec.ofNat 64 n) true).engine.sess.dir = .enc ∧
      (gcmAt .enc 0 (BitVec.ofNat 64 n) true).engine.gcm.gpend.length < 16) ∧
    (gcmAt .enc 0 0xFFFFFFFDF#64 true).engine.gcm.clen.toNat + 1 ≤ 2 ^ 36 - 32 ∧
    2 ^ 36 - 32 < (gcmAt .enc 0 0xFFFFFFFE0#64 true).engine.gcm.clen.toNat + 1 ∧
    (withDin (gcmAt .enc 0 0 true) [0]).din.length = 1 := by
  decide +kernel

/-- Both limits of decryption: the data limit, and a withheld plaintext of 48 bytes, then 49. -/
theorem witness_GcmUpdateDecrypt : base.engine.sess.phase = .idle ∧
    (∀ n ∈ [0, 0xFFFFFFFE0], (gcmAt .dec 0 (BitVec.ofNat 64 n) true).engine.sess.phase = .active ∧
      (gcmAt .dec 0 (BitVec.ofNat 64 n) true).engine.sess.mode = .gcm ∧ (gcmAt .dec 0 (BitVec.ofNat 64 n) true).engine.sess.dir = .dec ∧
      (gcmAt .dec 0 (BitVec.ofNat 64 n) true).engine.gcm.gpend.length < 16) ∧
    2 ^ 36 - 32 < (gcmAt .dec 0 0xFFFFFFFE0#64 true).engine.gcm.clen.toNat + 1 ∧
    (gcmAt .dec 0 0 true).engine.gcm.clen.toNat + 48 ≤ 2 ^ 36 - 32 ∧
    (gcmAt .dec 0 0 true).engine.gcm.dbuf.length + 48 ≤ keyed.params.gcmDecBufBytes ∧
    keyed.params.gcmDecBufBytes < (gcmAt .dec 0 0 true).engine.gcm.dbuf.length + 49 ∧
    (withDin keyed [0]).din.length = 1 ∧ (withDin keyed (bytesK 48 0)).din.length = 48 ∧
    (withDin keyed (bytesK 49 0)).din.length = 49 := by
  decide +kernel

/-- The tag of an empty session with H and J0 zero, as T-GCM-1's with another J0, and a DIN that is not the tag. -/
theorem witness_GcmFinalRule : base.engine.sess.phase = .idle ∧
    (∀ dir ∈ [Dir.enc, .dec], (gcmAt dir 0 0 false).engine.sess.phase = .active ∧
      (gcmAt dir 0 0 false).engine.sess.mode = .gcm ∧ (gcmAt dir 0 0 false).engine.sess.dir = dir ∧
      (gcmAt dir 0 0 false).engine.gcm.gpend.length < 16) ∧
    (gcmAt .enc 0 0 false).din = [] ∧ (withDin (gcmAt .enc 0 0 false) [0]).din ≠ [] ∧
    (withDin (gcmAt .dec 0 0 false) (hex "2677f46b09c122cc975533105bd4a22a")).din =
      (bytesOfBlock (sm4Encrypt keyedEngine.sm4.rk 0 ^^^ gfMul (0 ^^^ 0) 0)).take 16 ∧
    (withDin (gcmAt .dec 0 0 false) []).din ≠
      (bytesOfBlock (sm4Encrypt keyedEngine.sm4.rk 0 ^^^ gfMul (0 ^^^ 0) 0)).take 16 := by decide +kernel

theorem allFit_small : allFit keyed.params [[1, 2, 3], [4]] := by
  intro d hd
  simp at hd
  rcases hd with rfl | rfl <;> rfl

theorem witness_GcmSessionSeals : keyed.engine.sm4.keyValid = true ∧ (12 ≤ 13 ∧ 13 ≤ 16) ∧
    ivLengthAllowed .gcm [(9 : Byte)].length = true ∧ keyed.params.dinFits [(9 : Byte)].length = true ∧
    allFit keyed.params [[1, 2, 3], [4]] ∧ [[(1 : Byte), 2, 3], [4]].flatten.length < 2 ^ 61 ∧
    admissible .gcm .noPadding [[(1 : Byte), 2, 3], [4]].flatten :=
  ⟨rfl, by omega, by decide, rfl, allFit_small, by decide, by simp [admissible, Config.gcmDataLimit]⟩

theorem witness_GcmSessionOpens : keyed.engine.sm4.keyValid = true ∧ ivLengthAllowed .gcm (bytesK 12 0).length = true ∧
    keyed.params.dinFits (bytesK 12 0).length = true ∧ keyed.params.dinFits (bytesK 16 0).length = true ∧
    allFit keyed.params [[1, 2, 3], [4]] ∧ [[(1 : Byte), 2, 3], [4]].flatten.length < 2 ^ 61 ∧
    allFit keyed.params [hex "b3136c044e95482d4f652e694f27", hex "41cd"] ∧
    admissible .gcm .noPadding (bytesK 16 0) ∧ (bytesK 16 0).length ≤ keyed.params.gcmDecBufBytes ∧
    [hex "b3136c044e95482d4f652e694f27", hex "41cd"].flatten =
      oneShotCipher keyedEngine.sm4.rk .gcm .noPadding (bytesK 12 0) (bytesK 16 0) := by
  refine ⟨rfl, by decide, rfl, rfl, allFit_small, by decide, ?_, by simp [admissible, Config.gcmDataLimit], by decide, by decide +kernel⟩
  intro d hd
  simp at hd
  rcases hd with rfl | rfl <;> decide

theorem witness_StepKeepsInvariant : keyed.Inv ∧ step keyed = .next keyed ∧
    (keyed.offer ⟨0x30, []⟩).Inv ∧ ∃ t, step (keyed.offer ⟨0x30, []⟩) = .next t := ⟨keyed_inv, rfl, keyed_inv, _, rfl⟩

/-- An error that leaves the state, and one that ends the session. -/
theorem witness_ErrorsLeaveState : ∃ t u,
    step (keyed.offer ⟨0x00, [0]⟩) = .next t ∧ t.responses = ⟨.invalidInputLength, []⟩ :: [] ∧
    errorEndsSession .nop .invalidInputLength = false ∧ decode 0x00 = .command .nop ∧
    step ((heldBack []).offer ⟨0x33, [0]⟩) = .next u ∧ u.responses = ⟨.invalidInputLength, []⟩ :: [] ∧
    decode 0x33 = .command .modeFinal ∧ keyed.params.dinFits 1 = true ∧
    errorEndsSession .modeFinal .invalidInputLength = true ∧ Status.invalidInputLength ≠ .ok :=
  ⟨_, _, rfl, rfl, rfl, by decide, rfl, rfl, by decide, rfl, rfl, by decide⟩

theorem witness_StatusesPerCommand : statusOf .modeFinal (withDin (heldBack []) [0]) = some .invalidInputLength ∧
    statusOf .sm4SetKey (withDin base [0]) = some .invalidKey := by decide +kernel

theorem witness_UnitFrames : ∃ t, exec .modeAad (gcmAt .enc 0 0 false) = .next t ∧
    (gcmAt .enc 0 0 false).engine.sess.phase = .active ∧ t.engine.sess.phase = .active := ⟨_, rfl, rfl, rfl⟩

/-- Two engines with different keys and the same summary. -/
theorem witness_GetStateHidesSecrets : ∃ t t', exec .getState keyed = .next t ∧
    exec .getState { base with engine := Engine.reset.withKey { keyValid := true, rk := Vector.replicate 32 1 } } = .next t' ∧
    keyed.engine.sm4.rk ≠ Vector.replicate 32 1 := ⟨_, _, rfl, rfl, by decide +kernel⟩

theorem witness_UpdatesConcatenate :
    exec .sm3Update { hashing 0 with din := [1] ++ [2] } =
      .next ((hashing 0).complete ⟨{ Engine.reset with sm3 := ((hashing 0).engine.sm3.absorb [1, 2]) }, .ok, []⟩) := rfl

theorem witness_InstancesAreIndependent : (Platform.mk [base, keyed]).engines[1]? = some keyed ∧
    [1, 0, 1, 7].count 1 = 2 := ⟨rfl, rfl⟩

end Sys2Proof.Tests
end

/-! # The state's statements (10_state.md)
PROOF. The invariant of the unit contexts at reset and over every step, the reset event, what GET_STATE shows, and the
independence of a platform's engines. -/

namespace Sys2Proof.Machine

/-! ## What a command leaves of the engine -/

section Frames
variable (e : Engine) (din : Octets)

@[simp] theorem ctlNop_engine : (ctlNop e din).engine = e := by
  obtain ⟨-, h⟩ | ⟨-, h⟩ := needEmptyDin_cases e din (answer e []) <;> simp [ctlNop, h]

@[simp] theorem ctlGetState_engine : (ctlGetState e din).engine = e := by
  obtain ⟨-, h⟩ | ⟨-, h⟩ := needEmptyDin_cases e din (answer e (stateSummary e)) <;> simp [ctlGetState, h]

@[simp] theorem sm3Oneshot_engine : (sm3Oneshot e din).engine = e := by
  unfold sm3Oneshot; split <;> rfl

@[simp] theorem sm3Compress_engine : (sm3Compress e din).engine = e := by
  unfold sm3Compress; split <;> rfl

@[simp] theorem sm3Expand_engine : (sm3Expand e din).engine = e := by
  unfold sm3Expand; split <;> rfl

@[simp] theorem sm4OneBlock_engine (f : Vector Word 32 → Block → Block) : (sm4OneBlock e din f).engine = e := by
  unfold sm4OneBlock; split_ifs <;> rfl

@[simp] theorem modBinary_engine (m : Nat) (f : Nat → Nat → Nat) : (modBinary m f e din).engine = e := by
  unfold modBinary; split_ifs <;> rfl

@[simp] theorem modUnary_engine (m : Nat) (f : Nat → Option Nat) : (modUnary m f e din).engine = e := by
  unfold modUnary
  split_ifs
  · rfl
  · rfl
  · cases f (beNat din) <;> rfl

@[simp] theorem finalNoPadding_engine : (finalNoPadding e din).engine = e.endSession := by
  unfold finalNoPadding; split_ifs <;> rfl

@[simp] theorem finalPkcs7Enc_engine : (finalPkcs7Enc e din).engine = e.endSession := by
  unfold finalPkcs7Enc; split <;> rfl

@[simp] theorem finalPkcs7Dec_engine : (finalPkcs7Dec e din).engine = e.endSession := by
  unfold finalPkcs7Dec
  split_ifs
  · rfl
  · rfl
  · cases pkcs7Unpad (e.sess.blockOp e.sm4.rk e.sess.pend).1 <;> rfl

@[simp] theorem finalCtr_engine : (finalCtr e din).engine = e.endSession := by
  unfold finalCtr; split <;> rfl

@[simp] theorem finalGcmEnc_engine : (finalGcmEnc e din).engine = e.endSession := by
  unfold finalGcmEnc; split <;> rfl

@[simp] theorem finalGcmDec_engine : (finalGcmDec e din).engine = e.endSession := by
  unfold finalGcmDec; split <;> rfl

/-- MODE_FINAL ends an ACTIVE session whatever its status, and changes nothing of an IDLE one (R215). -/
theorem modeFinal_engine : (modeFinal e din).engine = if e.sess.phase = .idle then e else e.endSession := by
  unfold modeFinal
  split
  · rfl
  · split <;> simp

/-- The three engines MODE_INIT can leave: as it was without a key, the session ended by a failed check, or a new
session whose selections passed the checks (R201). -/
theorem modeInit_engine_cases (mode : Nat) (dir : Dir) (pad : Pad) (tagLen : Nat) :
    (modeInit mode dir pad tagLen e din).engine = e ∨
    (modeInit mode dir pad tagLen e din).engine = e.endSession ∨
    ∃ m t, e.sm4.keyValid = true ∧ padAllowed m pad = true ∧ tagLength m tagLen = some t ∧
      (modeInit mode dir pad tagLen e din).engine = e.startSession m dir pad t din := by
  unfold modeInit
  split
  · exact .inl rfl
  next hkey =>
    cases Mode.ofField mode with
    | none => exact .inr (.inl rfl)
    | some m =>
      dsimp only
      split
      · exact .inr (.inl rfl)
      next hpad =>
        cases htag : tagLength m tagLen with
        | none => exact .inr (.inl rfl)
        | some t =>
          dsimp only
          split
          · exact .inr (.inl rfl)
          · exact .inr (.inr ⟨m, t, by simpa using hkey, by simpa using hpad, htag, rfl⟩)

end Frames

/-- A meaning's only next state is the transaction completed with its reply. -/
theorem next_of_finish {s t : State} {r : Reply} (h : finish s r = .next t) : t = s.complete r := by
  rw [finish_eq] at h
  exact (Host.Outcome.next.inj h).symm

theorem Phase.eq_active {x : Phase} (h : x ≠ .idle) : x = .active := by
  cases x with
  | idle => exact absurd rfl h
  | active => rfl

/-- A step that takes the reset event (R310). -/
theorem step_resetEvent {s : State} {rest : List Input} (hp : s.pending = .resetEvent :: rest) :
    step s = .next (s.takeReset rest) := by
  simp [step, hp]

/-- Every command is answered (R281). -/
theorem exec_answers (i : Instr) (s : State) : ∃ r, exec i s = .next (s.complete r) := by
  cases i <;> exact ⟨_, rfl⟩

/-- Every step has a next state. -/
theorem step_has_next (s : State) : ∃ t, step s = .next t := by
  obtain ⟨-, h⟩ | ⟨_, -, h⟩ | ⟨_, _, _, -, -, h⟩ | ⟨_, _, _, -, -, -, h⟩ | ⟨c, rest, i, -, -, -, h⟩ := step_cases s
  · exact ⟨_, h⟩
  · exact ⟨_, h⟩
  · exact ⟨_, h⟩
  · exact ⟨_, h⟩
  · obtain ⟨r, hr⟩ := exec_answers i (s.begin c.din rest)
    exact ⟨_, h.trans hr⟩

/-! ## The SM3 context and the key unit -/

/-- A 64-bit count that stays below 2^64 adds as a number. -/
theorem toNat_add_ofNat {x : BitVec 64} {n : Nat} (h : x.toNat + n < 2 ^ 64) :
    (x + BitVec.ofNat 64 n).toNat = x.toNat + n := by
  rw [BitVec.toNat_add, BitVec.toNat_ofNat, Nat.add_mod_mod, Nat.mod_eq_of_lt h]

theorem Sm3Ctx.idle_wellKept : Sm3Ctx.idle.WellKept where
  idle _ := rfl
  wholeBytes := rfl
  pending := rfl
  tailZero i _ := by simp [Sm3Ctx.idle]

theorem Sm3Ctx.started_wellKept : Sm3Ctx.started.WellKept where
  idle h := by simp [Sm3Ctx.started] at h
  wholeBytes := rfl
  pending := rfl
  tailZero i _ := by simp [Sm3Ctx.started]

theorem foldl_absorbByte_nbuf (x : Sm3Ctx) (s : Octets) :
    (s.foldl Sm3Ctx.absorbByte x).nbuf.val = (x.nbuf.val + s.length) % 64 := by
  obtain ⟨-, hfilled, -, -⟩ := foldl_absorbByte x s
  have hlen := congrArg List.length hfilled
  simp only [Sm3Ctx.filled_length, List.length_drop, List.length_append] at hlen
  omega

/-- Absorbing within the message limit keeps an ACTIVE context well (R25, R26). -/
theorem Sm3Ctx.WellKept.absorb {x : Sm3Ctx} (h : x.WellKept) {din : Octets} (hact : x.phase ≠ .idle)
    (hlen : x.bitlen.toNat + 8 * din.length < 2 ^ 64) : (x.absorb din).WellKept := by
  obtain ⟨-, -, hphase, -⟩ := foldl_absorbByte x din
  have hbits : (x.absorb din).bitlen.toNat = x.bitlen.toNat + 8 * din.length := toNat_add_ofNat hlen
  have hnbuf : (x.absorb din).nbuf.val = (x.nbuf.val + din.length) % 64 := foldl_absorbByte_nbuf x din
  have hwhole := h.wholeBytes
  have hpending := h.pending
  exact
    { idle := fun hidle => absurd (hphase.symm.trans hidle) hact
      wholeBytes := by omega
      pending := by omega
      tailZero := foldl_tailZero x din h.tailZero }

theorem Sm4Key.cleared_wellKept : Sm4Key.cleared.WellKept := fun _ => rfl

theorem Sm4Key.loaded_wellKept (rk : Vector Word 32) : Sm4Key.WellKept { keyValid := true, rk := rk } :=
  fun h => nomatch h

/-! ## The GCM extension -/

section GcmFrame
variable (g : Gcm)

theorem flush_frame : g.flush = { g with X := g.flush.X, gpend := g.flush.gpend } := by
  unfold Gcm.flush; split <;> rfl

theorem start_frame : g.start = { g with X := g.start.X, gpend := g.start.gpend, started := true } := by
  unfold Gcm.start
  split
  next h => rw [← h]
  · rw [flush_frame g]

/-- The data phase changes X, gpend, clen and started only (R249, R250). -/
theorem takeData_frame (c : Octets) : g.takeData c =
    { g with X := (g.takeData c).X, gpend := (g.takeData c).gpend, started := true,
             clen := g.clen + BitVec.ofNat 64 c.length } := by
  simp only [Gcm.takeData, Gcm.absorb]
  rw [start_frame g]

end GcmFrame

theorem start_gpend_length {g : Gcm} (h : g.gpend.length < 16) :
    g.start.gpend.length = if g.started then g.gpend.length else 0 := by
  unfold Gcm.start
  split
  · rfl
  · simp [flush_eq h]

section GcmWellKept
variable {p : Params} {rk : Vector Word 32} {dir : Dir} {g : Gcm}

/-- The extension MODE_INIT sets up (R244-R246). -/
theorem Gcm.begin_wellKept (p : Params) (rk : Vector Word 32) (dir : Dir) (iv : Octets) :
    (Gcm.begin rk iv).WellKept p rk dir where
  subkey := rfl
  partialBlock := rfl
  aad := Nat.two_pow_pos 61
  data := Nat.zero_le _
  phase _ := rfl
  withheld := by cases dir <;> rfl
  capacity := Nat.zero_le _

theorem Gcm.WellKept.gpend_lt (h : g.WellKept p rk dir) : g.gpend.length < 16 :=
  h.partialBlock ▸ Nat.mod_lt _ (by decide)

/-- AAD within its limit keeps the AAD phase well (R247). -/
theorem Gcm.WellKept.takeAad (h : g.WellKept p rk dir) {din : Octets} (hstart : g.started = false)
    (hlen : g.alen.toNat + din.length < Config.gcmAadLimit) :
    (Gcm.absorb { g with alen := g.alen + BitVec.ofNat 64 din.length } din).WellKept p rk dir := by
  have hlimit : Config.gcmAadLimit = 2 ^ 61 := rfl
  have halen : (g.alen + BitVec.ofNat 64 din.length).toNat = g.alen.toNat + din.length := toNat_add_ofNat (by omega)
  have hpend := h.partialBlock
  rw [hstart] at hpend
  exact
    { h with
      partialBlock := by
        rw [absorb_gpend_length]
        change _ = (if g.started then g.clen.toNat else (g.alen + BitVec.ofNat 64 din.length).toNat) % 16
        rw [hstart, halen]
        simp only [Bool.false_eq_true, if_false] at hpend ⊢
        omega
      aad := halen.trans_lt hlen }

/-- The waiting bytes after data: those of the AAD were flushed, so only the ciphertext counts (R251). -/
theorem Gcm.WellKept.takeData_gpend_length (h : g.WellKept p rk dir) (c : Octets) :
    (g.takeData c).gpend.length = (g.clen.toNat + c.length) % 16 := by
  have hstart := start_gpend_length h.gpend_lt
  have hpend := h.partialBlock
  have hphase := h.phase
  change (g.start.absorb c).gpend.length = _
  rw [absorb_gpend_length, hstart]
  cases hs : g.started with
  | true =>
    simp only [hs, if_true] at hpend ⊢
    omega
  | false => simp [hphase hs]

/-- Data within its limit keeps the data phase well, where `d` is what is withheld from then on: nothing more in
encryption, all of the data in decryption (R249, R250). -/
theorem Gcm.WellKept.takeData (h : g.WellKept p rk dir) {c d : Octets}
    (hlen : g.clen.toNat + c.length ≤ Config.gcmDataLimit)
    (hd : d.length = g.dbuf.length + if dir = .dec then c.length else 0) (hcap : d.length ≤ p.gcmDecBufBytes) :
    Gcm.WellKept p rk dir { g.takeData c with dbuf := d } := by
  have hlimit : Config.gcmDataLimit = 2 ^ 36 - 32 := rfl
  have hclen : (g.clen + BitVec.ofNat 64 c.length).toNat = g.clen.toNat + c.length := toNat_add_ofNat (by omega)
  have hpend := h.takeData_gpend_length c
  rw [takeData_frame]
  exact
    { subkey := h.subkey
      partialBlock := by simpa [hclen] using hpend
      aad := h.aad
      data := hclen.trans_le hlen
      phase := fun hs => nomatch hs
      withheld := by
        have hw := h.withheld
        cases dir with
        | enc => simpa [hd] using hw
        | dec => simpa [hd, hclen] using hw
      capacity := hcap }

/-- Encryption withholds nothing (R249). -/
theorem Gcm.WellKept.takeData_enc (h : g.WellKept p rk .enc) {c : Octets}
    (hlen : g.clen.toNat + c.length ≤ Config.gcmDataLimit) : (g.takeData c).WellKept p rk .enc := by
  have hdbuf : (g.takeData c).dbuf = g.dbuf := by rw [takeData_frame]
  exact h.takeData (d := (g.takeData c).dbuf) hlen (by simp [hdbuf]) (hdbuf ▸ h.capacity)

end GcmWellKept

/-! ## The session -/

/-- The tag lengths a session can have (R72). -/
theorem tagLength_bound {m : Mode} {n : Nat} {t : Fin 17} (h : tagLength m n = some t) :
    if m = .gcm then 12 ≤ t.val else t.val = 0 := by
  cases m with
  | gcm =>
    simp only [tagLength] at h
    split_ifs at h with h0 h1
    · cases h; decide
    · cases h; exact h1.1
  | ecb | cbc | ctr =>
    simp only [tagLength] at h
    split_ifs at h
    cases h; rfl

/-- MODE_UPDATE leaves of a block mode's buffer no more than the pending limit (R32, R206). -/
theorem length_sub_blockBytesReady_le {mode : Mode} (hm : isBlockMode mode = true) (dir : Dir) (pad : Pad) (n : Nat) :
    n - blockBytesReady dir pad n ≤ pendLimit mode dir pad := by
  cases dir <;> cases pad <;> simp only [blockBytesReady, pendLimit, hm] <;> omega

theorem eq_ecb_of_isBlockMode {m : Mode} (hm : isBlockMode m = true) (hne : m ≠ .cbc) : m = .ecb := by
  cases m with
  | ecb => rfl
  | cbc => exact absurd rfl hne
  | ctr | gcm => cases hm

/-- BlockOp chains blocks in CBC only (R205). -/
theorem blockOp_chain_ecb (rk : Vector Word 32) {x : Session} (hm : x.mode = .ecb) (s : Octets) :
    (x.blockOp rk s).2.chain = x.chain := by
  simp [Session.blockOp, hm, blockRun_ecb]

section SessionWellKept
variable {p : Params} {e : Engine}

/-- A session that has passed MODE_INIT's checks (R201-R204, R246). -/
theorem Engine.startSession_sessionWellKept {m : Mode} {dir : Dir} {pad : Pad} {tagLen : Nat} {t : Fin 17} {iv : Octets}
    (hkey : e.sm4.keyValid = true) (hpad : padAllowed m pad = true) (htag : tagLength m tagLen = some t) :
    (e.startSession m dir pad t iv).SessionWellKept p := by
  have ht := tagLength_bound htag
  cases m with
  | ecb =>
    exact
      { keyed := hkey, padding := hpad, tagLength := ht, pend := Nat.zero_le _
        chain := fun _ => rfl, counter := fun _ => ⟨rfl, rfl, rfl⟩, noGcm := fun _ => rfl, gcm := nofun }
  | cbc =>
    exact
      { keyed := hkey, padding := hpad, tagLength := ht, pend := Nat.zero_le _
        chain := fun hne => absurd rfl hne, counter := fun _ => ⟨rfl, rfl, rfl⟩, noGcm := fun _ => rfl
        gcm := nofun }
  | ctr =>
    exact
      { keyed := hkey, padding := hpad, tagLength := ht, pend := Nat.zero_le _
        chain := fun _ => rfl, counter := nofun, noGcm := fun _ => rfl, gcm := nofun }
  | gcm =>
    exact
      { keyed := hkey, padding := hpad, tagLength := ht, pend := Nat.zero_le _
        chain := fun _ => rfl, counter := nofun, noGcm := fun hne => absurd rfl hne
        gcm := fun _ => Gcm.begin_wellKept .. }

/-- In CTR and GCM a command that moves the counter state on, and in GCM the extension with it, keeps the session
well. -/
theorem Engine.SessionWellKept.withCounter (h : e.SessionWellKept p) (hm : isBlockMode e.sess.mode = false) {g : Gcm}
    (hidle : e.sess.mode ≠ .gcm → g = .idle) (hg : e.sess.mode = .gcm → g.WellKept p e.sm4.rk e.sess.dir)
    (c k : Block) (o : Fin 17) :
    Engine.SessionWellKept p { e with sess := { e.sess with ctr := c, ks := k, ksOff := o }, gcm := g } :=
  { h with
    counter := fun hb => by simp [hm] at hb
    noGcm := hidle
    gcm := hg }

/-- In ECB and CBC a command that changes the chaining block, and the pending input within its limit, keeps the session
well. -/
theorem Engine.SessionWellKept.withBlocks (h : e.SessionWellKept p) {c : Block} (hc : e.sess.mode ≠ .cbc → c = 0)
    {d : Octets} (hd : d.length ≤ pendLimit e.sess.mode e.sess.dir e.sess.pad) :
    Engine.SessionWellKept p { e with sess := { e.sess with chain := c, pend := d } } :=
  { h with
    chain := hc
    pend := hd }

end SessionWellKept

/-! ## Every command keeps the invariant -/

theorem Engine.reset_wellKept (p : Params) : Engine.reset.WellKept p where
  sm3 := Sm3Ctx.idle_wellKept
  sm4 := Sm4Key.cleared_wellKept
  idleSession _ := ⟨rfl, rfl⟩
  activeSession h := nomatch h

section Commands
variable {p : Params} {e : Engine} (h : e.WellKept p) (din : Octets)
include h

theorem Engine.WellKept.endSession : e.endSession.WellKept p where
  sm3 := h.sm3
  sm4 := h.sm4
  idleSession _ := ⟨rfl, rfl⟩
  activeSession hact := nomatch hact

theorem Engine.WellKept.withKey {k : Sm4Key} (hk : k.WellKept) : (e.withKey k).WellKept p :=
  { h.endSession with
    sm4 := hk
    activeSession := fun hact => nomatch hact }

theorem Engine.WellKept.withSm3 {x : Sm3Ctx} (hx : x.WellKept) : Engine.WellKept p { e with sm3 := x } :=
  { h with
    sm3 := hx
    activeSession := fun hact => { h.activeSession hact with } }

/-- A new session under the same SM3 context and key. -/
theorem Engine.WellKept.withSession {x : Session} {g : Gcm} (hx : x.phase = .active)
    (hs : Engine.SessionWellKept p { e with sess := x, gcm := g }) :
    Engine.WellKept p { e with sess := x, gcm := g } where
  sm3 := h.sm3
  sm4 := h.sm4
  idleSession hidle := by simp [hx] at hidle
  activeSession _ := hs

theorem needEmptyDin_wellKept {body : Reply} (hb : body.engine.WellKept p) :
    (needEmptyDin e din body).engine.WellKept p := by
  obtain ⟨-, heq⟩ | ⟨-, heq⟩ := needEmptyDin_cases e din body
  · rwa [heq]
  · rwa [heq]

theorem sm3Update_wellKept : (sm3Update e din).engine.WellKept p := by
  unfold sm3Update
  split_ifs with hidle hlimit
  · exact h
  · exact h
  · exact h.withSm3 (h.sm3.absorb hidle (Nat.lt_of_not_le hlimit))

theorem sm3Final_wellKept : (sm3Final e din).engine.WellKept p := by
  unfold sm3Final
  split
  · exact h
  · exact needEmptyDin_wellKept h din (h.withSm3 Sm3Ctx.idle_wellKept)

theorem sm4SetKey_wellKept : (sm4SetKey e din).engine.WellKept p := by
  unfold sm4SetKey
  split
  · exact h
  · exact h.withKey (Sm4Key.loaded_wellKept _)

theorem modeInit_wellKept (mode : Nat) (dir : Dir) (pad : Pad) (tagLen : Nat) :
    (modeInit mode dir pad tagLen e din).engine.WellKept p := by
  obtain heq | heq | ⟨m, t, hkey, hpad, htag, heq⟩ := modeInit_engine_cases e din mode dir pad tagLen
  · rwa [heq]
  · rw [heq]; exact h.endSession
  · have hs := Engine.startSession_sessionWellKept (p := p) (dir := dir) (iv := din) hkey hpad htag
    rw [heq]
    cases m <;> exact h.withSession rfl hs

theorem modeAad_wellKept : (modeAad e din).engine.WellKept p := by
  unfold modeAad
  split_ifs with hphase hlimit
  · exact h
  · exact h.endSession
  · obtain ⟨hidle, hmode, hstart⟩ : e.sess.phase ≠ .idle ∧ e.sess.mode = .gcm ∧ e.gcm.started = false := by
      simpa using hphase
    have hact := Phase.eq_active hidle
    have hs := h.activeSession hact
    have hg := (hs.gcm hmode).takeAad hstart (Nat.lt_of_not_le hlimit)
    exact h.withSession hact (hs.withCounter (by rw [hmode]; rfl) (fun hne => absurd hmode hne) (fun _ => hg)
      e.sess.ctr e.sess.ks e.sess.ksOff)

theorem updateBlocks_wellKept (hact : e.sess.phase = .active) (hm : isBlockMode e.sess.mode = true) :
    (updateBlocks e din).engine.WellKept p := by
  have hs := h.activeSession hact
  refine h.withSession hact (hs.withBlocks (fun hne => ?_) ?_)
  · exact (blockOp_chain_ecb _ (eq_ecb_of_isBlockMode hm hne) _).trans (hs.chain hne)
  · rw [List.length_drop]
    exact length_sub_blockBytesReady_le hm _ _ _

theorem updateCtr_wellKept (hact : e.sess.phase = .active) (hm : e.sess.mode = .ctr) :
    (updateCtr e din).engine.WellKept p := by
  have hs := h.activeSession hact
  obtain ⟨-, hframe, -⟩ := ctrXor_spec e.sm4.rk inc128 e.sess din
  simp only [updateCtr, answer_engine]
  rw [hframe]
  exact h.withSession hact
    (hs.withCounter (by rw [hm]; rfl) (fun hne => hs.noGcm hne) (fun hgcm => hs.gcm hgcm) _ _ _)

/-- A GCM MODE_UPDATE that answers OK: the counter state moves on, and the extension takes the data. -/
theorem Engine.WellKept.takeData (hact : e.sess.phase = .active) (hm : e.sess.mode = .gcm) {g : Gcm}
    (hg : g.WellKept p e.sm4.rk e.sess.dir) :
    Engine.WellKept p { e with sess := (e.sess.ctrXor e.sm4.rk inc32 din).2, gcm := g } := by
  obtain ⟨-, hframe, -⟩ := ctrXor_spec e.sm4.rk inc32 e.sess din
  rw [hframe]
  exact h.withSession hact
    ((h.activeSession hact).withCounter (by rw [hm]; rfl) (fun hne => absurd hm hne) (fun _ => hg) _ _ _)

theorem updateGcmEnc_wellKept (hact : e.sess.phase = .active) (hm : e.sess.mode = .gcm) (hd : e.sess.dir = .enc) :
    (updateGcmEnc e din).engine.WellKept p := by
  have hg := (h.activeSession hact).gcm hm
  unfold updateGcmEnc
  dsimp only
  split_ifs with hlimit
  · exact h.endSession
  · refine h.takeData din hact hm ?_
    rw [hd] at hg ⊢
    exact hg.takeData_enc (by simpa using hlimit)

theorem updateGcmDec_wellKept (hact : e.sess.phase = .active) (hm : e.sess.mode = .gcm) (hd : e.sess.dir = .dec) :
    (updateGcmDec p e din).engine.WellKept p := by
  have hg := (h.activeSession hact).gcm hm
  unfold updateGcmDec
  dsimp only
  split_ifs with hlimit hcap
  · exact h.endSession
  · exact h.endSession
  · refine h.takeData din hact hm (hg.takeData ?_ ?_ ?_)
    · simpa using hlimit
    · simp [hd]
    · simpa using hcap

theorem modeUpdate_wellKept : (modeUpdate p e din).engine.WellKept p := by
  unfold modeUpdate
  split
  · exact h
  next hidle =>
    have hact := Phase.eq_active hidle
    split
    next hm => exact updateBlocks_wellKept h din hact (by rw [hm]; rfl)
    next hm => exact updateBlocks_wellKept h din hact (by rw [hm]; rfl)
    next hm => exact updateCtr_wellKept h din hact hm
    next hm hd => exact updateGcmEnc_wellKept h din hact hm hd
    next hm hd => exact updateGcmDec_wellKept h din hact hm hd

theorem modeFinal_wellKept : (modeFinal e din).engine.WellKept p := by
  rw [modeFinal_engine]
  split
  · exact h
  · exact h.endSession

end Commands

theorem State.Inv.of_finish {s t : State} {r : Reply} (ht : finish s r = .next t) (hr : r.engine.WellKept s.params) :
    t.Inv := by
  rw [next_of_finish ht]
  exact hr

/-- Every command keeps the invariant, whatever its DIN. -/
theorem exec_keeps_inv (i : Instr) {s t : State} (h : s.Inv) (ht : exec i s = .next t) : t.Inv := by
  have same : ∀ {r : Reply}, r.engine = s.engine → r.engine.WellKept s.params := fun heq => heq ▸ h
  cases i with
  | nop => exact .of_finish ht (same (ctlNop_engine ..))
  | getState => exact .of_finish ht (same (ctlGetState_engine ..))
  | engineReset => exact .of_finish ht (needEmptyDin_wellKept h _ (Engine.reset_wellKept _))
  | sm3Init => exact .of_finish ht (needEmptyDin_wellKept h _ (h.withSm3 Sm3Ctx.started_wellKept))
  | sm3Update => exact .of_finish ht (sm3Update_wellKept h _)
  | sm3Final => exact .of_finish ht (sm3Final_wellKept h _)
  | sm3Oneshot => exact .of_finish ht (same (sm3Oneshot_engine ..))
  | sm3Compress => exact .of_finish ht (same (sm3Compress_engine ..))
  | sm3Expand => exact .of_finish ht (same (sm3Expand_engine ..))
  | sm4SetKey => exact .of_finish ht (sm4SetKey_wellKept h _)
  | sm4EncBlock | sm4DecBlock => exact .of_finish ht (same (sm4OneBlock_engine ..))
  | sm4ClearKey => exact .of_finish ht (needEmptyDin_wellKept h _ (h.withKey Sm4Key.cleared_wellKept))
  | modeInit mode dir pad tagLen => exact .of_finish ht (modeInit_wellKept h _ mode dir pad tagLen)
  | modeAad => exact .of_finish ht (modeAad_wellKept h _)
  | modeUpdate => exact .of_finish ht (modeUpdate_wellKept h _)
  | modeFinal => exact .of_finish ht (modeFinal_wellKept h _)
  | modeAbort => exact .of_finish ht (needEmptyDin_wellKept h _ h.endSession)
  | fpAdd | fpSub | fpMul | fnAdd | fnSub | fnMul => exact .of_finish ht (same (modBinary_engine ..))
  | fpSqr | fpInv | fnSqr | fnInv => exact .of_finish ht (same (modUnary_engine ..))

theorem reset_inv : State.reset.Inv := Engine.reset_wellKept _

theorem step_keeps_inv {s t : State} (h : s.Inv) (ht : step s = .next t) : t.Inv := by
  obtain ⟨-, heq⟩ | ⟨rest, -, heq⟩ | ⟨c, rest, why, -, -, heq⟩ | ⟨c, rest, i, -, -, -, heq⟩ |
    ⟨c, rest, i, -, -, -, heq⟩ := step_cases s
  · cases heq.symm.trans ht; exact h
  · cases heq.symm.trans ht; exact Engine.reset_wellKept s.params
  · cases heq.symm.trans ht; exact h
  · cases heq.symm.trans ht; exact h
  · exact exec_keeps_inv (s := s.begin c.din rest) i h (heq.symm.trans ht)

/-! ## A platform's engines -/

theorem core_run_succ {s t : State} (h : step s = .next t) (n : Nat) :
    Sys2Proof.core.run (n + 1) s = Sys2Proof.core.run n t := by
  have hcore : Sys2Proof.core.step s = .next t := h
  simp only [Host.Core.run, hcore]

/-- Engine k's step moves engine k alone (R44). -/
theorem stepAt_spec (p : Platform) (k : Nat) : ∃ q, p.stepAt k = .next q ∧ q.engines.length = p.engines.length ∧
    ∀ (j : Nat) (s : State), p.engines[j]? = some s →
      ∃ t, q.engines[j]? = some t ∧ (k = j ∧ step s = .next t ∨ k ≠ j ∧ t = s) := by
  cases hk : p.engines[k]? with
  | none =>
    refine ⟨p, by simp [Platform.stepAt, hk], rfl, fun j s hj => ⟨s, hj, .inr ⟨?_, rfl⟩⟩⟩
    rintro rfl
    simp [hk] at hj
  | some s₀ =>
    obtain ⟨t₀, ht₀⟩ := step_has_next s₀
    refine ⟨⟨p.engines.set k t₀⟩, by simp [Platform.stepAt, hk, ht₀], List.length_set, fun j s hj => ?_⟩
    by_cases hkj : k = j
    · subst hkj
      cases hk.symm.trans hj
      exact ⟨t₀, by simp [(List.getElem?_eq_some_iff.mp hk).1], .inl ⟨rfl, ht₀⟩⟩
    · exact ⟨s, by simp [List.getElem?_set_ne hkj, hj], .inr ⟨hkj, rfl⟩⟩

/-- Each engine ends where its own steps alone take it, whatever the schedule (R62, R292). -/
theorem run_independent (p : Platform) (schedule : List Nat) : ∃ q, p.run schedule = .next q ∧
    q.engines.length = p.engines.length ∧ ∀ (j : Nat) (s : State), p.engines[j]? = some s →
      ∃ t, Sys2Proof.core.run (schedule.count j) s = .next t ∧ q.engines[j]? = some t := by
  induction schedule generalizing p with
  | nil => exact ⟨p, rfl, rfl, fun j s hj => ⟨s, rfl, hj⟩⟩
  | cons k ks ih =>
    obtain ⟨q, hq, hqlen, hstep⟩ := stepAt_spec p k
    obtain ⟨r, hr, hrlen, hruns⟩ := ih q
    refine ⟨r, by simp [Platform.run, hq, hr], hrlen.trans hqlen, fun j s hj => ?_⟩
    obtain ⟨u, hu, hmoved⟩ := hstep j s hj
    obtain ⟨t, hrun, ht⟩ := hruns j u hu
    refine ⟨t, ?_, ht⟩
    obtain ⟨rfl, hmove⟩ | ⟨hne, rfl⟩ := hmoved
    · rw [List.count_cons_self, core_run_succ hmove, hrun]
    · rw [List.count_cons_of_ne hne, hrun]

/-! ## What GET_STATE shows -/

/-- GET_STATE's response is its reply to the engine and DIN. -/
theorem getState_response {s t : State} (h : exec .getState s = .next t) :
    t.responses.head? = some ⟨(ctlGetState s.engine s.din).status, (ctlGetState s.engine s.din).dout⟩ := by
  rw [next_of_finish h]
  rfl

/-- What GET_STATE replies depends on the engine by its summary only. -/
theorem ctlGetState_congr {e e' : Engine} (h : stateSummary e = stateSummary e') (din : Octets) :
    (ctlGetState e din).status = (ctlGetState e' din).status ∧ (ctlGetState e din).dout = (ctlGetState e' din).dout := by
  cases din with
  | nil => exact ⟨rfl, h⟩
  | cons b d => exact ⟨rfl, rfl⟩

/-! ## The obligations -/

/-- Settles O53, by the inversion of a step and the lemma of each command. -/
theorem stepKeepsInvariant : Obligations.StepKeepsInvariant := fun _ _ => step_keeps_inv

/-- Settles O58: the response is a function of the summary and DIN, and the summary of the public elements. -/
theorem getStateHidesSecrets : Obligations.GetStateHidesSecrets := by
  intro s s' t t' hsm3 hnbuf hkey hsess hmode hdir hpad htag hstarted hdin ht ht'
  have hsummary : stateSummary s.engine = stateSummary s'.engine := by
    simp only [stateSummary, summaryByte0, summaryByte1, hsm3, hnbuf, hkey, hsess, hmode, hdir, hpad, htag, hstarted]
  obtain ⟨hstatus, hdout⟩ := ctlGetState_congr hsummary s'.din
  rw [getState_response ht, getState_response ht', hdin, hstatus, hdout]

/-- Settles O60, by induction over the schedule. -/
theorem instancesAreIndependent : Obligations.InstancesAreIndependent := run_independent

/-- Settles O9: a step that takes the reset event, and the values of R45's table. -/
theorem resetEventRestoresResetValues : Obligations.ResetEventRestoresResetValues :=
  ⟨fun s rest hp => ⟨s.takeReset rest, step_resetEvent hp, rfl⟩, rfl, rfl, rfl, rfl, rfl⟩

/-- Settles O52. -/
theorem resetKeepsInvariant : Obligations.ResetKeepsInvariant := reset_inv

end Sys2Proof.Machine

/-! # The command port's statements (20_memory.md)
PROOF. A step performs the decoded command within the DIN limit, every command is answered once, and two updates in a row
are one update with the concatenated DIN. -/

namespace Sys2Proof.Machine

/-! ## The DIN limit and the response -/

/-- A step refuses an over-long DIN once its word has decoded, before the command itself (R59). -/
theorem step_overlong {s : State} {c : Command} {rest : List Input} {i : Instr} (hp : s.pending = .command c :: rest)
    (hd : decode c.cmd = .command i) (hf : s.params.dinFits c.din.length = false) :
    step s = .next ((s.begin c.din rest).complete (raise s.engine .invalidInputLength)) := by
  simp [step, hp, runCommand, hd, hf, finish_eq]

theorem dinFits_of_lt {p : Params} {m n : Nat} (hm : p.maxDin = some m) (h : m < n) : p.dinFits n = false := by
  rw [Bool.eq_false_iff, Ne, dinFits_iff]
  exact fun hle => Nat.not_le.mpr h (hle m hm)

/-- `MAX_DIN_BYTES` is at least 96, because a DIN of 96 bytes always fits (D47). -/
theorem le_maxDin {p : Params} {m : Nat} (h : p.maxDin = some m) : 96 ≤ m :=
  (dinFits_iff p 96).mp (dinFits_of_le le_rfl) m h

theorem State.complete_injective (s : State) : Function.Injective s.complete := by
  rintro ⟨e, st, out⟩ ⟨e', st', out'⟩ h
  simpa [State.complete] using h

/-! ## Updates in a row -/

/-- Where `update` answers OK on a ‖ b, it answers OK on a and then on b, the two together leaving the same engine and the
same output (R61). -/
def Concatenates (update : Engine → Octets → Reply) (e : Engine) (a b : Octets) : Prop :=
  (update e (a ++ b)).status = .ok → ∃ e₁ out₁ e₂ out₂, update e a = answer e₁ out₁ ∧ update e₁ b = answer e₂ out₂ ∧
    update e (a ++ b) = answer e₂ (out₁ ++ out₂)

/-! ### SM3_UPDATE -/

theorem sm3Update_of_fits {e : Engine} {din : Octets} (hact : e.sm3.phase ≠ .idle)
    (hfit : e.sm3.bitlen.toNat + 8 * din.length < Config.sm3BitLimit) :
    sm3Update e din = answer { e with sm3 := e.sm3.absorb din } [] := by
  rw [sm3Update, if_neg hact, if_neg (Nat.not_le.mpr hfit)]

/-- SM3_UPDATE answers OK only in an ACTIVE context with room for the bits of DIN (R145). -/
theorem fits_of_sm3Update_ok {e : Engine} {din : Octets} (h : (sm3Update e din).status = .ok) :
    e.sm3.phase ≠ .idle ∧ e.sm3.bitlen.toNat + 8 * din.length < Config.sm3BitLimit := by
  unfold sm3Update at h
  split_ifs at h with hidle hlimit
  · cases h
  · cases h
  · exact ⟨hidle, Nat.not_le.mp hlimit⟩

@[simp] theorem Sm3Ctx.absorb_phase (x : Sm3Ctx) (din : Octets) : (x.absorb din).phase = x.phase := by
  obtain ⟨-, -, hphase, -⟩ := foldl_absorbByte x din
  exact hphase

/-- Within the bit limit the 64-bit count of message bits does not wrap (R26, R145). -/
theorem Sm3Ctx.absorb_bitlen {x : Sm3Ctx} {din : Octets} (h : x.bitlen.toNat + 8 * din.length < Config.sm3BitLimit) :
    (x.absorb din).bitlen.toNat = x.bitlen.toNat + 8 * din.length := toNat_add_ofNat h

theorem sm3Update_concatenates (e : Engine) (a b : Octets) : Concatenates sm3Update e a b := by
  intro hok
  obtain ⟨hact, hfit⟩ := fits_of_sm3Update_ok hok
  have hlen : (a ++ b).length = a.length + b.length := List.length_append
  have ha : e.sm3.bitlen.toNat + 8 * a.length < Config.sm3BitLimit := by omega
  have hb : (e.sm3.absorb a).bitlen.toNat + 8 * b.length < Config.sm3BitLimit := by
    rw [Sm3Ctx.absorb_bitlen ha]; omega
  refine ⟨_, _, _, _, sm3Update_of_fits hact ha, sm3Update_of_fits (by simpa using hact) hb, ?_⟩
  rw [sm3Update_of_fits hact hfit, absorb_absorb, List.append_nil]

/-! ### MODE_UPDATE in ECB and CBC -/

/-- BlockOp on whole blocks followed by more is BlockOp on each in turn (R205). -/
theorem blockOp_append (rk : Vector Word 32) (x : Session) {s : Octets} (t : Octets) (h : s.length % 16 = 0) :
    x.blockOp rk (s ++ t) = ((x.blockOp rk s).1 ++ ((x.blockOp rk s).2.blockOp rk t).1,
      ((x.blockOp rk s).2.blockOp rk t).2) := by
  simp [Session.blockOp, blocksOf_append s t h, blockRun_append]

/-- PKCS7 decryption holds back a whole last block, every other session only a partial one (R206). -/
theorem blockBytesReady_cases (dir : Dir) (pad : Pad) :
    (∀ n, blockBytesReady dir pad n = 16 * ((n - 1) / 16)) ∨ ∀ n, blockBytesReady dir pad n = 16 * (n / 16) := by
  cases dir with
  | enc => exact .inr fun _ => rfl
  | dec =>
    cases pad with
    | noPadding => exact .inr fun _ => rfl
    | pkcs7 => exact .inl fun _ => rfl

theorem blockBytesReady_le (dir : Dir) (pad : Pad) (n : Nat) : blockBytesReady dir pad n ≤ n := by
  obtain h | h := blockBytesReady_cases dir pad <;> rw [h] <;> omega

theorem blockBytesReady_mod (dir : Dir) (pad : Pad) (n : Nat) : blockBytesReady dir pad n % 16 = 0 := by
  obtain h | h := blockBytesReady_cases dir pad <;> rw [h] <;> omega

/-- The bytes ready of n + k are those ready of n, and those ready once the k join what n held back (R206). -/
theorem blockBytesReady_add (dir : Dir) (pad : Pad) (n k : Nat) : blockBytesReady dir pad (n + k) =
    blockBytesReady dir pad n + blockBytesReady dir pad (n - blockBytesReady dir pad n + k) := by
  obtain h | h := blockBytesReady_cases dir pad <;> simp only [h] <;> omega

section Ready
variable (dir : Dir) (pad : Pad) (buf more : Octets)

/-- What MODE_UPDATE holds back of a buffer (R206). -/
def bytesHeldBack : Octets := buf.drop (blockBytesReady dir pad buf.length)

theorem blockBytesReady_append : blockBytesReady dir pad (buf ++ more).length =
    blockBytesReady dir pad buf.length + blockBytesReady dir pad (bytesHeldBack dir pad buf ++ more).length := by
  rw [List.length_append, List.length_append, bytesHeldBack, List.length_drop, blockBytesReady_add]

theorem take_blockBytesReady_append : (buf ++ more).take (blockBytesReady dir pad (buf ++ more).length) =
    buf.take (blockBytesReady dir pad buf.length) ++
      (bytesHeldBack dir pad buf ++ more).take (blockBytesReady dir pad (bytesHeldBack dir pad buf ++ more).length) := by
  have hle := blockBytesReady_le dir pad buf.length
  rw [blockBytesReady_append, List.take_add, List.take_append_of_le_length hle, List.drop_append_of_le_length hle]
  rfl

theorem bytesHeldBack_append :
    bytesHeldBack dir pad (buf ++ more) = bytesHeldBack dir pad (bytesHeldBack dir pad buf ++ more) := by
  have hle := blockBytesReady_le dir pad buf.length
  rw [bytesHeldBack, blockBytesReady_append, ← List.drop_drop, List.drop_append_of_le_length hle]
  rfl

theorem take_blockBytesReady_mod : (buf.take (blockBytesReady dir pad buf.length)).length % 16 = 0 := by
  rw [List.length_take, Nat.min_eq_left (blockBytesReady_le _ _ _), blockBytesReady_mod]

end Ready

/-- MODE_UPDATE in ECB or CBC, said by the bytes it holds back (R206). -/
theorem updateBlocks_eq (e : Engine) (din : Octets) : updateBlocks e din =
    let buf := e.sess.pend ++ din
    let run := e.sess.blockOp e.sm4.rk (buf.take (blockBytesReady e.sess.dir e.sess.pad buf.length))
    answer { e with sess := { run.2 with pend := bytesHeldBack e.sess.dir e.sess.pad buf } } run.1 := rfl

theorem updateBlocks_concatenates (e : Engine) (a b : Octets) : Concatenates updateBlocks e a b := by
  intro _
  refine ⟨_, _, _, _, updateBlocks_eq e a, updateBlocks_eq _ b, ?_⟩
  rw [updateBlocks_eq]
  dsimp only
  rw [← List.append_assoc, bytesHeldBack_append, take_blockBytesReady_append,
    blockOp_append _ _ _ (take_blockBytesReady_mod _ _ _)]
  rfl

/-! ### MODE_UPDATE in CTR and GCM -/

section CounterFrame
variable (rk : Vector Word 32) (inc : Block → Block) (x : Session) (s : Octets)

theorem ctrXor_frame : (x.ctrXor rk inc s).2 =
    { x with ctr := (x.ctrXor rk inc s).2.ctr, ks := (x.ctrXor rk inc s).2.ks, ksOff := (x.ctrXor rk inc s).2.ksOff } := by
  obtain ⟨-, hframe, -⟩ := ctrXor_spec rk inc x s
  rw [hframe]

@[simp] theorem ctrXor_phase : (x.ctrXor rk inc s).2.phase = x.phase := by rw [ctrXor_frame]
@[simp] theorem ctrXor_mode : (x.ctrXor rk inc s).2.mode = x.mode := by rw [ctrXor_frame]
@[simp] theorem ctrXor_dir : (x.ctrXor rk inc s).2.dir = x.dir := by rw [ctrXor_frame]

end CounterFrame

theorem updateCtr_concatenates (e : Engine) (a b : Octets) : Concatenates updateCtr e a b := by
  intro _
  refine ⟨_, _, _, _, rfl, rfl, ?_⟩
  simp [updateCtr, ctrXor_append]

/-- Once the data phase has begun, beginning it again changes nothing (R249, R250). -/
theorem start_of_started {g : Gcm} (h : g.started = true) : g.start = g := if_pos h

theorem takeData_started (g : Gcm) (c : Octets) : (g.takeData c).started = true := by rw [takeData_frame]

/-- Taking data in two parts is taking the whole (R249, R250). -/
theorem takeData_append (g : Gcm) (c d : Octets) : (g.takeData c).takeData d = g.takeData (c ++ d) := by
  have hstart : (g.takeData c).start = g.takeData c := start_of_started (takeData_started g c)
  have hlen : g.clen + BitVec.ofNat 64 c.length + BitVec.ofNat 64 d.length = g.clen + BitVec.ofNat 64 (c ++ d).length := by
    rw [List.length_append, BitVec.ofNat_add, BitVec.add_assoc]
  calc (g.takeData c).takeData d
      = { (g.takeData c).absorb d with clen := (g.takeData c).clen + BitVec.ofNat 64 d.length } := by
        rw [Gcm.takeData, hstart]
    _ = { (g.start.absorb c).absorb d with clen := g.clen + BitVec.ofNat 64 c.length + BitVec.ofNat 64 d.length } := rfl
    _ = g.takeData (c ++ d) := by rw [absorb_append, hlen, Gcm.takeData]

section WithDbuf
variable (g : Gcm) (q : Octets)

theorem start_withDbuf : Gcm.start { g with dbuf := q } = { g.start with dbuf := q } := by
  unfold Gcm.start Gcm.flush
  split_ifs <;> rfl

/-- The withheld plaintext plays no part in the hash of the data (R250). -/
theorem takeData_withDbuf (c : Octets) : Gcm.takeData { g with dbuf := q } c = { g.takeData c with dbuf := q } := by
  rw [Gcm.takeData, start_withDbuf]
  rfl

end WithDbuf

/-- The extension takes the ciphertext `cipher` and withholds its plaintext (R250). -/
def Gcm.withhold (g : Gcm) (cipher plain : Octets) : Gcm := { g.takeData cipher with dbuf := g.dbuf ++ plain }

theorem withhold_clen (g : Gcm) (c q : Octets) : (g.withhold c q).clen = (g.takeData c).clen := rfl

theorem withhold_append (g : Gcm) (c d q r : Octets) :
    (g.withhold c q).withhold d r = g.withhold (c ++ d) (q ++ r) := by
  simp only [Gcm.withhold, takeData_withDbuf, takeData_append, List.append_assoc]

/-- Within the data limit the 64-bit count of ciphertext bytes does not wrap (R36, R257). -/
theorem takeData_clen {g : Gcm} {c : Octets} (h : g.clen.toNat + c.length ≤ Config.gcmDataLimit) :
    (g.takeData c).clen.toNat = g.clen.toNat + c.length := by
  rw [takeData_frame]
  exact toNat_add_ofNat (by unfold Config.gcmDataLimit at h; omega)

theorem updateGcmEnc_of_fits {e : Engine} {din : Octets} (h : e.gcm.clen.toNat + din.length ≤ Config.gcmDataLimit) :
    updateGcmEnc e din = answer { e with
      sess := (e.sess.ctrXor e.sm4.rk inc32 din).2
      gcm := e.gcm.takeData (e.sess.ctrXor e.sm4.rk inc32 din).1 } (e.sess.ctrXor e.sm4.rk inc32 din).1 :=
  if_neg (Nat.not_lt.mpr h)

/-- A GCM encryption update answers OK only within the data limit (R249). -/
theorem fits_of_updateGcmEnc_ok {e : Engine} {din : Octets} (h : (updateGcmEnc e din).status = .ok) :
    e.gcm.clen.toNat + din.length ≤ Config.gcmDataLimit := by
  by_contra hlimit
  rw [updateGcmEnc, if_pos (Nat.lt_of_not_le hlimit)] at h
  cases h

theorem updateGcmEnc_concatenates (e : Engine) (a b : Octets) : Concatenates updateGcmEnc e a b := by
  intro hok
  have hfit := fits_of_updateGcmEnc_ok hok
  have hlen : (a ++ b).length = a.length + b.length := List.length_append
  have ha : e.gcm.clen.toNat + a.length ≤ Config.gcmDataLimit := by omega
  have hb : (e.gcm.takeData (e.sess.ctrXor e.sm4.rk inc32 a).1).clen.toNat + b.length ≤ Config.gcmDataLimit := by
    rw [takeData_clen (by simpa using ha), ctrXor_length]; omega
  refine ⟨_, _, _, _, updateGcmEnc_of_fits ha, updateGcmEnc_of_fits hb, ?_⟩
  rw [updateGcmEnc_of_fits hfit, ctrXor_append, takeData_append]

theorem updateGcmDec_of_fits {p : Params} {e : Engine} {din : Octets}
    (h : e.gcm.clen.toNat + din.length ≤ Config.gcmDataLimit) (hcap : e.gcm.dbuf.length + din.length ≤ p.gcmDecBufBytes) :
    updateGcmDec p e din = answer { e with
      sess := (e.sess.ctrXor e.sm4.rk inc32 din).2
      gcm := e.gcm.withhold din (e.sess.ctrXor e.sm4.rk inc32 din).1 } [] := by
  rw [updateGcmDec, if_neg (Nat.not_lt.mpr h), if_neg (Nat.not_lt.mpr hcap)]
  rfl

/-- A GCM decryption update answers OK only within the data limit and the withholding capacity (R250). -/
theorem fits_of_updateGcmDec_ok {p : Params} {e : Engine} {din : Octets} (h : (updateGcmDec p e din).status = .ok) :
    e.gcm.clen.toNat + din.length ≤ Config.gcmDataLimit ∧ e.gcm.dbuf.length + din.length ≤ p.gcmDecBufBytes := by
  unfold updateGcmDec at h
  dsimp only at h
  split_ifs at h with hlimit hcap
  · cases h
  · cases h
  · exact ⟨Nat.not_lt.mp hlimit, Nat.not_lt.mp hcap⟩

theorem updateGcmDec_concatenates (p : Params) (e : Engine) (a b : Octets) : Concatenates (updateGcmDec p) e a b := by
  intro hok
  obtain ⟨hfit, hcap⟩ := fits_of_updateGcmDec_ok hok
  have hlen : (a ++ b).length = a.length + b.length := List.length_append
  have ha : e.gcm.clen.toNat + a.length ≤ Config.gcmDataLimit := by omega
  have hb : (e.gcm.withhold a (e.sess.ctrXor e.sm4.rk inc32 a).1).clen.toNat + b.length ≤ Config.gcmDataLimit := by
    rw [withhold_clen, takeData_clen ha]; omega
  have hcapb : (e.gcm.withhold a (e.sess.ctrXor e.sm4.rk inc32 a).1).dbuf.length + b.length ≤ p.gcmDecBufBytes := by
    rw [Gcm.withhold, List.length_append, ctrXor_length]; omega
  refine ⟨_, _, _, _, updateGcmDec_of_fits ha (by omega), updateGcmDec_of_fits hb hcapb, ?_⟩
  rw [updateGcmDec_of_fits hfit hcap, ctrXor_append, withhold_append, List.append_nil]

/-! ### MODE_UPDATE -/

/-- The update of an ACTIVE session, by its mode and direction (R206, R208, R249, R250). -/
def updateFor (p : Params) : Mode → Dir → Engine → Octets → Reply
  | .ecb, _ => updateBlocks
  | .cbc, _ => updateBlocks
  | .ctr, _ => updateCtr
  | .gcm, .enc => updateGcmEnc
  | .gcm, .dec => updateGcmDec p

theorem modeUpdate_idle (p : Params) {e : Engine} (din : Octets) (h : e.sess.phase = .idle) :
    modeUpdate p e din = raise e .sequenceError := if_pos h

theorem modeUpdate_active (p : Params) {e : Engine} (din : Octets) (h : e.sess.phase ≠ .idle) :
    modeUpdate p e din = updateFor p e.sess.mode e.sess.dir e din := by
  rw [modeUpdate, if_neg h]
  split <;> simp only [updateFor, *]

theorem updateFor_concatenates (p : Params) (m : Mode) (d : Dir) (e : Engine) (a b : Octets) :
    Concatenates (updateFor p m d) e a b := by
  cases m with
  | ecb | cbc => exact updateBlocks_concatenates e a b
  | ctr => exact updateCtr_concatenates e a b
  | gcm =>
    cases d with
    | enc => exact updateGcmEnc_concatenates e a b
    | dec => exact updateGcmDec_concatenates p e a b

/-- An update that answers OK keeps the session ACTIVE, with its mode and direction (R200). -/
theorem updateFor_keeps_mode (p : Params) (m : Mode) (d : Dir) (e : Engine) (din : Octets)
    (h : (updateFor p m d e din).status = .ok) :
    (updateFor p m d e din).engine.sess.phase = e.sess.phase ∧ (updateFor p m d e din).engine.sess.mode = e.sess.mode ∧
      (updateFor p m d e din).engine.sess.dir = e.sess.dir := by
  cases m with
  | ecb | cbc => exact ⟨rfl, rfl, rfl⟩
  | ctr => simp [updateFor, updateCtr]
  | gcm =>
    cases d with
    | enc =>
      simp only [updateFor] at h ⊢
      simp [updateGcmEnc_of_fits (fits_of_updateGcmEnc_ok h)]
    | dec =>
      simp only [updateFor] at h ⊢
      obtain ⟨hfit, hcap⟩ := fits_of_updateGcmDec_ok h
      simp [updateGcmDec_of_fits hfit hcap]

theorem modeUpdate_concatenates (p : Params) (e : Engine) (a b : Octets) : Concatenates (modeUpdate p) e a b := by
  intro hok
  by_cases hidle : e.sess.phase = .idle
  · rw [modeUpdate_idle p _ hidle] at hok
    cases hok
  · rw [modeUpdate_active p _ hidle] at hok
    obtain ⟨e₁, out₁, e₂, out₂, ha, hb, hab⟩ := updateFor_concatenates p _ _ e a b hok
    have hkeep := updateFor_keeps_mode p e.sess.mode e.sess.dir e a (by rw [ha, answer_status])
    rw [ha, answer_engine] at hkeep
    obtain ⟨hphase, hmode, hdir⟩ := hkeep
    refine ⟨e₁, out₁, e₂, out₂, ?_, ?_, ?_⟩
    · rw [modeUpdate_active p _ hidle, ha]
    · rw [modeUpdate_active p _ (hphase ▸ hidle), hmode, hdir, hb]
    · rw [modeUpdate_active p _ hidle, hab]

/-- Both update commands answer with a reply that concatenates (R61). -/
theorem exec_update {i : Instr} (hi : i ∈ [Instr.sm3Update, .modeUpdate]) (p : Params) :
    ∃ update, (∀ (s : State) (din : Octets), s.params = p →
        exec i { s with din := din } = .next (s.complete (update s.engine din))) ∧
      ∀ e a b, Concatenates update e a b := by
  simp only [List.mem_cons, List.not_mem_nil, or_false] at hi
  obtain rfl | rfl := hi
  · exact ⟨sm3Update, fun _ _ _ => rfl, sm3Update_concatenates⟩
  · exact ⟨modeUpdate p, fun _ _ hp => hp ▸ rfl, modeUpdate_concatenates p⟩

/-! ## The obligations -/

/-- Settles O8: an over-long DIN is refused after the decode, and a DIN of 96 bytes always fits. -/
theorem dinLimitBeforeCommandChecks : Obligations.DinLimitBeforeCommandChecks :=
  ⟨fun _ _ _ _ _ hp hd hm hlt => step_overlong hp hd (dinFits_of_lt hm hlt), fun _ _ => le_maxDin⟩

/-- Settles O59: each update's reply concatenates, for SM3 by its absorbing and for a session by its mode. -/
theorem updatesConcatenate : Obligations.UpdatesConcatenate := by
  intro i s a b e out hi h
  obtain ⟨update, hexec, hconcat⟩ := exec_update hi s.params
  rw [hexec s _ rfl] at h
  have hreply : update s.engine (a ++ b) = ⟨e, .ok, out⟩ := s.complete_injective (Host.Outcome.next.inj h)
  obtain ⟨e₁, out₁, e₂, out₂, ha, hb, hab⟩ := hconcat s.engine a b (by rw [hreply])
  obtain ⟨rfl, -, rfl⟩ := Reply.mk.inj (hreply.symm.trans hab)
  refine ⟨e₁, out₁, out₂, rfl, ?_, ?_⟩
  · rw [hexec s a rfl, ha]
    rfl
  · rintro s₁ rfl
    rw [hexec (s.complete ⟨e₁, .ok, out₁⟩) b rfl, State.complete_engine, hb]
    rfl

/-- Settles O7: a DIN within the limit fits, and a step that takes it runs the command. -/
theorem stepRunsDecodedCommand : Obligations.StepRunsDecodedCommand :=
  fun _ _ _ _ hp hd hle => step_command hp hd ((dinFits_iff _ _).mpr hle)

/-- Settles O54: every arm of `exec` completes the transaction, and every case of a step has a next state. -/
theorem everyCommandAnswersOnce : Obligations.EveryCommandAnswersOnce := by
  refine ⟨fun i s => ?_, step_has_next⟩
  obtain ⟨r, hr⟩ := exec_answers i s
  exact ⟨r.engine, r.status, r.dout, hr⟩

end Sys2Proof.Machine

/-! # The encoding's statements (30_encoding.md)
PROOF. A word decodes to a command exactly when it is the encoding of that command and its fields fit their bits; the
counts of the legal words and the illegal words follow from it. -/

namespace Sys2Proof.Machine

/-! ## The formats -/

/-- The encoding carries the opcode, and the selections above it (R66, R67). -/
theorem encode_fields (i : Instr) (h : i.wellFormed = true) :
    opcField (encode i) = i.opcode ∧ (encode i).toNat = i.opcode + i.selections := by
  cases i with
  | modeInit mode dir pad tagLen => exact Laws.OpcodeField.modeInit mode dir pad tagLen h
  | _ => exact ⟨rfl, rfl⟩

/-- A command of format S has no fields, and the decoder's table holds it at its opcode (R66, R68). -/
theorem formatS_of_opcode_ne {i : Instr} (h : i.opcode ≠ modeInitOpcode) :
    i.wellFormed = true ∧ i.selections = 0 ∧ formatSCommand i.opcode = some i := by
  cases i with
  | modeInit => exact absurd rfl h
  | _ => exact ⟨rfl, rfl, rfl⟩

/-- The decoder's table holds format S commands only, each at its own opcode (R68). -/
theorem opcode_of_formatSCommand {o : Nat} {i : Instr} (h : formatSCommand o = some i) :
    i.opcode = o ∧ i.opcode ≠ modeInitOpcode := by
  unfold formatSCommand at h
  split at h <;> cases h <;> exact ⟨rfl, by decide⟩

/-- MODE_INIT is the one command of format M (R67). -/
theorem eq_modeInit_of_opcode {i : Instr} (h : i.opcode = modeInitOpcode) :
    ∃ mode dir pad tagLen, i = .modeInit mode dir pad tagLen := by
  cases i with
  | modeInit mode dir pad tagLen => exact ⟨mode, dir, pad, tagLen, rfl⟩
  | _ => cases h

theorem opcode_lt (i : Instr) : i.opcode < 256 := by
  cases i with
  | modeInit => exact (by decide : modeInitOpcode < 256)
  | _ => decide

theorem modeInit_wellFormed {mode tagLen : Nat} {dir : Dir} {pad : Pad} :
    (Instr.modeInit mode dir pad tagLen).wellFormed = true ↔ mode < 16 ∧ tagLen < 32 := by
  simp [Instr.wellFormed, modeFits, tagLenFits]

theorem dirBit_lt (dir : Dir) : dir.bit < 2 := by cases dir <;> decide

theorem padBit_lt (pad : Pad) : pad.bit < 2 := by cases pad <;> decide

@[simp] theorem dirOfBit_bit (dir : Dir) : dirOfBit dir.bit = dir := by cases dir <;> rfl

@[simp] theorem padOfBit_bit (pad : Pad) : padOfBit pad.bit = pad := by cases pad <;> rfl

theorem bit_dirOfBit {n : Nat} (h : n < 2) : (dirOfBit n).bit = n := by interval_cases n <;> rfl

theorem bit_padOfBit {n : Nat} (h : n < 2) : (padOfBit n).bit = n := by interval_cases n <;> rfl

theorem cmdField_lt (w : BitVec 32) (lo width : Nat) : cmdField w lo width < 2 ^ width :=
  Nat.mod_lt _ (Nat.two_pow_pos width)

/-! ## Decoding against encoding -/

/-- The fields of a format M word that holds these selections, and its reserved bits (R67). -/
theorem cmdField_modeInit {w : BitVec 32} {mode tagLen : Nat} {dir : Dir} {pad : Pad} (hmode : mode < 16)
    (htag : tagLen < 32) (hw : w.toNat = modeInitOpcode + (Instr.modeInit mode dir pad tagLen).selections) :
    cmdField w 21 11 = 0 ∧ cmdField w 14 2 = 0 ∧ cmdField w 8 4 = mode ∧ cmdField w 12 1 = dir.bit ∧
      cmdField w 13 1 = pad.bit ∧ cmdField w 16 5 = tagLen := by
  have hd := dirBit_lt dir
  have hp := padBit_lt pad
  simp only [cmdField, hw, modeInitOpcode, Instr.selections]
  omega

/-- The encoder lays every field where the decoder reads it. -/
theorem decode_encode {i : Instr} (h : i.wellFormed = true) : decode (encode i) = .command i := by
  obtain ⟨hopc, hword⟩ := encode_fields i h
  by_cases hM : i.opcode = modeInitOpcode
  · obtain ⟨mode, dir, pad, tagLen, rfl⟩ := eq_modeInit_of_opcode hM
    obtain ⟨hmode, htag⟩ := modeInit_wellFormed.mp h
    obtain ⟨hhigh, hlow, hmodeF, hdirF, hpadF, htagF⟩ := cmdField_modeInit hmode htag hword
    rw [decode, if_pos (hopc.trans hM), decodeFormatM, if_neg (by simp [hhigh, hlow]), hmodeF, hdirF, hpadF, htagF,
      dirOfBit_bit, padOfBit_bit]
  · obtain ⟨-, hsel, htable⟩ := formatS_of_opcode_ne hM
    have hhigh : cmdField (encode i) 8 24 = 0 := by
      have := opcode_lt i
      simp only [cmdField, hword, hsel]
      omega
    rw [decode, if_neg (hopc ▸ hM), decodeFormatS, hopc, htable]
    simp [hhigh]

/-- A format S word that decodes is the bare opcode of its command (R66). -/
theorem encode_of_decodeFormatS {w : BitVec 32} {i : Instr} (h : decodeFormatS w = .command i) :
    i.wellFormed = true ∧ encode i = w := by
  unfold decodeFormatS at h
  cases htable : formatSCommand (opcField w) with
  | none => simp [htable] at h
  | some j =>
    simp only [htable] at h
    split_ifs at h with hhigh
    cases h
    obtain ⟨hopc, hS⟩ := opcode_of_formatSCommand htable
    obtain ⟨hwf, hsel, -⟩ := formatS_of_opcode_ne hS
    refine ⟨hwf, BitVec.eq_of_toNat_eq ?_⟩
    have hlt := w.isLt
    rw [(encode_fields i hwf).2, hsel, hopc]
    simp only [opcField, cmdField] at hhigh ⊢
    omega

/-- A format M word that decodes is MODE_INIT's opcode with the selections read from it (R67). -/
theorem encode_of_decodeFormatM {w : BitVec 32} {i : Instr} (hopc : opcField w = modeInitOpcode)
    (h : decodeFormatM w = .command i) : i.wellFormed = true ∧ encode i = w := by
  unfold decodeFormatM at h
  split_ifs at h with hreserved
  cases h
  have hwf : (Instr.modeInit (cmdField w 8 4) (dirOfBit (cmdField w 12 1)) (padOfBit (cmdField w 13 1))
      (cmdField w 16 5)).wellFormed = true :=
    modeInit_wellFormed.mpr ⟨cmdField_lt w 8 4, cmdField_lt w 16 5⟩
  refine ⟨hwf, BitVec.eq_of_toNat_eq ?_⟩
  have hlt := w.isLt
  rw [(encode_fields _ hwf).2, Instr.opcode, Instr.selections, bit_dirOfBit (cmdField_lt w 12 1),
    bit_padOfBit (cmdField_lt w 13 1)]
  simp only [opcField, modeInitOpcode, cmdField] at *
  omega

/-- A word decodes to a command exactly when the command is well formed and the word is its encoding (R78). -/
theorem decode_eq_command_iff {w : BitVec 32} {i : Instr} :
    decode w = .command i ↔ i.wellFormed = true ∧ encode i = w := by
  constructor
  · intro h
    unfold decode at h
    split_ifs at h with hM
    · exact encode_of_decodeFormatM hM h
    · exact encode_of_decodeFormatS h
  · rintro ⟨hwf, rfl⟩
    exact decode_encode hwf

/-- A legal word is the opcode and the selections of its command. -/
theorem fields_of_decode {w : BitVec 32} {i : Instr} (h : decode w = .command i) :
    w.toNat % 256 = i.opcode ∧ w.toNat = i.opcode + i.selections := by
  obtain ⟨hwf, rfl⟩ := decode_eq_command_iff.mp h
  obtain ⟨hopc, hword⟩ := encode_fields i hwf
  exact ⟨by simpa [opcField, cmdField] using hopc, hword⟩

/-! ## How many words are legal -/

/-- As many words decode to the commands whose opcode has a property as there are such commands. -/
theorem ncard_legalWords {S : Finset Instr} (P : Nat → Prop)
    (hS : ∀ i, i ∈ S ↔ i.wellFormed = true ∧ P i.opcode) :
    Set.ncard {w : BitVec 32 | ∃ i, decode w = .command i ∧ P (w.toNat % 256)} = S.card := by
  have hinj : Set.InjOn encode S := by
    intro i hi j hj heq
    have hdi := decode_encode ((hS i).mp hi).1
    have hdj := decode_encode ((hS j).mp hj).1
    rw [heq] at hdi
    exact Decoded.command.inj (hdi.symm.trans hdj)
  have himage : {w : BitVec 32 | ∃ i, decode w = .command i ∧ P (w.toNat % 256)} = S.image encode := by
    ext w
    simp only [Set.mem_ofPred_eq, Finset.coe_image, Set.mem_image, Finset.mem_coe]
    refine exists_congr fun i => ⟨fun ⟨hd, hP⟩ => ?_, fun ⟨hi, hw⟩ => ?_⟩
    · obtain ⟨hwf, hw⟩ := decode_eq_command_iff.mp hd
      exact ⟨(hS i).mpr ⟨hwf, (fields_of_decode hd).1 ▸ hP⟩, hw⟩
    · obtain ⟨hwf, hP⟩ := (hS i).mp hi
      have hd := decode_eq_command_iff.mpr ⟨hwf, hw⟩
      exact ⟨hd, (fields_of_decode hd).1.symm ▸ hP⟩
  rw [himage, Set.ncard_coe_finset, Finset.card_image_of_injOn hinj]

/-- The commands in the decoder's table of format S (R66, R68). -/
def formatSCommands : Finset Instr := ((List.range 256).filterMap formatSCommand).toFinset

theorem mem_formatSCommands (i : Instr) : i ∈ formatSCommands ↔ i.wellFormed = true ∧ i.opcode ≠ modeInitOpcode := by
  simp only [formatSCommands, List.mem_toFinset, List.mem_filterMap, List.mem_range]
  constructor
  · rintro ⟨o, -, htable⟩
    have hS := (opcode_of_formatSCommand htable).2
    exact ⟨(formatS_of_opcode_ne hS).1, hS⟩
  · rintro ⟨-, hS⟩
    exact ⟨i.opcode, opcode_lt i, (formatS_of_opcode_ne hS).2.2⟩

theorem card_formatSCommands : formatSCommands.card = 27 := by decide

/-- MODE_INIT with every value of its selections (R67). -/
def formatMCommands : Finset Instr :=
  (Finset.range 16 ×ˢ ({.enc, .dec} : Finset Dir) ×ˢ ({.noPadding, .pkcs7} : Finset Pad) ×ˢ Finset.range 32).image
    fun (mode, dir, pad, tagLen) => .modeInit mode dir pad tagLen

theorem mem_formatMCommands (i : Instr) : i ∈ formatMCommands ↔ i.wellFormed = true ∧ i.opcode = modeInitOpcode := by
  simp only [formatMCommands, Finset.mem_image, Finset.mem_product, Finset.mem_range, Prod.exists]
  constructor
  · rintro ⟨mode, dir, pad, tagLen, ⟨hmode, -, -, htag⟩, rfl⟩
    exact ⟨modeInit_wellFormed.mpr ⟨hmode, htag⟩, rfl⟩
  · rintro ⟨hwf, hM⟩
    obtain ⟨mode, dir, pad, tagLen, rfl⟩ := eq_modeInit_of_opcode hM
    obtain ⟨hmode, htag⟩ := modeInit_wellFormed.mp hwf
    exact ⟨mode, dir, pad, tagLen, ⟨hmode, by cases dir <;> decide, by cases pad <;> decide, htag⟩, rfl⟩

theorem card_formatMCommands : formatMCommands.card = 2 ^ 4 * 2 * 2 * 2 ^ 5 := by
  rw [formatMCommands, Finset.card_image_of_injective]
  · simp [Finset.card_product]
  · rintro ⟨mode, dir, pad, tagLen⟩ ⟨mode', dir', pad', tagLen'⟩ h
    simpa using h

/-! ## The selections MODE_INIT rejects -/

/-- A mode's number is below 4; CTR is 2 and GCM is 3 (R69). -/
theorem number_of_ofField {n : Nat} {m : Mode} (h : Mode.ofField n = some m) :
    n < 4 ∧ (m = .ctr ↔ n = 2) ∧ (m = .gcm ↔ n = 3) := by
  unfold Mode.ofField at h
  split at h <;> cases h <;> decide

theorem padAllowed_eq_false_iff {m : Mode} {pad : Pad} :
    padAllowed m pad = false ↔ pad = .pkcs7 ∧ (m = .ctr ∨ m = .gcm) := by
  cases m <;> cases pad <;> decide

theorem tagLength_eq_none_iff {m : Mode} {n : Nat} :
    tagLength m n = none ↔ n ≠ 0 ∧ (m = .gcm → n < 12 ∨ 16 < n) := by
  cases m with
  | ecb | cbc | ctr => simp [tagLength]
  | gcm =>
    simp only [tagLength]
    split_ifs with h0 h1 <;> simp <;> omega

/-- With a key loaded, a MODE, PAD or TAGLEN that no mode takes ends the session with InvalidParameter (R201). -/
theorem modeInit_rejected {e : Engine} {mode tagLen : Nat} {pad : Pad} (dir : Dir) (din : Octets)
    (hkey : e.sm4.keyValid = true)
    (h : ∀ m, Mode.ofField mode = some m → padAllowed m pad = false ∨ tagLength m tagLen = none) :
    modeInit mode dir pad tagLen e din = raiseEnding e .invalidParameter := by
  rw [modeInit, if_neg (by simp [hkey])]
  cases hm : Mode.ofField mode with
  | none => rfl
  | some m =>
    obtain hpad | htag := h m hm
    · simp [hpad]
    · simp [htag]

/-! ## The illegal words -/

/-- No command has an opcode that R74 lists as unassigned. -/
theorem unassignedOpcode_opcode (i : Instr) : unassignedOpcode i.opcode = false := by
  cases i <;> rfl

/-- A word that does not decode is refused, whatever DIN is (R73, R74). -/
theorem step_illegal {s : State} {c : Command} {rest : List Input} (hp : s.pending = .command c :: rest)
    (hd : ∀ i, decode c.cmd ≠ .command i) :
    step s = .next ((s.begin c.din rest).complete (raise s.engine .illegalCommand)) := by
  simp only [step, hp]
  cases h : decode c.cmd with
  | command i => exact absurd h (hd i)
  | illegal why => exact runCommand_illegal h

/-- A legal word has an assigned opcode, and its reserved bits are 0. -/
theorem reserved_of_decode {w : BitVec 32} {i : Instr} (h : decode w = .command i) :
    unassignedOpcode (w.toNat % 256) = false ∧
      (w.toNat % 256 = modeInitOpcode → w.toNat / 2 ^ 21 = 0 ∧ w.toNat / 2 ^ 14 % 4 = 0) ∧
      (w.toNat % 256 ≠ modeInitOpcode → w.toNat / 256 = 0) := by
  obtain ⟨hopc, hword⟩ := fields_of_decode h
  rw [hopc]
  refine ⟨unassignedOpcode_opcode i, fun hM => ?_, fun hS => ?_⟩
  · obtain ⟨mode, dir, pad, tagLen, rfl⟩ := eq_modeInit_of_opcode hM
    obtain ⟨hmode, htag⟩ := modeInit_wellFormed.mp (decode_eq_command_iff.mp h).1
    have hd := dirBit_lt dir
    have hp := padBit_lt pad
    rw [hword, Instr.opcode, Instr.selections]
    omega
  · have := opcode_lt i
    rw [hword, (formatS_of_opcode_ne hS).2.1]
    omega

/-! ## The obligations -/

/-- Settles O1: each field of the encoding is read back where it was laid. -/
theorem decodeEncodeRoundTrip : Obligations.DecodeEncodeRoundTrip := fun _ => decode_encode

/-- Settles O2: the reserved bits are 0 and the fields are digits of the word, so the word is what they encode to. -/
theorem legalWordIsItsEncoding : Obligations.LegalWordIsItsEncoding := fun _ _ => decode_eq_command_iff.mp

/-- Settles O3: the legal words of a format are as many as its commands, and MODE_INIT rejects these selections. -/
theorem legalWordCount : Obligations.LegalWordCount := by
  refine ⟨(ncard_legalWords (· ≠ modeInitOpcode) mem_formatSCommands).trans card_formatSCommands,
    (ncard_legalWords (· = modeInitOpcode) mem_formatMCommands).trans card_formatMCommands, ?_⟩
  intro mode tagLen dir pad s hmode htag hkey hrejected
  refine ⟨decode_encode (modeInit_wellFormed.mpr ⟨hmode, htag⟩), ?_⟩
  have hreply : modeInit mode dir pad tagLen s.engine s.din = raiseEnding s.engine .invalidParameter := by
    refine modeInit_rejected dir s.din hkey fun m hm => ?_
    obtain ⟨hlt, hctr, hgcm⟩ := number_of_ofField hm
    rw [padAllowed_eq_false_iff, tagLength_eq_none_iff, hctr, hgcm]
    obtain hunsupported | hpad | ⟨hmode, htag⟩ | ⟨-, htag, hlength⟩ := hrejected
    · omega
    · exact .inl hpad
    · exact .inr ⟨htag, fun h => absurd h hmode⟩
    · exact .inr ⟨htag, fun _ => hlength⟩
  calc exec (.modeInit mode dir pad tagLen) s
      = .next (s.complete (modeInit mode dir pad tagLen s.engine s.din)) := rfl
    _ = .next (s.complete ⟨s.engine.endSession, .invalidParameter, []⟩) := by rw [hreply]; rfl

/-- Settles O6: an illegal word decodes to no command, because a legal one has its reserved bits 0. -/
theorem illegalWordChangesNothing : Obligations.IllegalWordChangesNothing := by
  refine ⟨fun s c rest hp hillegal => step_illegal hp fun i hd => ?_, rfl⟩
  obtain ⟨hassigned, hM, hS⟩ := reserved_of_decode hd
  obtain hopc | ⟨hopc, hbits⟩ | ⟨hopc, hbits⟩ := hillegal
  · simp [hassigned] at hopc
  · obtain ⟨hhigh, hlow⟩ := hM hopc
    exact hbits.elim (absurd hhigh) (absurd hlow)
  · exact hbits (hS hopc)

/-- Settles O4, by evaluating the decoder on the twelve words. -/
theorem specWordsDecode : Obligations.SpecWordsDecode := by
  unfold Obligations.SpecWordsDecode
  decide

/-- Settles O5, by evaluating the assembler on the eleven lines. -/
theorem specLinesAssemble : Obligations.SpecLinesAssemble := by
  unfold Obligations.SpecLinesAssemble
  decide

end Sys2Proof.Machine

/-! # The control commands' statements (40_control.md)
PROOF. A format S word decodes by its upper bits alone, a command that takes no operand answers its body or
InvalidInputLength, and the first two summary bytes are the sums of their fields. -/

namespace Sys2Proof.Machine

/-! ## Format S words -/

/-- Every word with a format S command's opcode decodes to that command, unless a bit above the opcode is set (R66, R73). -/
theorem formatS_opcode {i : Instr} (h : i.opcode ≠ modeInitOpcode) : FormatS i.opcode i := by
  intro w hw
  obtain ⟨-, -, htable⟩ := formatS_of_opcode_ne h
  have hopc : opcField w = i.opcode := by simpa [opcField, cmdField] using hw
  have hhigh : cmdField w 8 24 = w.toNat / 256 := by
    have := w.isLt
    simp only [cmdField]
    omega
  rw [decode, if_neg (hopc ▸ h), decodeFormatS, hopc, htable]
  simp only [hhigh, ne_eq, ite_not]

/-! ## Commands without an operand -/

/-- On a nonempty DIN a command that takes no operand answers InvalidInputLength and leaves the engine (R77). -/
theorem finish_needEmptyDin_nonempty {s : State} (body : Reply) (h : s.din ≠ []) :
    finish s (needEmptyDin s.engine s.din body) = .next (s.complete ⟨s.engine, .invalidInputLength, []⟩) := by
  rw [needEmptyDin_nonempty _ _ h, finish_eq, raise]

/-- On an empty DIN a command that takes no operand answers its body (R77). -/
theorem finish_needEmptyDin_nil {s : State} (body : Reply) (h : s.din = []) :
    finish s (needEmptyDin s.engine s.din body) = .next (s.complete body) := by
  rw [h, needEmptyDin_nil, finish_eq]

theorem exec_nop (s : State) : exec .nop s = finish s (needEmptyDin s.engine s.din (answer s.engine [])) := rfl

theorem exec_getState (s : State) :
    exec .getState s = finish s (needEmptyDin s.engine s.din (answer s.engine (stateSummary s.engine))) := rfl

theorem exec_engineReset (s : State) :
    exec .engineReset s = finish s (needEmptyDin s.engine s.din (answer .reset [])) := rfl

/-- With DIN empty, ENGINE_RESET answers OK and leaves the reset engine (R92). -/
theorem exec_engineReset_nil {s : State} (h : s.din = []) :
    exec .engineReset s = .next (s.complete ⟨.reset, .ok, []⟩) := by
  rw [exec_engineReset, finish_needEmptyDin_nil _ h, answer]

/-! ## The summary bytes -/

/-- Four flags in bits 0 to 3 are the sum of their weights. -/
theorem flagBytes_eq_ofNat (a b c d : Bool) :
    flagByte a ||| flagByte b <<< 1 ||| flagByte c <<< 2 ||| flagByte d <<< 3 =
      BitVec.ofNat 8 ((if a = true then 1 else 0) + (if b = true then 2 else 0) + (if c = true then 4 else 0) +
        (if d = true then 8 else 0)) := by
  revert a b c d
  decide

theorem flagBytes_getLsbD_three (a b c d : Bool) :
    (flagByte a ||| flagByte b <<< 1 ||| flagByte c <<< 2 ||| flagByte d <<< 3).getLsbD 3 = d := by
  revert a b c d
  decide

theorem summaryByte0_eq_ofNat (e : Engine) :
    summaryByte0 e = BitVec.ofNat 8 ((if e.sm3.phase = .active then 1 else 0) + (if e.sm4.keyValid = true then 2 else 0) +
      (if e.sess.phase = .active then 4 else 0) + (if e.gcm.started = true then 8 else 0)) := by
  rw [summaryByte0, flagBytes_eq_ofNat]
  simp only [decide_eq_true_eq]

theorem summaryByte0_getLsbD_three (e : Engine) : (summaryByte0 e).getLsbD 3 = e.gcm.started :=
  flagBytes_getLsbD_three ..

/-- The codes of MODE, DIR and PAD lie in separate bits, so byte 1 is the sum of their weights (R91). -/
theorem summaryByte1_eq_ofNat (e : Engine) :
    summaryByte1 e = BitVec.ofNat 8 ((Mode.code e.sess.mode).toNat + (if e.sess.dir = .dec then 4 else 0) +
      (if e.sess.pad = .pkcs7 then 8 else 0)) := by
  rw [summaryByte1]
  cases e.sess.mode <;> cases e.sess.dir <;> cases e.sess.pad <;> rfl

/-! ## The obligations -/

/-- Settles O10: NOP takes no operand, and its body is the engine as it was. -/
theorem nopRule : Obligations.NopRule :=
  ⟨formatS_opcode (i := .nop) (by decide), fun _ => finish_needEmptyDin_nonempty _, fun _ => finish_needEmptyDin_nil _⟩

/-- Settles O11: the summary bytes are the sums of their fields, and an IDLE unit holds its IDLE value. -/
theorem getStateRule : Obligations.GetStateRule := by
  refine ⟨formatS_opcode (i := .getState) (by decide), fun s => finish_needEmptyDin_nonempty _, fun s hdin => ?_,
    fun s hinv hidle => ?_, fun s hinv hidle => ?_⟩
  · rw [exec_getState, finish_needEmptyDin_nil _ hdin, stateSummary, summaryByte0_eq_ofNat, summaryByte1_eq_ofNat, answer]
    cases s.engine.sess.mode <;> rfl
  · obtain ⟨hsess, hgcm⟩ := hinv.idleSession hidle
    rw [summaryByte0_getLsbD_three, summaryByte1, hsess, hgcm]
    exact ⟨rfl, rfl, rfl⟩
  · rw [hinv.sm3.idle hidle]
    rfl

/-- Settles O12: the command and the reset event both leave the reset engine. -/
theorem engineResetRule : Obligations.EngineResetRule := by
  refine ⟨formatS_opcode (i := .engineReset) (by decide), fun s => finish_needEmptyDin_nonempty _,
    fun s => exec_engineReset_nil, fun s t t' rest hdin ht ht' => ?_⟩
  have hevent : step { s with pending := .resetEvent :: rest } = .next (State.takeReset _ rest) := step_resetEvent rfl
  cases (exec_engineReset_nil hdin).symm.trans ht
  cases hevent.symm.trans ht'
  rfl

end Sys2Proof.Machine

/-! # The modular unit's statements (41_modular.md)
PROOF. ModCheck by the number of operands, the results on operands below the modulus, and Euclid's algorithm in the ring
of residues, whose result is the inverse. -/

namespace Sys2Proof.Machine

/-! ## ModCheck -/

theorem modBinary_badOperand {m : Nat} {e : Engine} {din : Octets} (f : Nat → Nat → Nat) (hlen : din.length = 64)
    (h : m ≤ beNat (din.take 32) ∨ m ≤ beNat (din.drop 32)) : modBinary m f e din = raise e .invalidOperand := by
  obtain h | h := h <;> simp [modBinary, hlen, h]

theorem modUnary_badOperand {m : Nat} {e : Engine} {din : Octets} (f : Nat → Option Nat) (hlen : din.length = 32)
    (h : m ≤ beNat din) : modUnary m f e din = raise e .invalidOperand := by
  simp [modUnary, hlen, h]

/-- An operand the operation disallows (R109, R114). -/
theorem modUnary_none {m a : Nat} {e : Engine} {f : Nat → Option Nat} (hm : m ≤ 256 ^ 32) (ha : a < m)
    (hf : f a = none) : modUnary m f e (toBE 32 a) = raise e .invalidOperand := by
  have hval : beNat (toBE 32 a) = a := beNat_toBE_of_lt (ha.trans_le hm)
  simp [modUnary, hval, Nat.not_le.mpr ha, hf]

section Check
variable {i : Instr} {m : Nat}

theorem modCheck_of_modBinary {f : Nat → Nat → Nat} (h : ∀ s, exec i s = finish s (modBinary m f s.engine s.din)) :
    ModCheck i m 64 := by
  refine fun s => ⟨fun hlen => ?_, fun hlen hbad => ?_⟩
  · rw [h, modBinary_badLength f hlen, finish_eq, raise]
  · rw [h, modBinary_badOperand f hlen hbad, finish_eq, raise]

/-- With one operand DIN[32:] is empty, so only the operand itself can be too large. -/
theorem modCheck_of_modUnary {f : Nat → Option Nat} (hm : 0 < m)
    (h : ∀ s, exec i s = finish s (modUnary m f s.engine s.din)) : ModCheck i m 32 := by
  refine fun s => ⟨fun hlen => ?_, fun hlen hbad => ?_⟩
  · rw [h, modUnary_badLength f hlen, finish_eq, raise]
  · have hrest : beNat (s.din.drop 32) = 0 := by rw [List.drop_of_length_le hlen.le, beNat]
    rw [List.take_of_length_le hlen.le, hrest] at hbad
    have hbad' : m ≤ beNat s.din := hbad.resolve_right (by omega)
    rw [h, modUnary_badOperand f hlen hbad', finish_eq, raise]

end Check

/-- A modular command performs an operation on two operands of DIN, or on one. -/
theorem exec_modularCommand {i : Instr} {m k : Nat} (h : (i, m, k) ∈ modularCommands) :
    (k = 64 ∧ ∃ f, ∀ s, exec i s = finish s (modBinary m f s.engine s.din)) ∨
      (k = 32 ∧ 0 < m ∧ ∃ f, ∀ s, exec i s = finish s (modUnary m f s.engine s.din)) := by
  have hp := pSM2_prime.pos
  have hn := nSM2_prime.pos
  simp only [modularCommands, List.cons_append, List.nil_append, List.mem_cons, List.not_mem_nil, or_false,
    Prod.mk.injEq] at h
  obtain ⟨rfl, rfl, rfl⟩ | ⟨rfl, rfl, rfl⟩ | ⟨rfl, rfl, rfl⟩ | ⟨rfl, rfl, rfl⟩ | ⟨rfl, rfl, rfl⟩ | ⟨rfl, rfl, rfl⟩ |
    ⟨rfl, rfl, rfl⟩ | ⟨rfl, rfl, rfl⟩ | ⟨rfl, rfl, rfl⟩ | ⟨rfl, rfl, rfl⟩ := h
  · exact .inl ⟨rfl, modAdd pSM2, fun _ => rfl⟩
  · exact .inl ⟨rfl, modSub pSM2, fun _ => rfl⟩
  · exact .inl ⟨rfl, modMul pSM2, fun _ => rfl⟩
  · exact .inr ⟨rfl, hp, sqrOp pSM2, fun _ => rfl⟩
  · exact .inr ⟨rfl, hp, invOp pSM2, fun _ => rfl⟩
  · exact .inl ⟨rfl, modAdd nSM2, fun _ => rfl⟩
  · exact .inl ⟨rfl, modSub nSM2, fun _ => rfl⟩
  · exact .inl ⟨rfl, modMul nSM2, fun _ => rfl⟩
  · exact .inr ⟨rfl, hn, sqrOp nSM2, fun _ => rfl⟩
  · exact .inr ⟨rfl, hn, invOp nSM2, fun _ => rfl⟩

theorem modCheck_of_mem {i : Instr} {m k : Nat} (h : (i, m, k) ∈ modularCommands) : ModCheck i m k := by
  obtain ⟨rfl, f, hexec⟩ | ⟨rfl, hm, f, hexec⟩ := exec_modularCommand h
  · exact modCheck_of_modBinary hexec
  · exact modCheck_of_modUnary hm hexec

/-- No modular command changes the engine, on any status (R39, R104). -/
theorem modularCommand_engine {i : Instr} {m k : Nat} {s t : State} (h : (i, m, k) ∈ modularCommands)
    (ht : exec i s = .next t) : t.engine = s.engine := by
  obtain ⟨-, f, hexec⟩ | ⟨-, -, f, hexec⟩ := exec_modularCommand h
  · rw [next_of_finish ((hexec s).symm.trans ht)]
    exact modBinary_engine ..
  · rw [next_of_finish ((hexec s).symm.trans ht)]
    exact modUnary_engine ..

/-! ## Operands below the modulus -/

theorem pSM2_le : pSM2 ≤ 256 ^ 32 := by norm_num [pSM2]

theorem nSM2_le : nSM2 ≤ 256 ^ 32 := by norm_num [nSM2]

/-- Both moduli are prime and fit in 32 bytes (R102). -/
theorem modulus_spec {m : Nat} (h : m ∈ [pSM2, nSM2]) : m.Prime ∧ m ≤ 256 ^ 32 := by
  simp only [List.mem_cons, List.not_mem_nil, or_false] at h
  obtain rfl | rfl := h
  · exact ⟨pSM2_prime, pSM2_le⟩
  · exact ⟨nSM2_prime, nSM2_le⟩

section Results
variable {s : State} {m a : Nat}

theorem finish_modBinary_ok (f : Nat → Nat → Nat) {b : Nat} (hm : m ≤ 256 ^ 32) (ha : a < m) (hb : b < m)
    (hd : s.din = toBE 32 a ++ toBE 32 b) :
    finish s (modBinary m f s.engine s.din) = .next (s.complete ⟨s.engine, .ok, toBE 32 (f a b)⟩) := by
  rw [modBinary_ok f hm ha hb hd, finish_eq, answer]

theorem finish_modUnary_ok {f : Nat → Option Nat} {r : Nat} (hm : m ≤ 256 ^ 32) (ha : a < m) (hf : f a = some r)
    (hd : s.din = toBE 32 a) :
    finish s (modUnary m f s.engine s.din) = .next (s.complete ⟨s.engine, .ok, toBE 32 r⟩) := by
  rw [modUnary_ok hm ha hf hd, finish_eq, answer]

/-- The answered difference is the least residue of a − b (R14, R106, R111). -/
theorem finish_modSub {b : Nat} (hm : m ≤ 256 ^ 32) (ha : a < m) (hb : b < m) (hd : s.din = toBE 32 a ++ toBE 32 b) :
    finish s (modBinary m (modSub m) s.engine s.din) =
      .next (s.complete ⟨s.engine, .ok, toBE 32 (if b ≤ a then a - b else a + m - b)⟩) := by
  rw [finish_modBinary_ok (modSub m) hm ha hb hd, modSub_eq ha hb]

theorem sqrOp_eq (m a : Nat) : sqrOp m a = some (a ^ 2 % m) := by rw [sqrOp, modMul, pow_two]

theorem invOp_zero (m : Nat) : invOp m 0 = none := if_pos rfl

theorem invOp_of_pos (m : Nat) (ha : 0 < a) : invOp m a = some (modInv m a) := if_neg ha.ne'

end Results

/-- The two inversion commands and their moduli (R109, R114). -/
theorem exec_inv {i : Instr} {m : Nat} (h : (i, m) ∈ [(Instr.fpInv, pSM2), (.fnInv, nSM2)]) :
    m ∈ [pSM2, nSM2] ∧ ∀ s, exec i s = finish s (modUnary m (invOp m) s.engine s.din) := by
  simp only [List.mem_cons, List.not_mem_nil, or_false, Prod.mk.injEq] at h ⊢
  obtain ⟨rfl, rfl⟩ | ⟨rfl, rfl⟩ := h
  · exact ⟨.inl rfl, fun _ => rfl⟩
  · exact ⟨.inr rfl, fun _ => rfl⟩

/-! ## Residues -/

section Residues
variable {m a : Nat}

theorem modAdd_cast (m a b : Nat) : (modAdd m a b : ZMod m) = a + b := by
  rw [modAdd, ZMod.natCast_mod, Nat.cast_add]

theorem modMul_cast (m a b : Nat) : (modMul m a b : ZMod m) = a * b := by
  rw [modMul, ZMod.natCast_mod, Nat.cast_mul]

theorem modSub_cast (hm : 0 < m) (a b : Nat) : (modSub m a b : ZMod m) = a - b := by
  have hpos : 0 ≤ ((a : Int) - b) % m := Int.emod_nonneg _ (by omega)
  rw [modSub, ← Int.cast_natCast, Int.toNat_of_nonneg hpos, ZMod.intCast_mod, Int.cast_sub, Int.cast_natCast,
    Int.cast_natCast]

/-- Residues below m are equal when they are equal in the ring of residues. -/
theorem eq_of_cast_eq {b : Nat} (ha : a < m) (hb : b < m) (h : (a : ZMod m) = b) : a = b :=
  ((ZMod.natCast_eq_natCast_iff _ _ _).mp h).eq_of_lt_of_lt ha hb

/-! ## Euclid's algorithm -/

/-- As long as a·t0 is r0 and a·t1 is r1, Euclid's algorithm finds a multiplier of a that gives their greatest common
divisor; the second remainder falls in every step, so it bounds the fuel. -/
theorem mul_euclid_cast (hm : 0 < m) {fuel r0 r1 t0 t1 : Nat} (hfuel : r1 ≤ fuel) (h0 : (a : ZMod m) * t0 = r0)
    (h1 : (a : ZMod m) * t1 = r1) : (a : ZMod m) * euclid m fuel r0 r1 t0 t1 = Nat.gcd r0 r1 := by
  induction fuel generalizing r0 r1 t0 t1 with
  | zero =>
    rw [Nat.le_zero.mp hfuel, euclid, Nat.gcd_zero_right, h0]
  | succ fuel ih =>
    rw [euclid]
    split
    next hr => rw [hr, Nat.gcd_zero_right, h0]
    next hr =>
      have hlt : r0 % r1 < r1 := Nat.mod_lt _ (Nat.pos_of_ne_zero hr)
      have hsplit : (r0 : ZMod m) = r1 * (r0 / r1 : Nat) + (r0 % r1 : Nat) := by
        rw [← Nat.cast_mul, ← Nat.cast_add, Nat.div_add_mod]
      have hnext : (a : ZMod m) * modSub m t0 (r0 / r1 * t1) = (r0 % r1 : Nat) := by
        calc (a : ZMod m) * modSub m t0 (r0 / r1 * t1)
            = a * t0 - (r0 / r1 : Nat) * (a * t1) := by rw [modSub_cast hm, Nat.cast_mul]; ring
          _ = r1 * (r0 / r1 : Nat) + (r0 % r1 : Nat) - (r0 / r1 : Nat) * r1 := by rw [h0, h1, hsplit]
          _ = (r0 % r1 : Nat) := by ring
      rw [ih (by omega) h1 hnext, Nat.gcd_comm r1, ← Nat.gcd_rec, Nat.gcd_comm r1]

theorem modInv_lt (hm : 1 < m) (a : Nat) : modInv m a < m := euclid_lt (by omega) _ _ _ _ _ (by omega) hm

/-- The inverse of an operand that has one (R109, R114). -/
theorem mul_modInv_mod (hm : 1 < m) (ha : a < m) (hgcd : m.Coprime a) : a * modInv m a % m = 1 := by
  have hcast : (a : ZMod m) * modInv m a = Nat.gcd m a :=
    mul_euclid_cast (by omega) ha.le (by simp) (by simp)
  rw [hgcd.gcd_eq_one, ← Nat.cast_mul] at hcast
  exact Nat.mod_eq_of_modEq ((ZMod.natCast_eq_natCast_iff _ _ _).mp hcast) hm

/-- Two residues that invert the same operand are equal. -/
theorem inverse_unique {x y : Nat} (hgcd : m.Coprime a) (hx : x < m) (hy : y < m) (hax : a * x % m = 1)
    (hay : a * y % m = 1) : y = x :=
  (Nat.ModEq.cancel_left_of_coprime hgcd (hay.trans hax.symm)).eq_of_lt_of_lt hy hx

/-- Fermat: a^(m−2) inverts a modulo a prime m. -/
theorem mul_pow_sub_two_mod (hm : m.Prime) (hgcd : m.Coprime a) : a * (a ^ (m - 2) % m) % m = 1 := by
  have hexp : a * a ^ (m - 2) = a ^ m.totient := by
    have := hm.two_le
    rw [Nat.totient_prime hm, ← pow_succ', show m - 2 + 1 = m - 1 by omega]
  rw [Nat.mul_mod_mod, hexp, Nat.pow_totient_mod_eq_one hm.one_lt hgcd.symm]

end Residues

/-! ## The obligations -/

/-- Settles O13: each of the ten commands is an operation on two operands or on one, behind the same check. -/
theorem modCheckRule : Obligations.ModCheckRule :=
  ⟨rfl, rfl, fun _ _ _ => modCheck_of_mem, fun _ _ _ _ _ => modularCommand_engine⟩

/-- Settles O14: on operands below the modulus the command answers its operation's result. -/
theorem modAddResult : Obligations.ModAddResult :=
  ⟨formatS_opcode (i := .fpAdd) (by decide), formatS_opcode (i := .fnAdd) (by decide),
    modCheck_of_mem (by simp [modularCommands]), modCheck_of_mem (by simp [modularCommands]),
    fun _ _ _ => finish_modBinary_ok (modAdd pSM2) pSM2_le, fun _ _ _ => finish_modBinary_ok (modAdd nSM2) nSM2_le⟩

/-- Settles O15: the least residue of the difference is a − b, or a − b + m where a < b. -/
theorem modSubResult : Obligations.ModSubResult :=
  ⟨formatS_opcode (i := .fpSub) (by decide), formatS_opcode (i := .fnSub) (by decide),
    modCheck_of_mem (by simp [modularCommands]), modCheck_of_mem (by simp [modularCommands]),
    fun _ _ _ => finish_modSub pSM2_le, fun _ _ _ => finish_modSub nSM2_le⟩

/-- Settles O16: on operands below the modulus the command answers its operation's result. -/
theorem modMulResult : Obligations.ModMulResult :=
  ⟨formatS_opcode (i := .fpMul) (by decide), formatS_opcode (i := .fnMul) (by decide),
    modCheck_of_mem (by simp [modularCommands]), modCheck_of_mem (by simp [modularCommands]),
    fun _ _ _ => finish_modBinary_ok (modMul pSM2) pSM2_le, fun _ _ _ => finish_modBinary_ok (modMul nSM2) nSM2_le⟩

/-- Settles O17: the operation is the product of the operand with itself. -/
theorem modSqrResult : Obligations.ModSqrResult :=
  ⟨formatS_opcode (i := .fpSqr) (by decide), formatS_opcode (i := .fnSqr) (by decide),
    modCheck_of_mem (by simp [modularCommands]), modCheck_of_mem (by simp [modularCommands]),
    fun _ a ha => finish_modUnary_ok pSM2_le ha (sqrOp_eq pSM2 a),
    fun _ a ha => finish_modUnary_ok nSM2_le ha (sqrOp_eq nSM2 a)⟩

/-- Settles O18: Euclid's result is an inverse, Fermat's power is another, and an inverse modulo a prime is unique. -/
theorem modInvResult : Obligations.ModInvResult := by
  refine ⟨formatS_opcode (i := .fpInv) (by decide), formatS_opcode (i := .fnInv) (by decide),
    modCheck_of_mem (by simp [modularCommands]), modCheck_of_mem (by simp [modularCommands]), fun i m hi => ?_⟩
  obtain ⟨hmem, hexec⟩ := exec_inv hi
  obtain ⟨hm, hle⟩ := modulus_spec hmem
  refine ⟨fun s hd => ?_, fun s a hpos ha hd => ?_⟩
  · rw [hexec, hd, modUnary_none hle hm.pos (invOp_zero m), finish_eq, raise]
  · have hgcd := Nat.coprime_of_lt_prime hpos.ne' ha hm
    have hinv := mul_modInv_mod hm.one_lt ha hgcd
    have hlt := modInv_lt hm.one_lt a
    refine ⟨modInv m a, ?_, hlt, hinv, fun y hy hay => inverse_unique hgcd hlt hy hinv hay,
      inverse_unique hgcd hlt (Nat.mod_lt _ hm.pos) hinv (mul_pow_sub_two_mod hm hgcd), ?_⟩
    · refine Nat.one_le_iff_ne_zero.mpr fun h0 => ?_
      simp [h0] at hinv
    · rw [hexec, finish_modUnary_ok hle ha (invOp_of_pos m hpos) hd]

/-- Settles O19: the operations are those of the ring of residues, and Euclid's result is an inverse. -/
theorem modularLaws : Obligations.ModularLaws := by
  intro m a b c hmem ha hb hc
  obtain ⟨hm, -⟩ := modulus_spec hmem
  have hadd : ∀ x y, modAdd m x y < m := fun _ _ => Nat.mod_lt _ hm.pos
  have hmul : ∀ x y, modMul m x y < m := fun _ _ => Nat.mod_lt _ hm.pos
  have hsub : ∀ x y, modSub m x y < m := modSub_lt hm.pos
  refine ⟨⟨hadd _ _, hsub _ _, hmul _ _, modInv_lt hm.one_lt a⟩, ⟨?_, ?_⟩, ⟨?_, ?_⟩, ?_, fun h0 => ?_⟩
  · rw [modAdd, modAdd, Nat.add_comm]
  · refine eq_of_cast_eq (hadd _ _) (hadd _ _) ?_
    simp only [modAdd_cast, add_assoc]
  · rw [modMul, modMul, Nat.mul_comm]
  · refine eq_of_cast_eq (hmul _ _) (hmul _ _) ?_
    simp only [modMul_cast, mul_assoc]
  · refine eq_of_cast_eq (hsub _ _) (hadd _ _) ?_
    rw [modAdd_cast, modSub_cast hm.pos, modSub_cast hm.pos, Nat.cast_zero]
    ring
  · exact mul_modInv_mod hm.one_lt ha (Nat.coprime_of_lt_prime h0 ha hm)

end Sys2Proof.Machine

/-! # The SM3 unit's statements (42_sm3.md)
PROOF. Padding by its number of zeros, the digest of a context by the message it has absorbed, the message schedule by its
recurrence, the rounds one after another, and the run of a hash over the parts of a message. -/

namespace Sys2Proof.Machine

/-! ## Padding -/

/-- The length comes to 56 modulo 64 (R141). -/
theorem sm3PadZeros_spec (n : Nat) : (n + 1 + sm3PadZeros n) % 64 = 56 := by
  unfold sm3PadZeros
  omega

/-- No smaller number of zeros will do (R141). -/
theorem sm3PadZeros_le {n k : Nat} (h : (n + 1 + k) % 64 = 56) : sm3PadZeros n ≤ k := by
  unfold sm3PadZeros
  omega

theorem sm3PadZeros_mod (n : Nat) : sm3PadZeros (n % 64) = sm3PadZeros n := by
  rw [sm3PadZeros, sm3PadZeros, Nat.mod_mod]

theorem sm3PadTail_eq (tail : Octets) (bits : Nat) :
    sm3PadTail tail bits = tail ++ 0x80 :: List.replicate (sm3PadZeros tail.length) 0 ++ toBE 8 bits := by
  simp [sm3PadTail, bytesK]

/-- Padding with any number of zeros below 64 that reaches 56 modulo 64 is the padding (R141). -/
theorem sm3PadTail_eq_of_zeros {tail : Octets} {k : Nat} (bits : Nat) (hk : k < 64)
    (h : (tail.length + 1 + k) % 64 = 56) : sm3PadTail tail bits = tail ++ 0x80 :: List.replicate k 0 ++ toBE 8 bits := by
  rw [sm3PadTail_eq, sm3PadZeros_unique hk h]

theorem sm3Pad_length (m : Octets) : (sm3Pad m).length = 64 * ((m.length + 9 + 63) / 64) := by
  simp only [sm3Pad, sm3PadTail_eq, List.length_append, List.length_cons, List.length_replicate, toBE_length, sm3PadZeros]
  omega

/-! ## The digest -/

/-- What is left of a byte string after its whole 64-byte blocks. -/
def sm3Rest (s : Octets) : Octets := s.drop (64 * (s.length / 64))

@[simp] theorem sm3Rest_length (s : Octets) : (sm3Rest s).length = s.length % 64 := by
  rw [sm3Rest, List.length_drop]
  omega

/-- Compressing s ‖ t is compressing the whole blocks of s, then the rest of s followed by t (R142). -/
theorem sm3Blocks_append_rest (v : Chain) (s t : Octets) :
    sm3Blocks v (s ++ t) = sm3Blocks (sm3Blocks v s) (sm3Rest s ++ t) := by
  have hwhole : (s.take (64 * (s.length / 64))).length % 64 = 0 := by
    rw [List.length_take]
    omega
  have hsplit (u : Octets) : sm3Blocks v (s ++ u) =
      sm3Blocks (sm3Blocks v (s.take (64 * (s.length / 64)))) (sm3Rest s ++ u) := by
    rw [← sm3Blocks_append _ _ _ hwhole, ← List.append_assoc, sm3Rest, List.take_append_drop]
  have hshort : sm3Blocks v s = sm3Blocks v (s.take (64 * (s.length / 64))) := by
    rw [← List.append_nil s, hsplit, sm3Blocks_short _ (by simp; omega), List.append_nil]
  rw [hsplit, hshort]

/-- Padding what is left of a message pads the message (R141, R146). -/
theorem sm3Blocks_padTail (v : Chain) (m : Octets) (bits : Nat) :
    sm3Blocks v (sm3PadTail m bits) = sm3Blocks (sm3Blocks v m) (sm3PadTail (sm3Rest m) bits) := by
  simp only [sm3PadTail, List.append_assoc, sm3Rest_length, sm3PadZeros_mod]
  exact sm3Blocks_append_rest v m _

section Absorb
variable (x : Sm3Ctx) (din : Octets)

theorem Sm3Ctx.absorb_V : (x.absorb din).V = sm3Blocks x.V (x.filled ++ din) := by
  obtain ⟨hV, -, -, -⟩ := foldl_absorbByte x din
  exact hV

theorem Sm3Ctx.absorb_filled : (x.absorb din).filled = sm3Rest (x.filled ++ din) := by
  obtain ⟨-, hfilled, -, -⟩ := foldl_absorbByte x din
  exact hfilled

theorem Sm3Ctx.absorb_nbuf : (x.absorb din).nbuf.val = (x.filled ++ din).length % 64 := by
  rw [← Sm3Ctx.filled_length, Sm3Ctx.absorb_filled, sm3Rest_length]

theorem Sm3Ctx.digest_eq : x.digest = (sm3Blocks x.V (sm3PadTail x.filled x.bitlen.toNat)).bytes := rfl

end Absorb

@[simp] theorem Sm3Ctx.started_filled : Sm3Ctx.started.filled = [] := rfl

/-- The context that has absorbed a message from the start holds its digest (R142, R146). -/
theorem started_absorb_digest {m : Octets} (h : 8 * m.length < 2 ^ 64) : (Sm3Ctx.started.absorb m).digest = sm3Hash m := by
  have hbits : (Sm3Ctx.started.absorb m).bitlen.toNat = 8 * m.length := by
    rw [Sm3Ctx.absorb_bitlen (by simpa [Sm3Ctx.started, Config.sm3BitLimit] using h)]
    simp [Sm3Ctx.started]
  rw [Sm3Ctx.digest_eq, Sm3Ctx.absorb_V, Sm3Ctx.absorb_filled, hbits, Sm3Ctx.started_filled, List.nil_append,
    ← sm3Blocks_padTail, sm3Hash, sm3Pad, Sm3Ctx.started]

/-! ## The message schedule -/

/-- W[j] of a list of words; 0 where there is none. -/
def wordAt (ws : List Word) (j : Nat) : Word := ws.getD j 0

/-- R137's equation for W[j]. -/
def ExpandsAt (w : Nat → Word) (j : Nat) : Prop :=
  w j = sm3P1 (w (j - 16) ^^^ w (j - 9) ^^^ (w (j - 3)).rotateLeft 15) ^^^ (w (j - 13)).rotateLeft 7 ^^^ w (j - 6)

@[simp] theorem sm3Extend_length (n : Nat) (older : List Word) : (sm3Extend n older).length = older.length + n := by
  induction n generalizing older with
  | zero => rfl
  | succ n ih => rw [sm3Extend, ih, List.length_cons, Nat.add_right_comm, Nat.add_assoc]

/-- Extending keeps the words there are. -/
theorem wordAt_sm3Extend (n : Nat) (older : List Word) {j : Nat} (h : j < older.length) :
    wordAt (sm3Extend n older).reverse j = wordAt older.reverse j := by
  induction n generalizing older with
  | zero => rfl
  | succ n ih =>
    rw [sm3Extend, ih _ (by simp; omega), wordAt, List.reverse_cons, List.getD_append _ _ _ _ (by simpa using h)]
    rfl

/-- The k-th word back from the newest is W[n − k] (R137). -/
theorem back_eq_wordAt (older : List Word) {k : Nat} (hk : 0 < k) (h : k ≤ older.length) :
    back older k = wordAt older.reverse (older.length - k) := by
  rw [back, wordAt, List.getD_reverse _ (by omega)]
  congr 1
  omega

/-- Each word that extending adds follows the recurrence (R137). -/
theorem sm3Extend_expandsAt (n : Nat) (older : List Word) (h16 : 16 ≤ older.length) {j : Nat} (hlo : older.length ≤ j)
    (hhi : j < older.length + n) : ExpandsAt (wordAt (sm3Extend n older).reverse) j := by
  induction n generalizing older with
  | zero => omega
  | succ n ih =>
    obtain rfl | hlt := hlo.eq_or_lt
    · have hback (k : Nat) (hpos : 0 < k) (hk : k ≤ 16) :
          wordAt (sm3Extend (n + 1) older).reverse (older.length - k) = back older k := by
        rw [wordAt_sm3Extend _ _ (by omega), back_eq_wordAt _ hpos (by omega)]
      have hnew : wordAt (sm3Extend (n + 1) older).reverse older.length = sm3NextW older := by
        rw [sm3Extend, wordAt_sm3Extend _ _ (by simp), wordAt]
        simp
      rw [ExpandsAt, hnew, hback 16, hback 9, hback 3, hback 13, hback 6, sm3NextW] <;> omega
    · exact ih (sm3NextW older :: older) (by simp; omega) (by simpa using hlt) (by simp; omega)

/-- The i-th piece starts at byte size·i. -/
theorem pieces_getD (size n : Nat) (s : Octets) {i : Nat} (h : i < n) :
    (pieces size n s).getD i [] = (s.drop (size * i)).take size := by
  induction n generalizing s i with
  | zero => omega
  | succ n ih =>
    cases i with
    | zero => simp [pieces]
    | succ i => rw [pieces, List.getD_cons_succ, ih _ (by omega), List.drop_drop, Nat.mul_succ, Nat.add_comm]

@[simp] theorem wordsOf_length (s : Octets) : (wordsOf s).length = s.length / 4 := by
  simp [wordsOf, wholePieces]

theorem wordAt_wordsOf {s : Octets} {i : Nat} (h : i < s.length / 4) :
    wordAt (wordsOf s) i = wordOfBytes ((s.drop (4 * i)).take 4) := by
  rw [← pieces_getD _ _ _ h, ← List.getD_map (f := wordOfBytes)]
  rfl

/-- The 4-byte forms of words, by index. -/
theorem bytesOfWords_eq_range {ws : List Word} {n : Nat} (h : ws.length = n) :
    bytesOfWords ws = ((List.range n).map fun j => bytesOfWord (wordAt ws j)).flatten := by
  subst h
  rw [bytesOfWords]
  congr 1
  refine List.ext_getElem (by simp) fun j h1 h2 => ?_
  have hj : j < ws.length := by simpa using h1
  simp [wordAt, hj]

theorem bytesOfWords_append (ws ws' : List Word) : bytesOfWords (ws ++ ws') = bytesOfWords ws ++ bytesOfWords ws' := by
  simp [bytesOfWords]

section Schedule
variable {b : Octets} (h : b.length = 64)
include h

theorem sm3W_length : (sm3W b).length = 68 := by simp [sm3W, h]

theorem sm3W'_length : (sm3W' (sm3W b)).length = 64 := by simp [sm3W', sm3W_length h]

/-- The first sixteen words are those of the block (R136). -/
theorem sm3W_first {i : Nat} (hi : i < 16) : wordAt (sm3W b) i = wordOfBytes ((b.drop (4 * i)).take 4) := by
  rw [sm3W, wordAt_sm3Extend _ _ (by simpa [h] using hi), List.reverse_reverse, wordAt_wordsOf (by omega)]

/-- The later words follow the recurrence (R137). -/
theorem sm3W_expandsAt {j : Nat} (hlo : 16 ≤ j) (hhi : j < 68) : ExpandsAt (wordAt (sm3W b)) j :=
  sm3Extend_expandsAt 52 (wordsOf b).reverse (by simp [h]) (by simpa [h] using hlo) (by simpa [h] using hhi)

/-- W′[j] = W[j] ⊕ W[j+4] (R138). -/
theorem wordAt_sm3W' {j : Nat} (hj : j < 64) :
    wordAt (sm3W' (sm3W b)) j = wordAt (sm3W b) j ^^^ wordAt (sm3W b) (j + 4) := by
  have hlen := sm3W_length h
  have hlen' := sm3W'_length h
  simp only [wordAt]
  rw [List.getD_eq_getElem _ _ (by omega), List.getD_eq_getElem _ _ (by omega), List.getD_eq_getElem _ _ (by omega)]
  simp [sm3W', Nat.add_comm]

/-- The octets of the message schedule, word by word (R149). -/
theorem bytesOfWords_schedule : bytesOfWords (sm3W b ++ sm3W' (sm3W b)) =
    ((List.range 68).map fun j => bytesOfWord (wordAt (sm3W b) j)).flatten ++
      ((List.range 64).map fun j => bytesOfWord (wordAt (sm3W b) j ^^^ wordAt (sm3W b) (j + 4))).flatten := by
  rw [bytesOfWords_append, bytesOfWords_eq_range (sm3W_length h), bytesOfWords_eq_range (sm3W'_length h)]
  congr 2
  exact List.map_congr_left fun j hj => by rw [wordAt_sm3W' h (List.mem_range.mp hj)]

end Schedule

/-! ## The rounds -/

theorem sm3Rounds_append (j : Nat) (ws ws' : List (Word × Word)) (r : Chain) :
    sm3Rounds j (ws ++ ws') r = sm3Rounds (j + ws.length) ws' (sm3Rounds j ws r) := by
  induction ws generalizing j r with
  | nil => rfl
  | cons x ws ih =>
    rw [List.cons_append, sm3Rounds, sm3Rounds, ih, List.length_cons, Nat.add_assoc, Nat.add_comm 1]

/-- The working registers before round j of CF(V, B) (R139). -/
def sm3Regs (v : Chain) (b : Octets) (j : Nat) : Chain :=
  sm3Rounds 0 (((sm3W b).zip (sm3W' (sm3W b))).take j) v

section Rounds
variable (v : Chain) {b : Octets} (h : b.length = 64)
include h

theorem sm3Regs_succ {j : Nat} (hj : j < 64) : sm3Regs v b (j + 1) =
    sm3Round j (wordAt (sm3W b) j) (wordAt (sm3W b) j ^^^ wordAt (sm3W b) (j + 4)) (sm3Regs v b j) := by
  have hW : j < (sm3W b).length := by rw [sm3W_length h]; omega
  have hW' : j < (sm3W' (sm3W b)).length := by rw [sm3W'_length h]; omega
  have hj' : j < ((sm3W b).zip (sm3W' (sm3W b))).length := by rw [List.length_zip]; omega
  have hpair : ((sm3W b).zip (sm3W' (sm3W b)))[j] = (wordAt (sm3W b) j, wordAt (sm3W' (sm3W b)) j) := by
    simp [wordAt, hW, hW']
  rw [sm3Regs, List.take_succ_eq_append_getElem hj', sm3Rounds_append, List.length_take, Nat.min_eq_left hj'.le,
    Nat.zero_add, hpair, wordAt_sm3W' h hj]
  rfl

/-- CF is the registers after the last round, XORed with V (R140). -/
theorem sm3CF_eq : sm3CF v b = (sm3Regs v b 64).xor v := by
  rw [sm3CF, sm3Regs, List.take_of_length_le (by simp [sm3W_length h, sm3W'_length h])]

end Rounds

@[simp] theorem Chain.bytes_length (v : Chain) : v.bytes.length = 32 := by simp [Chain.bytes, Chain.words, bytesOfWords]

/-- A chaining value comes back from its 32 bytes (R148). -/
theorem Chain.ofBytes_bytes (v : Chain) : Chain.ofBytes v.bytes = v := by
  simp [Chain.ofBytes, Chain.bytes, Chain.words, bytesOfWords, List.drop_append, List.drop_of_length_le,
    List.take_of_length_le]

/-! ## The commands -/

theorem exec_sm3Init (s : State) :
    exec .sm3Init s = finish s (needEmptyDin s.engine s.din (answer { s.engine with sm3 := .started } [])) := rfl

theorem exec_sm3Update (s : State) : exec .sm3Update s = finish s (sm3Update s.engine s.din) := rfl

theorem exec_sm3Final (s : State) : exec .sm3Final s = finish s (sm3Final s.engine s.din) := rfl

theorem exec_sm3Oneshot (s : State) : exec .sm3Oneshot s = finish s (sm3Oneshot s.engine s.din) := rfl

theorem exec_sm3Compress (s : State) : exec .sm3Compress s = finish s (sm3Compress s.engine s.din) := rfl

theorem exec_sm3Expand (s : State) : exec .sm3Expand s = finish s (sm3Expand s.engine s.din) := rfl

theorem exec_sm3Init_nil {s : State} (hdin : s.din = []) :
    exec .sm3Init s = .next (s.complete ⟨{ s.engine with sm3 := .started }, .ok, []⟩) := by
  rw [exec_sm3Init, finish_needEmptyDin_nil _ hdin, answer]

theorem exec_sm3Final_active {s : State} (hact : s.engine.sm3.phase = .active) : exec .sm3Final s =
    finish s (needEmptyDin s.engine s.din (answer { s.engine with sm3 := .idle } s.engine.sm3.digest)) := by
  rw [exec_sm3Final, sm3Final, if_neg (by simp [hact])]

theorem exec_sm3Final_nil {s : State} (hact : s.engine.sm3.phase = .active) (hdin : s.din = []) :
    exec .sm3Final s = .next (s.complete ⟨{ s.engine with sm3 := .idle }, .ok, s.engine.sm3.digest⟩) := by
  rw [exec_sm3Final_active hact, finish_needEmptyDin_nil _ hdin, answer]

theorem exec_sm3Update_of_fits {s : State} (hact : s.engine.sm3.phase = .active)
    (hfit : s.engine.sm3.bitlen.toNat + 8 * s.din.length < 2 ^ 64) :
    exec .sm3Update s = .next (s.complete ⟨{ s.engine with sm3 := s.engine.sm3.absorb s.din }, .ok, []⟩) := by
  rw [exec_sm3Update, sm3Update_of_fits (by simp [hact]) hfit, finish_eq, answer]

theorem exec_sm3Oneshot_of_fits {s : State} (hfit : 8 * s.din.length < 2 ^ 64) :
    exec .sm3Oneshot s = .next (s.complete ⟨s.engine, .ok, sm3Hash s.din⟩) := by
  have hle : ¬8 * s.din.length ≥ Config.sm3BitLimit := Nat.not_le.mpr hfit
  rw [exec_sm3Oneshot, sm3Oneshot, if_neg hle, finish_eq, answer]

theorem sm3Hash_eq_of_zeros {m : Octets} {k : Nat} (hk : k < 64) (h : (m.length + 1 + k) % 64 = 56) :
    sm3Hash m = (sm3Blocks sm3Iv (m ++ 0x80 :: List.replicate k 0 ++ toBE 8 (8 * m.length))).bytes := by
  rw [sm3Hash, sm3Pad, sm3PadTail_eq_of_zeros _ hk h]

/-! ## The run of a hash -/

/-- A machine given an accepted command answers it and goes on with the inputs that follow. -/
theorem core_run_command {s : State} {w : BitVec 32} {din : Octets} {rest : List Input} {i : Instr} {r : Reply}
    (hd : decode w = .command i) (hf : s.params.dinFits din.length = true)
    (he : exec i (s.begin din rest) = .next ((s.begin din rest).complete r)) (n : Nat) :
    Sys2Proof.core.run (n + 1) (s.given (.command ⟨w, din⟩ :: rest)) =
      Sys2Proof.core.run n ((s.answered r.engine [⟨r.status, r.dout⟩]).given rest) :=
  core_run_succ ((step_command rfl hd hf).trans he) n

theorem State.answered_answered (s : State) (e e' : Engine) (rs rs' : List Response) :
    (s.answered e rs).answered e' rs' = s.answered e' (rs ++ rs') := by
  simp [State.answered]

theorem core_run_sm3Init (s : State) (rest : List Input) (n : Nat) :
    Sys2Proof.core.run (n + 1) (s.given (.command ⟨0x10, []⟩ :: rest)) =
      Sys2Proof.core.run n ((s.answered { s.engine with sm3 := .started } [⟨.ok, []⟩]).given rest) :=
  core_run_command (i := .sm3Init) (by decide) (dinFits_of_le (by simp)) (exec_sm3Init_nil rfl) n

/-- SM3_UPDATE once for each part absorbs the parts' concatenation (R143, R145). -/
theorem core_run_sm3Updates {s : State} {e : Engine} {parts : List Octets} (rs : List Response) (rest : List Input) (n : Nat)
    (hfit : allFit s.params parts) (hact : e.sm3.phase = .active)
    (hlen : e.sm3.bitlen.toNat + 8 * parts.flatten.length < 2 ^ 64) :
    Sys2Proof.core.run (parts.length + n)
        ((s.answered e rs).given (parts.map (fun d => .command ⟨0x11, d⟩) ++ rest)) =
      Sys2Proof.core.run n ((s.answered { e with sm3 := e.sm3.absorb parts.flatten }
        (rs ++ List.replicate parts.length ⟨.ok, []⟩)).given rest) := by
  induction parts generalizing e rs with
  | nil => simp [Sm3Ctx.absorb]
  | cons d parts ih =>
    rw [List.flatten_cons, List.length_append] at hlen
    have hd : e.sm3.bitlen.toNat + 8 * d.length < 2 ^ 64 := by omega
    have htail : (e.sm3.absorb d).bitlen.toNat + 8 * parts.flatten.length < 2 ^ 64 := by
      rw [Sm3Ctx.absorb_bitlen hd]
      omega
    rw [List.length_cons, Nat.add_right_comm, List.map_cons, List.cons_append,
      core_run_command (s := s.answered e rs) (i := .sm3Update) (by decide) (hfit d List.mem_cons_self)
        (exec_sm3Update_of_fits hact hd), State.answered_answered]
    refine (ih _ (fun x hx => hfit x (List.mem_cons_of_mem _ hx)) ?_ htail).trans ?_
    · exact (Sm3Ctx.absorb_phase _ _).trans hact
    · simp [absorb_absorb, List.replicate_succ]

theorem core_run_sm3Final (s : State) {e : Engine} (rs : List Response) (hact : e.sm3.phase = .active) :
    Sys2Proof.core.run 1 ((s.answered e rs).given [.command ⟨0x12, []⟩]) =
      .next (s.answered { e with sm3 := .idle } (rs ++ [⟨.ok, e.sm3.digest⟩])) := by
  rw [core_run_command (s := s.answered e rs) (i := .sm3Final) (by decide) (dinFits_of_le (by simp))
    (exec_sm3Final_nil hact rfl), State.answered_answered]
  rfl

/-! ## The obligations -/

/-- Settles O21: absorbing byte by byte compresses the whole blocks of the stream and keeps the rest. -/
theorem sm3UpdateRule : Obligations.Sm3UpdateRule := by
  refine ⟨formatS_opcode (i := .sm3Update) (by decide), fun s hidle => ?_, fun s hact hlimit => ?_, fun s hact hfit => ?_⟩
  · rw [exec_sm3Update, sm3Update, if_pos hidle, finish_eq, raise]
  · have hge : s.engine.sm3.bitlen.toNat + 8 * s.din.length ≥ Config.sm3BitLimit := hlimit
    rw [exec_sm3Update, sm3Update, if_neg (by simp [hact]), if_pos hge, finish_eq, raise]
  · exact ⟨s.engine.sm3.absorb s.din, s.engine.sm3.filled ++ s.din, rfl, exec_sm3Update_of_fits hact hfit,
      (Sm3Ctx.absorb_phase _ _).trans hact, Sm3Ctx.absorb_bitlen hfit, Sm3Ctx.absorb_V _ _, Sm3Ctx.absorb_nbuf _ _,
      Sm3Ctx.absorb_filled _ _, foldl_tailZero s.engine.sm3 s.din⟩

/-- Settles O22: the digest pads the valid bytes of the buffer, and the number of zeros is the only one below 64. -/
theorem sm3FinalRule : Obligations.Sm3FinalRule := by
  refine ⟨formatS_opcode (i := .sm3Final) (by decide), fun s hidle => ?_, fun s hact hdin => ?_,
    fun s k hact hdin hk hzeros => ?_⟩
  · rw [exec_sm3Final, sm3Final, if_pos hidle, finish_eq, raise]
  · rw [exec_sm3Final_active hact, finish_needEmptyDin_nonempty _ hdin]
  · have htail : (s.engine.sm3.filled.length + 1 + k) % 64 = 56 := by rwa [Sm3Ctx.filled_length]
    rw [exec_sm3Final_nil hact hdin, Sm3Ctx.digest_eq, sm3PadTail_eq_of_zeros _ hk htail]
    rfl

/-- Settles O23: the hash is the iteration of CF over the padded message, with the only number of zeros below 64. -/
theorem sm3OneshotRule : Obligations.Sm3OneshotRule := by
  refine ⟨formatS_opcode (i := .sm3Oneshot) (by decide), fun s hlimit => ?_, fun s k hfit hk hzeros => ?_⟩
  · have hge : 8 * s.din.length ≥ Config.sm3BitLimit := hlimit
    rw [exec_sm3Oneshot, sm3Oneshot, if_pos hge, finish_eq, raise]
  · rw [exec_sm3Oneshot_of_fits hfit, sm3Hash_eq_of_zeros hk hzeros]
    rfl

/-- Settles O24: the sequence is that of the working registers before each round. -/
theorem sm3CompressRule : Obligations.Sm3CompressRule := by
  refine ⟨formatS_opcode (i := .sm3Compress) (by decide), fun s hlen => ?_, fun s v b hb hdin =>
    ⟨sm3Regs v b, rfl, fun j hj ss1 tt2 hss1 htt2 => ?_, ?_⟩⟩
  · rw [exec_sm3Compress, sm3Compress, if_pos hlen, finish_eq, raise]
  · subst htt2 hss1
    rw [sm3Regs_succ v hb hj]
    exact ⟨rfl, rfl, rfl, rfl, rfl, rfl, rfl, rfl⟩
  · have hv : v.bytes.length = 32 := v.bytes_length
    have htake : s.din.take 32 = v.bytes := by rw [hdin, List.take_left' hv]
    have hdrop : s.din.drop 32 = b := by rw [hdin, List.drop_left' hv]
    rw [exec_sm3Compress, sm3Compress, if_neg (by simp [hdin, hb]), htake, hdrop, Chain.ofBytes_bytes,
      sm3CF_eq v hb, finish_eq, answer]

/-- Settles O25: the schedule follows the recurrence, and the second list is the exclusive-or of words four apart. -/
theorem sm3ExpandRule : Obligations.Sm3ExpandRule := by
  refine ⟨formatS_opcode (i := .sm3Expand) (by decide), fun s hlen => ?_, fun s hlen =>
    ⟨wordAt (sm3W s.din), fun i => sm3W_first hlen, fun j => sm3W_expandsAt hlen, ?_⟩⟩
  · rw [exec_sm3Expand, sm3Expand, if_pos hlen, finish_eq, raise]
  · rw [exec_sm3Expand, sm3Expand, if_neg (not_not.mpr hlen), bytesOfWords_schedule hlen, finish_eq, answer]

/-- Settles O26: the number of zeros reaches 56 modulo 64 and is the least that does. -/
theorem sm3PaddingShape : Obligations.Sm3PaddingShape := fun m =>
  ⟨sm3PadZeros m.length, sm3PadTail_eq m _, sm3PadZeros_spec _, fun _ => sm3PadZeros_le, sm3Pad_length m⟩

/-- Settles O27: the parts absorb to the message, and the context that has absorbed a message holds its digest. -/
theorem sm3StreamingEqualsOneshot : Obligations.Sm3StreamingEqualsOneshot := by
  intro s parts hfit hlen
  refine ⟨?_, exec_sm3Oneshot_of_fits hlen⟩
  have hlen' : Sm3Ctx.started.bitlen.toNat + 8 * parts.flatten.length < 2 ^ 64 := by simpa [Sm3Ctx.started] using hlen
  have hact : (Sm3Ctx.started.absorb parts.flatten).phase = .active := Sm3Ctx.absorb_phase _ _
  rw [hashInputs, List.append_assoc, List.singleton_append, core_run_sm3Init, core_run_sm3Updates _ _ 1 hfit rfl hlen',
    core_run_sm3Final _ _ hact, started_absorb_digest hlen, List.singleton_append, ← List.replicate_succ]

/-- Settles O20: the body is the context just begun. -/
theorem sm3InitRule : Obligations.Sm3InitRule :=
  ⟨formatS_opcode (i := .sm3Init) (by decide), fun _ => finish_needEmptyDin_nonempty _, fun _ => finish_needEmptyDin_nil _⟩

end Sys2Proof.Machine

/-! # The SM4 unit's statements (43_sm4.md)
PROOF. A block is the bytes of its four words, the key schedule and the rounds are one recurrence on four consecutive
words, and the two block commands differ in the order of the round keys alone. -/

namespace Sys2Proof.Machine

/-! ## The words of a block -/

/-- The upper and the lower bytes of a big-endian form (R12). -/
theorem toBE_add (j k v : Nat) : toBE (j + k) v = toBE j (v / 256 ^ k) ++ toBE k v := by
  induction j with
  | zero => simp [toBE]
  | succ j ih =>
    rw [Nat.add_right_comm, toBE, toBE, ih, Nat.div_div_eq_div_mul, ← pow_add, Nat.add_comm k, List.cons_append]

theorem bytesOfWord_blockWord (x : Block) (i : Nat) :
    bytesOfWord (blockWord x i) = toBE 4 (x.toNat / 2 ^ (96 - 32 * i)) := by
  rw [bytesOfWord, blockWord, BitVec.extractLsb'_toNat, Nat.shiftRight_eq_div_pow]
  exact toBE_mod 4 _

/-- The 16 bytes of a block are those of its words, X0 first (R54). -/
theorem bytesOfBlock_eq_words (x : Block) : bytesOfBlock x =
    bytesOfWord (blockWord x 0) ++ bytesOfWord (blockWord x 1) ++ bytesOfWord (blockWord x 2) ++ bytesOfWord (blockWord x 3) := by
  simp only [bytesOfWord_blockWord]
  rw [bytesOfBlock, toBE_add 12 4, toBE_add 8 4, toBE_add 4 4]
  simp [Nat.div_div_eq_div_mul]

/-- X_i is BE_4 of the i-th four bytes (R54). -/
theorem blockWord_blockOfBytes {s : Octets} (h : s.length = 16) {i : Nat} (hi : i < 4) :
    blockWord (blockOfBytes s) i = wordOfBytes ((s.drop (4 * i)).take 4) := by
  have hs := bytesOfBlock_blockOfBytes h
  rw [bytesOfBlock_eq_words] at hs
  conv_rhs => rw [← hs]
  interval_cases i <;> simp [List.drop_append, List.drop_of_length_le, List.take_of_length_le]

theorem blockWord_xor (x y : Block) (i : Nat) : blockWord (x ^^^ y) i = blockWord x i ^^^ blockWord y i :=
  BitVec.extractLsb'_xor

theorem blockWord_sm4FK {i : Nat} (hi : i < 4) :
    blockWord sm4FK i = [0xA3B1BAC6, 0x56AA3350, 0x677D9197, 0xB27022DC].getD i 0 := by
  decide +revert

/-! ## The recurrence of the key schedule and of the rounds -/

/-- The four words that step j sees, when each step j appends `next` of its window and `r j` (R177, R178). -/
def Window.after (next : Window → Word → Word) (r : Nat → Word) (x : Window) : Nat → Window
  | 0 => x
  | j + 1 => (Window.after next r x j).push (next (Window.after next r x j) (r j))

/-- Word j of the recurrence. -/
def windowWord (next : Window → Word → Word) (r : Nat → Word) (x : Window) (j : Nat) : Word := (Window.after next r x j).x0

section Recurrence
variable (next : Window → Word → Word) (r : Nat → Word) (x : Window)

/-- The window of step j is the four words from j on. -/
theorem Window.after_eq (j : Nat) : Window.after next r x j =
    ⟨windowWord next r x j, windowWord next r x (j + 1), windowWord next r x (j + 2), windowWord next r x (j + 3)⟩ := rfl

/-- Word j + 4 is the one that step j appends. -/
theorem windowWord_add_four (j : Nat) : windowWord next r x (j + 4) = next (Window.after next r x j) (r j) := rfl

/-- The first four words are those of the block the recurrence starts from. -/
theorem windowWord_ofBlock (b : Block) {i : Nat} (hi : i < 4) : windowWord next r (.ofBlock b) i = blockWord b i := by
  interval_cases i <;> rfl

/-- After its first step the recurrence is that of the later round values from the next window. -/
theorem Window.after_succ (j : Nat) :
    Window.after next r x (j + 1) = Window.after next (fun i => r (i + 1)) (x.push (next x (r 0))) j := by
  induction j with
  | zero => rfl
  | succ j ih => rw [Window.after, ih, Window.after]

end Recurrence

/-- The rounds end at the window after the last round key (R179). -/
theorem sm4Rounds_eq_after (rks : List Word) (x : Window) : sm4Rounds rks x = Window.after sm4F (wordAt rks) x rks.length := by
  induction rks generalizing x with
  | nil => rfl
  | cons rk rks ih =>
    rw [sm4Rounds, ih, List.length_cons, Window.after_succ]
    rfl

/-- Round key i is word i + 4 of the key schedule (R177). -/
theorem sm4KeyRounds_getElem (cks : List Word) (k : Window) {i : Nat} (hi : i < (sm4KeyRounds cks k).length) :
    (sm4KeyRounds cks k)[i] = windowWord sm4NextKey (wordAt cks) k (i + 4) := by
  induction cks generalizing k i with
  | nil => cases hi
  | cons ck cks ih =>
    cases i with
    | zero => rfl
    | succ i =>
      simp only [sm4KeyRounds, List.getElem_cons_succ, ih]
      rw [windowWord, windowWord, Window.after_succ _ (wordAt (ck :: cks))]
      rfl

/-! ## Key schedule and cipher -/

/-- K[j] of KeyExpand(MK) (R177). -/
def sm4KeyWord (mk : Block) : Nat → Word := windowWord sm4NextKey (wordAt sm4CKs) (.ofBlock (mk ^^^ sm4FK))

/-- X[j] of Crypt(r, P) (R178, R179). -/
def sm4DataWord (r : List Word) (p : Block) : Nat → Word := windowWord sm4F (wordAt r) (.ofBlock p)

theorem sm4KeyWord_first (mk : Block) {i : Nat} (hi : i < 4) : sm4KeyWord mk i = blockWord mk i ^^^
    [0xA3B1BAC6, 0x56AA3350, 0x677D9197, 0xB27022DC].getD i 0 := by
  rw [sm4KeyWord, windowWord_ofBlock _ _ _ hi, blockWord_xor, blockWord_sm4FK hi]

theorem wordAt_sm4CKs {i : Nat} (hi : i < 32) : wordAt sm4CKs i = sm4CK i := by
  simp [wordAt, sm4CKs, hi]

theorem sm4KeyWord_add_four (mk : Block) {i : Nat} (hi : i < 32) : sm4KeyWord mk (i + 4) = sm4KeyWord mk i ^^^
    sm4T' (sm4KeyWord mk (i + 1) ^^^ sm4KeyWord mk (i + 2) ^^^ sm4KeyWord mk (i + 3) ^^^ sm4CK i) := by
  rw [← wordAt_sm4CKs hi]
  rfl

theorem sm4KeyExpand_getElem (mk : Block) {i : Nat} (hi : i < 32) : (sm4KeyExpand mk)[i] = sm4KeyWord mk (i + 4) :=
  sm4KeyRounds_getElem _ _ _

theorem sm4DataWord_first (r : List Word) (p : Block) {i : Nat} (hi : i < 4) : sm4DataWord r p i = blockWord p i :=
  windowWord_ofBlock _ _ _ hi

theorem sm4DataWord_add_four (r : List Word) (p : Block) (j : Nat) : sm4DataWord r p (j + 4) = sm4DataWord r p j ^^^
    sm4T (sm4DataWord r p (j + 1) ^^^ sm4DataWord r p (j + 2) ^^^ sm4DataWord r p (j + 3) ^^^ wordAt r j) := rfl

/-- The bytes of Crypt(r, P) are those of the last four words, the last word first (R179). -/
theorem bytesOfBlock_sm4Crypt {r : List Word} {n : Nat} (h : r.length = n) (p : Block) : bytesOfBlock (sm4Crypt r p) =
    bytesOfWord (sm4DataWord r p (n + 3)) ++ bytesOfWord (sm4DataWord r p (n + 2)) ++
      bytesOfWord (sm4DataWord r p (n + 1)) ++ bytesOfWord (sm4DataWord r p n) := by
  rw [sm4Crypt, sm4Rounds_eq_after, h, Window.after_eq, Window.reversed, bytesOfBlock_eq_words]
  simp only [blockWord_blockOfWords]
  rfl

/-! ## The commands -/

theorem exec_sm4SetKey (s : State) : exec .sm4SetKey s = finish s (sm4SetKey s.engine s.din) := rfl

theorem exec_sm4EncBlock (s : State) : exec .sm4EncBlock s = finish s (sm4OneBlock s.engine s.din sm4Encrypt) := rfl

theorem exec_sm4DecBlock (s : State) : exec .sm4DecBlock s = finish s (sm4OneBlock s.engine s.din sm4Decrypt) := rfl

theorem exec_sm4ClearKey (s : State) :
    exec .sm4ClearKey s = finish s (needEmptyDin s.engine s.din (answer (s.engine.withKey .cleared) [])) := rfl

section OneBlock
variable {e : Engine} {din : Octets} (f : Vector Word 32 → Block → Block)

theorem sm4OneBlock_noKey (hkey : e.sm4.keyValid = false) : sm4OneBlock e din f = raise e .sequenceError := if_pos hkey

theorem sm4OneBlock_badLength (hkey : e.sm4.keyValid = true) (hlen : din.length ≠ 16) :
    sm4OneBlock e din f = raise e .invalidInputLength := by
  rw [sm4OneBlock, if_neg (by simp [hkey]), if_pos hlen]

theorem sm4OneBlock_ok (hkey : e.sm4.keyValid = true) (hlen : din.length = 16) :
    sm4OneBlock e din f = answer e (bytesOfBlock (f e.sm4.rk (blockOfBytes din))) := by
  rw [sm4OneBlock, if_neg (by simp [hkey]), if_neg (not_not.mpr hlen)]

end OneBlock

section OneBlockAnswer
variable {s : State} (f g : Vector Word 32 → Block → Block) (hkey : s.engine.sm4.keyValid = true) (hlen : s.din.length = 16)
include hkey hlen

theorem finish_sm4OneBlock_ok : finish s (sm4OneBlock s.engine s.din f) =
    .next (s.complete ⟨s.engine, .ok, bytesOfBlock (f s.engine.sm4.rk (blockOfBytes s.din))⟩) := by
  rw [sm4OneBlock_ok f hkey hlen, finish_eq, answer]

/-- On the answer of `f`, an inverse `g` of it answers the block that `f` took. -/
theorem finish_sm4OneBlock_inverse (hinv : ∀ rk p, g rk (f rk p) = p) {d : Octets}
    (hd : d = bytesOfBlock (f s.engine.sm4.rk (blockOfBytes s.din))) :
    finish { s with din := d } (sm4OneBlock s.engine d g) = .next (s.complete ⟨s.engine, .ok, s.din⟩) := by
  rw [hd, sm4OneBlock_ok g hkey (bytesOfBlock_length _), blockOfBytes_bytesOfBlock, hinv, bytesOfBlock_blockOfBytes hlen]
  rfl

end OneBlockAnswer

/-- The round keys in the order of encryption, or reversed for decryption (R179, R180). -/
def sm4KeyOrder (reversed : Bool) (rk : Vector Word 32) : List Word := if reversed then rk.toList.reverse else rk.toList

@[simp] theorem sm4KeyOrder_length (reversed : Bool) (rk : Vector Word 32) : (sm4KeyOrder reversed rk).length = 32 := by
  cases reversed <;> simp [sm4KeyOrder]

/-- rk′[j] = rk[31 − j] (R180). -/
theorem wordAt_sm4KeyOrder (reversed : Bool) (rk : Vector Word 32) {j : Nat} (hj : j < 32) :
    wordAt (sm4KeyOrder reversed rk) j = rk.toList.getD (if reversed then 31 - j else j) 0 := by
  cases reversed with
  | false => rfl
  | true => simp [wordAt, sm4KeyOrder, hj, show 31 - j < 32 by omega]

/-- The block commands are one command but for the order of the round keys (R183, R184). -/
theorem exec_sm4Block {i : Instr} {reversed : Bool} (h : (i, reversed) ∈ [(Instr.sm4EncBlock, false), (.sm4DecBlock, true)])
    (s : State) : exec i s = finish s (sm4OneBlock s.engine s.din fun rk => sm4Crypt (sm4KeyOrder reversed rk)) := by
  simp only [List.mem_cons, Prod.mk.injEq, List.not_mem_nil, or_false] at h
  obtain ⟨rfl, rfl⟩ | ⟨rfl, rfl⟩ := h
  · rfl
  · rfl

/-! ## The S-box -/

/-- The inverse of the S-box, in the layout of `sm4SboxRows` (R170). -/
def sm4SboxInverseRows : List Block :=
  [0x716c7ab8160f1e4135ebd02ae4ac625a, 0xcdc8db1a0a8e0846f04b96c132a060cc,
   0xf76d69aa61681b760ca914100ed8a3b7, 0x9bd29a28955f79b286fef46b4a06fb3e,
   0x84cb212b19b37240ff1ce35b78f6ae4e, 0x22bf77ad29975d736549cebeca9263fa,
   0xa78d2f6455e8a51150e1ba51bdbcedaf, 0x5c54bb45d93c13e66ef827d66af2e7c7] ++
  [0x3852a448ef4d1d6fd3e082579dc0b63d, 0x0124c3993a37e5e2261f1294205e7f74,
   0x7c8f678893d43f424f3318ab2e9891c2, 0xdf9e5331de870907dce947c4c6d71581,
   0xa8d10b177decee857e34a6fd04d58b2d, 0xda66837570b000fccfc956b1f5c5b439,
   0x9005a29f30dd4c7b36028059f32cf925, 0xf1ea8a44239ca189588c3b0d43b503b9]

/-- The byte that the S-box takes to y. -/
def sm4SboxInverse (y : Byte) : Byte := blockByte (sm4SboxInverseRows.getD (y.toNat / 16) 0) (y.toNat % 16)

theorem sm4SboxInverse_rightInverse : Function.RightInverse sm4SboxInverse sm4Sbox := by
  unfold Function.RightInverse Function.LeftInverse
  decide

/-! ## The obligations -/

/-- Settles O28: the round keys are the words of the key schedule from the fifth on. -/
theorem sm4SetKeyRule : Obligations.Sm4SetKeyRule := by
  refine ⟨formatS_opcode (i := .sm4SetKey) (by decide), fun s hlen => ?_, fun s hlen =>
    ⟨sm4KeyExpand (blockOfBytes s.din), sm4KeyWord (blockOfBytes s.din), fun i hi => ?_,
      fun i => sm4KeyWord_add_four _, fun i => sm4KeyExpand_getElem _ i.isLt, ?_⟩⟩
  · rw [exec_sm4SetKey, sm4SetKey, if_pos hlen, finish_eq, raise]
  · rw [sm4KeyWord_first _ hi, blockWord_blockOfBytes hlen hi]
  · rw [exec_sm4SetKey, sm4SetKey, if_neg (not_not.mpr hlen), finish_eq, answer]
    rfl

/-- Settles O29: the words are those of the rounds with the round keys in the command's order. -/
theorem sm4BlockRule : Obligations.Sm4BlockRule := by
  refine ⟨formatS_opcode (i := .sm4EncBlock) (by decide), formatS_opcode (i := .sm4DecBlock) (by decide),
    fun i reversed hmem => ⟨fun s hkey => ?_, fun s hkey hlen => ?_, fun s hkey hlen =>
      ⟨sm4DataWord (sm4KeyOrder reversed s.engine.sm4.rk) (blockOfBytes s.din), fun j hj => ?_, fun j => ?_, ?_⟩⟩⟩
  · rw [exec_sm4Block hmem, sm4OneBlock_noKey _ hkey, finish_eq, raise]
  · rw [exec_sm4Block hmem, sm4OneBlock_badLength _ hkey hlen, finish_eq, raise]
  · rw [sm4DataWord_first _ _ hj, blockWord_blockOfBytes hlen hj]
  · rw [sm4DataWord_add_four, wordAt_sm4KeyOrder _ _ j.isLt]
  · rw [exec_sm4Block hmem, finish_sm4OneBlock_ok _ hkey hlen, bytesOfBlock_sm4Crypt (sm4KeyOrder_length _ _)]

/-- Settles O30: each block function undoes the other. -/
theorem sm4DecryptInvertsEncrypt : Obligations.Sm4DecryptInvertsEncrypt := by
  intro s hkey hlen
  refine ⟨_, _, bytesOfBlock_length (sm4Encrypt s.engine.sm4.rk (blockOfBytes s.din)),
    bytesOfBlock_length (sm4Decrypt s.engine.sm4.rk (blockOfBytes s.din)), ?_, ?_, ?_, ?_⟩
  · rw [exec_sm4EncBlock, finish_sm4OneBlock_ok _ hkey hlen]
  · rw [exec_sm4DecBlock, finish_sm4OneBlock_inverse _ _ hkey hlen sm4Decrypt_encrypt rfl]
  · rw [exec_sm4DecBlock, finish_sm4OneBlock_ok _ hkey hlen]
  · rw [exec_sm4EncBlock, finish_sm4OneBlock_inverse _ _ hkey hlen sm4Encrypt_decrypt rfl]

/-- Settles O31: the body is the engine with the key cleared. -/
theorem sm4ClearKeyRule : Obligations.Sm4ClearKeyRule :=
  ⟨formatS_opcode (i := .sm4ClearKey) (by decide), fun _ => finish_needEmptyDin_nonempty _, fun _ => finish_needEmptyDin_nil _⟩

/-- Settles O32: a surjection of a finite type onto itself is a bijection. -/
theorem sm4ConstantTables : Obligations.Sm4ConstantTables := by
  refine ⟨Finite.surjective_iff_bijective.mp sm4SboxInverse_rightInverse.surjective, ?_⟩
  decide

end Sys2Proof.Machine

/-! # The mode controller's statements (44_modes.md)
PROOF. MODE_INIT by its checks, MODE_UPDATE and MODE_FINAL by the session's mode, and a whole session as one MODE_UPDATE
with the total input followed by MODE_FINAL. -/

namespace Sys2Proof.Machine

/-! ## MODE_INIT -/

theorem exec_modeInit (mode : Nat) (dir : Dir) (pad : Pad) (tagLen : Nat) (s : State) :
    exec (.modeInit mode dir pad tagLen) s = finish s (modeInit mode dir pad tagLen s.engine s.din) := rfl

/-- An IV length that the mode with this number does not take (R202-R204, R246). -/
def BadIvLength (mode n : Nat) : Prop :=
  (mode = 0 ∧ n ≠ 0) ∨ ((mode = 1 ∨ mode = 2) ∧ n ≠ 16) ∨ (mode = 3 ∧ (n = 0 ∨ 2 ^ 61 ≤ n))

theorem ivLengthAllowed_eq_false {mode n : Nat} {m : Mode} (h : BadIvLength mode n)
    (hm : Mode.ofField mode = some m) : ivLengthAllowed m n = false := by
  obtain ⟨rfl, h⟩ | ⟨rfl | rfl, h⟩ | ⟨rfl, rfl | h⟩ := h <;> cases hm
  · simpa [ivLengthAllowed] using h
  · simpa [ivLengthAllowed] using h
  · simpa [ivLengthAllowed] using h
  · rfl
  · have hlimit : ¬n < Config.gcmAadLimit := Nat.not_lt.mpr h
    simp [ivLengthAllowed, hlimit]

/-- Outside GCM, TAGLEN = 0 is the one legal value (R72). -/
theorem tagLength_zero {m : Mode} (hm : m ≠ .gcm) : tagLength m 0 = some 0 := by
  cases m with
  | ecb | cbc | ctr => rfl
  | gcm => exact absurd rfl hm

section ModeInit
variable {e : Engine} {mode tagLen : Nat} (dir : Dir) {pad : Pad} {din : Octets} (hkey : e.sm4.keyValid = true)
include hkey

/-- With a key loaded, an IV length that the mode does not take ends the session with InvalidParameter (R201). -/
theorem modeInit_badIv (h : BadIvLength mode din.length) :
    modeInit mode dir pad tagLen e din = raiseEnding e .invalidParameter := by
  rw [modeInit, if_neg (by simp [hkey])]
  cases hm : Mode.ofField mode with
  | none => rfl
  | some m =>
    dsimp only
    rw [ivLengthAllowed_eq_false h hm]
    split
    · rfl
    · cases tagLength m tagLen <;> rfl

/-- Selections and an IV length that pass every check start the session (R201). -/
theorem modeInit_accepted {m : Mode} {t : Fin 17} (hmode : Mode.ofField mode = some m) (hpad : padAllowed m pad = true)
    (htag : tagLength m tagLen = some t) (hiv : ivLengthAllowed m din.length = true) :
    modeInit mode dir pad tagLen e din = answer (e.startSession m dir pad t din) [] := by
  simp [modeInit, hkey, hmode, hpad, htag, hiv]

end ModeInit

/-! ## MODE_UPDATE -/

theorem exec_modeUpdate (s : State) : exec .modeUpdate s = finish s (modeUpdate s.params s.engine s.din) := rfl

theorem exec_modeUpdate_idle {s : State} (h : s.engine.sess.phase = .idle) :
    exec .modeUpdate s = .next (s.complete ⟨s.engine, .sequenceError, []⟩) := by
  rw [exec_modeUpdate, modeUpdate_idle _ _ h, finish_eq, raise]

theorem isBlockMode_iff {m : Mode} : isBlockMode m = true ↔ m = .ecb ∨ m = .cbc := by cases m <;> decide

theorem modeUpdate_blocks (p : Params) {e : Engine} (din : Octets) (hact : e.sess.phase = .active)
    (hm : isBlockMode e.sess.mode = true) : modeUpdate p e din = updateBlocks e din := by
  rw [modeUpdate_active p din (by simp [hact])]
  obtain h | h := isBlockMode_iff.mp hm <;> rw [h, updateFor]

theorem modeUpdate_ctr (p : Params) {e : Engine} (din : Octets) (hact : e.sess.phase = .active)
    (hm : e.sess.mode = .ctr) : modeUpdate p e din = updateCtr e din := by
  rw [modeUpdate_active p din (by simp [hact]), hm, updateFor]

/-- The number of bytes processed is a multiple of 16 that leaves fewer than 16 bytes, and in PKCS7 decryption 1 to 16 of a
nonempty buffer; there is one such number (R206). -/
theorem blockBytesReady_eq {dir : Dir} {pad : Pad} {len n : Nat} (hmod : n % 16 = 0)
    (h : if dir = .dec ∧ pad = .pkcs7 then (len = 0 ∧ n = 0) ∨ (n < len ∧ len ≤ n + 16)
      else n ≤ len ∧ len < n + 16) : blockBytesReady dir pad len = n := by
  split at h
  next hdec =>
    obtain ⟨rfl, rfl⟩ := hdec
    simp only [blockBytesReady]
    omega
  next hother =>
    unfold blockBytesReady
    split
    · exact absurd ⟨rfl, rfl⟩ hother
    · omega

/-- MODE_UPDATE in ECB and CBC, with `n` the number of bytes it processes (R206). -/
theorem exec_modeUpdate_blocks {s : State} {n : Nat} (hact : s.engine.sess.phase = .active)
    (hm : isBlockMode s.engine.sess.mode = true)
    (hn : blockBytesReady s.engine.sess.dir s.engine.sess.pad (s.engine.sess.pend ++ s.din).length = n)
    {out : Octets} {chain : Block} (hrun : blockRun s.engine.sm4.rk s.engine.sess.mode s.engine.sess.dir s.engine.sess.chain
      (blocksOf ((s.engine.sess.pend ++ s.din).take n)) = (out, chain)) :
    exec .modeUpdate s = .next (s.complete ⟨{ s.engine with sess := { s.engine.sess with
      chain := chain, pend := (s.engine.sess.pend ++ s.din).drop n } }, .ok, out⟩) := by
  subst hn
  rw [exec_modeUpdate, modeUpdate_blocks _ _ hact hm, updateBlocks, Session.blockOp, hrun, finish_eq, answer]

/-! ## PKCS#7 padding -/

/-- What unpad accepts: a string that ends in k bytes of value k, 1 ≤ k ≤ 16 (R220). -/
theorem pkcs7Unpad_eq_some_iff {q m : Octets} :
    pkcs7Unpad q = some m ↔ ∃ k, 1 ≤ k ∧ k ≤ 16 ∧ q = m ++ bytesK k (BitVec.ofNat 8 k) := by
  constructor
  · intro h
    unfold pkcs7Unpad at h
    split_ifs at h with hpad
    obtain ⟨hpos, hle, hdrop⟩ := hpad
    cases h
    refine ⟨padCount q, hpos, hle, ?_⟩
    have hlast : BitVec.ofNat 8 (padCount q) = q.getLastD 0 := by simp [padCount]
    rw [hlast, ← hdrop, List.take_append_drop]
  · rintro ⟨k, hpos, hle, rfl⟩
    obtain ⟨j, rfl⟩ : ∃ j, k = j + 1 := ⟨k - 1, by omega⟩
    have hlast : (m ++ bytesK (j + 1) (BitVec.ofNat 8 (j + 1))).getLastD 0 = BitVec.ofNat 8 (j + 1) := by
      simp [bytesK, List.replicate_succ', ← List.append_assoc]
    have hcount : padCount (m ++ bytesK (j + 1) (BitVec.ofNat 8 (j + 1))) = j + 1 := by
      rw [padCount, hlast, BitVec.toNat_ofNat]
      omega
    have hlen : (m ++ bytesK (j + 1) (BitVec.ofNat 8 (j + 1))).length - (j + 1) = m.length := by simp
    rw [pkcs7Unpad, hcount, hlast, hlen, List.drop_left, List.take_left, if_pos ⟨hpos, hle, rfl⟩]

theorem pkcs7Pad_length (m : Octets) : (pkcs7Pad m).length = m.length + (16 - m.length % 16) := by simp [pkcs7Pad]

theorem pkcs7Pad_length_mod (m : Octets) : (pkcs7Pad m).length % 16 = 0 := by
  rw [pkcs7Pad_length]
  omega

theorem pkcs7Unpad_pkcs7Pad (m : Octets) : pkcs7Unpad (pkcs7Pad m) = some m :=
  pkcs7Unpad_eq_some_iff.mpr ⟨16 - m.length % 16, by omega, by omega, rfl⟩

/-- Whole blocks that unpad accepts are the padding of what it gives (R220). -/
theorem eq_pkcs7Pad_of_pkcs7Unpad {q m : Octets} (hlen : q.length % 16 = 0) (h : pkcs7Unpad q = some m) :
    q = pkcs7Pad m := by
  obtain ⟨k, hpos, hle, rfl⟩ := pkcs7Unpad_eq_some_iff.mp h
  have hk : 16 - m.length % 16 = k := by
    rw [List.length_append, bytesK_length] at hlen
    omega
  rw [pkcs7Pad, hk]

/-- Whole blocks in front do not change the padding. -/
theorem pkcs7Pad_append {s : Octets} (t : Octets) (h : s.length % 16 = 0) : pkcs7Pad (s ++ t) = s ++ pkcs7Pad t := by
  have hmod : (s ++ t).length % 16 = t.length % 16 := by rw [List.length_append]; omega
  rw [pkcs7Pad, hmod, List.append_assoc, pkcs7Pad]

/-- The last block of a padded message holds all of its padding. -/
theorem pkcs7Unpad_last_block {s b m : Octets} (h : s ++ b = pkcs7Pad m) (hb : b.length = 16) :
    ∃ f, pkcs7Unpad b = some f ∧ s ++ f = m := by
  have hlen := congrArg List.length h
  rw [List.length_append, pkcs7Pad_length, hb] at hlen
  obtain ⟨f, rfl⟩ : s <+: m :=
    List.prefix_of_prefix_length_le (h ▸ List.prefix_append s b) (List.prefix_append m _) (by omega)
  rw [pkcs7Pad, List.append_assoc] at h
  exact ⟨f, pkcs7Unpad_eq_some_iff.mpr ⟨_, by omega, by omega, List.append_cancel_left h⟩, rfl⟩

/-- The last k bytes all equal c, byte by byte. -/
theorem drop_eq_bytesK_iff {q : Octets} {n k : Nat} {c : Byte} (hlen : q.length = n) (hk : k ≤ n) :
    q.drop (n - k) = bytesK k c ↔ ∀ j, n - k ≤ j → j < n → q.getD j 0 = c := by
  constructor
  · intro h j hlo hhi
    obtain ⟨i, rfl⟩ := Nat.exists_eq_add_of_le hlo
    have hi := congrArg (fun l => l.getD i 0) h
    simpa [bytesK, List.getElem?_replicate, show i < k by omega] using hi
  · intro h
    refine List.ext_getElem (by simp [hlen]; omega) fun i h1 h2 => ?_
    have hi : n - k + i < q.length := by simpa [hlen, Nat.lt_sub_iff_add_lt'] using h1
    simpa [bytesK, hi] using h (n - k + i) (by omega) (by omega)

/-- unpad of one block, with its last byte and the bytes of the padding named by index (R211). -/
theorem pkcs7Unpad_block {p : Octets} (hp : p.length = 16) : pkcs7Unpad p =
    if 1 ≤ (p.getD 15 0).toNat ∧ (p.getD 15 0).toNat ≤ 16 ∧
        ∀ j, 16 - (p.getD 15 0).toNat ≤ j → j < 16 → (p.getD j 0).toNat = (p.getD 15 0).toNat
      then some (p.take (16 - (p.getD 15 0).toNat)) else none := by
  have hlast : p.getLastD 0 = p.getD 15 0 := by simp [List.getLast?_eq_getElem?, hp]
  rw [pkcs7Unpad, padCount, hlast, hp]
  refine if_congr (and_congr_right fun _ => and_congr_right fun hle => ?_) rfl rfl
  simp only [drop_eq_bytesK_iff hp hle, BitVec.toNat_inj]

/-! ## MODE_FINAL -/

theorem exec_modeFinal (s : State) : exec .modeFinal s = finish s (modeFinal s.engine s.din) := rfl

theorem modeFinal_idle {e : Engine} (din : Octets) (h : e.sess.phase = .idle) :
    modeFinal e din = raise e .sequenceError := if_pos h

section ModeFinal
variable {e : Engine} (din : Octets) (hact : e.sess.phase = .active)
include hact

theorem modeFinal_ctr (hm : e.sess.mode = .ctr) : modeFinal e din = finalCtr e din := by
  simp [modeFinal, hact, hm]

variable (hm : isBlockMode e.sess.mode = true)
include hm

theorem modeFinal_noPadding (hpad : e.sess.pad = .noPadding) : modeFinal e din = finalNoPadding e din := by
  obtain h | h := isBlockMode_iff.mp hm <;> simp [modeFinal, hact, h, hpad]

theorem modeFinal_pkcs7Enc (hpad : e.sess.pad = .pkcs7) (hdir : e.sess.dir = .enc) :
    modeFinal e din = finalPkcs7Enc e din := by
  obtain h | h := isBlockMode_iff.mp hm <;> simp [modeFinal, hact, h, hpad, hdir]

theorem modeFinal_pkcs7Dec (hpad : e.sess.pad = .pkcs7) (hdir : e.sess.dir = .dec) :
    modeFinal e din = finalPkcs7Dec e din := by
  obtain h | h := isBlockMode_iff.mp hm <;> simp [modeFinal, hact, h, hpad, hdir]

end ModeFinal

theorem finalPkcs7Dec_badLength {e : Engine} {din : Octets} (h : din ≠ [] ∨ e.sess.pend.length ≠ 16) :
    finalPkcs7Dec e din = raiseEnding e .invalidInputLength := by
  rw [finalPkcs7Dec]
  split
  · rfl
  next hdin => rw [if_pos (h.resolve_left (by simpa using hdin))]

/-- With one block held back and DIN empty, the block's unpadding decides (R211). -/
theorem finalPkcs7Dec_block {e : Engine} (hpend : e.sess.pend.length = 16) : finalPkcs7Dec e [] =
    ((pkcs7Unpad (e.sess.blockOp e.sm4.rk e.sess.pend).1).elim (raiseEnding e .badPadding) (answer e.endSession)) := by
  simp only [finalPkcs7Dec, hpend]
  cases pkcs7Unpad (e.sess.blockOp e.sm4.rk e.sess.pend).1 <;> rfl

/-- BlockOp on one block (R205). -/
theorem blockOp_block (rk : Vector Word 32) (x : Session) {s : Octets} (h : s.length = 16) :
    (x.blockOp rk s).1 = bytesOfBlock (blockStep rk x.mode x.dir x.chain (blockOfBytes s)).1 := by
  simp [Session.blockOp, blocksOf_single h, blockRun]

/-- Encryption of one block in ECB or CBC (R205). -/
theorem blockStep_enc (rk : Vector Word 32) {m : Mode} (hm : isBlockMode m = true) (chain x : Block) :
    (blockStep rk m .enc chain x).1 = sm4Encrypt rk (if m = .cbc then x ^^^ chain else x) := by
  obtain rfl | rfl := isBlockMode_iff.mp hm <;> rfl

/-- Decryption of one block in ECB or CBC (R205). -/
theorem blockStep_dec (rk : Vector Word 32) {m : Mode} (hm : isBlockMode m = true) (chain x : Block) :
    (blockStep rk m .dec chain x).1 = if m = .cbc then sm4Decrypt rk x ^^^ chain else sm4Decrypt rk x := by
  obtain rfl | rfl := isBlockMode_iff.mp hm <;> rfl

/-- Fewer than 16 pending bytes pad to one block (R210). -/
theorem pkcs7Pad_short {s : Octets} (h : s.length < 16) :
    pkcs7Pad s = s ++ bytesK (16 - s.length) (BitVec.ofNat 8 (16 - s.length)) := by
  rw [pkcs7Pad, Nat.mod_eq_of_lt h]

/-- A session that encrypts in a block mode has fewer than 16 bytes pending (R32). -/
theorem State.Inv.pend_lt {s : State} (h : s.Inv) (hact : s.engine.sess.phase = .active)
    (hdir : s.engine.sess.dir = .enc) : s.engine.sess.pend.length < 16 := by
  have hpend := (h.activeSession hact).pend
  have hlimit : pendLimit s.engine.sess.mode .enc s.engine.sess.pad ≤ 15 := by
    cases s.engine.sess.mode <;> simp [pendLimit, isBlockMode]
  rw [hdir] at hpend
  omega

theorem isBlockMode_or_eq_ctr {m : Mode} (hne : m ≠ .gcm) : isBlockMode m = true ∨ m = .ctr := by
  cases m with
  | ecb | cbc => exact .inl rfl
  | ctr => exact .inr rfl
  | gcm => exact absurd rfl hne

/-! ## A whole session at once -/

/-- Given `c` in one MODE_UPDATE and then MODE_FINAL, the engine's session answers OK and outputs `out` in all; an empty
MODE_UPDATE before that changes nothing. -/
def Engine.Turns (p : Params) (e : Engine) (c out : Octets) : Prop :=
  modeUpdate p e [] = answer e [] ∧ ∃ e' o f,
    modeUpdate p e c = answer e' o ∧ modeFinal e' [] = answer e.endSession f ∧ o ++ f = out

section TurnsBlocks
variable (p : Params) {e : Engine} (hact : e.sess.phase = .active) (hm : isBlockMode e.sess.mode = true)
  (hnew : e.sess.pend = [])
include hact hm hnew

/-- With nothing pending, MODE_UPDATE of whole blocks and a rest `t` that it holds back (R206). -/
theorem modeUpdate_newBlocks {s t : Octets} (hready : blockBytesReady e.sess.dir e.sess.pad (s ++ t).length = s.length) :
    modeUpdate p e (s ++ t) = answer { e with sess := { (e.sess.blockOp e.sm4.rk s).2 with pend := t } }
      (e.sess.blockOp e.sm4.rk s).1 := by
  rw [modeUpdate_blocks _ _ hact hm, updateBlocks, hnew, List.nil_append, hready, List.take_left, List.drop_left]

theorem modeUpdate_newBlocks_nil : modeUpdate p e [] = answer e [] := by
  have h := modeUpdate_newBlocks p hact hm hnew (s := []) (t := [])
    (by obtain h | h := blockBytesReady_cases e.sess.dir e.sess.pad <;> rw [h] <;> rfl)
  rw [List.append_nil] at h
  rw [h, Session.blockOp, blocksOf_nil, blockRun, ← hnew]

/-- Without padding, a session of whole blocks outputs BlockOp of them (R206, R209). -/
theorem Engine.turns_noPadding (hpad : e.sess.pad = .noPadding) {s : Octets} (hs : s.length % 16 = 0) :
    e.Turns p s (e.sess.blockOp e.sm4.rk s).1 := by
  have hready : blockBytesReady e.sess.dir e.sess.pad (s ++ []).length = s.length :=
    blockBytesReady_eq hs (by simp [hpad])
  have hupd := modeUpdate_newBlocks p hact hm hnew hready
  rw [List.append_nil] at hupd
  refine ⟨modeUpdate_newBlocks_nil p hact hm hnew, _, _, [], hupd, ?_, List.append_nil _⟩
  exact Eq.trans (modeFinal_noPadding [] hact hm hpad) rfl

/-- A PKCS7 encryption session outputs BlockOp of the padded message (R206, R210). -/
theorem Engine.turns_pkcs7Enc (hpad : e.sess.pad = .pkcs7) (hdir : e.sess.dir = .enc) (m : Octets) :
    e.Turns p m (e.sess.blockOp e.sm4.rk (pkcs7Pad m)).1 := by
  obtain ⟨s, t, rfl, hs, ht⟩ : ∃ s t, m = s ++ t ∧ s.length % 16 = 0 ∧ t.length < 16 :=
    ⟨m.take (16 * (m.length / 16)), m.drop (16 * (m.length / 16)), (List.take_append_drop ..).symm,
      by rw [List.length_take]; omega, by rw [List.length_drop]; omega⟩
  have hready : blockBytesReady e.sess.dir e.sess.pad (s ++ t).length = s.length :=
    blockBytesReady_eq hs (by simp [hdir, ht])
  refine ⟨modeUpdate_newBlocks_nil p hact hm hnew, _, _, _, modeUpdate_newBlocks p hact hm hnew hready,
    modeFinal_pkcs7Enc [] hact hm hpad hdir, ?_⟩
  rw [pkcs7Pad_append t hs, blockOp_append _ _ _ hs]
  rfl

/-- A PKCS7 decryption session of blocks that BlockOp takes to a padded message outputs the message (R206, R211). -/
theorem Engine.turns_pkcs7Dec (hpad : e.sess.pad = .pkcs7) (hdir : e.sess.dir = .dec) {c m : Octets}
    (hc : c.length = (pkcs7Pad m).length) (hplain : (e.sess.blockOp e.sm4.rk c).1 = pkcs7Pad m) : e.Turns p c m := by
  have hlen := pkcs7Pad_length m
  obtain ⟨s, t, rfl, hs, ht⟩ : ∃ s t, c = s ++ t ∧ s.length % 16 = 0 ∧ t.length = 16 :=
    ⟨c.take (c.length - 16), c.drop (c.length - 16), (List.take_append_drop ..).symm,
      by rw [List.length_take]; omega, by rw [List.length_drop]; omega⟩
  have hready : blockBytesReady e.sess.dir e.sess.pad (s ++ t).length = s.length :=
    blockBytesReady_eq hs (by simp [hdir, hpad, ht])
  rw [blockOp_append _ _ _ hs] at hplain
  obtain ⟨f, hf, hm'⟩ := pkcs7Unpad_last_block hplain (by rw [blockOp_block _ _ ht, bytesOfBlock_length])
  refine ⟨modeUpdate_newBlocks_nil p hact hm hnew, _, _, f, modeUpdate_newBlocks p hact hm hnew hready, ?_, hm'⟩
  exact Eq.trans (modeFinal_pkcs7Dec [] hact hm hpad hdir) (Eq.trans (finalPkcs7Dec_block ht)
    (congrArg (fun o => Option.elim o _ _) hf))

end TurnsBlocks

/-- A CTR session outputs CtrXor of its input (R208, R212). -/
theorem Engine.turns_ctr (p : Params) {e : Engine} (hact : e.sess.phase = .active) (hm : e.sess.mode = .ctr) (c : Octets) :
    e.Turns p c (e.sess.ctrXor e.sm4.rk inc128 c).1 := by
  refine ⟨modeUpdate_ctr p [] hact hm, _, _, [], modeUpdate_ctr p c hact hm, ?_, List.append_nil _⟩
  rw [modeFinal_ctr _ (by simp [hact]) (by simp [hm])]
  rfl

/-! ## The one-shot meaning of a session -/

/-- BlockOp for encryption is the one-shot ciphertext (R205, R218). -/
theorem blockOp_enc_eq_oneShotCipher (rk : Vector Word 32) {mode : Mode} (hm : isBlockMode mode = true) (pad : Pad)
    (iv m : Octets) : ((Session.start mode .enc pad 0 iv 0).blockOp rk (withPadding pad m)).1 =
      oneShotCipher rk mode pad iv m := by
  obtain rfl | rfl := isBlockMode_iff.mp hm
  · exact congrArg Prod.fst (blockRun_ecb ..)
  · exact congrArg Prod.fst (blockRun_cbc_enc ..)

theorem withPadding_length_mod {mode : Mode} {pad : Pad} {m : Octets} (hm : isBlockMode mode = true)
    (h : admissible mode pad m) : (withPadding pad m).length % 16 = 0 := by
  cases pad with
  | noPadding => obtain rfl | rfl := isBlockMode_iff.mp hm <;> exact h
  | pkcs7 => exact pkcs7Pad_length_mod m

/-- BlockOp for decryption takes the one-shot ciphertext back to the padded message (R219). -/
theorem blockOp_dec_oneShotCipher (rk : Vector Word 32) {mode : Mode} (hm : isBlockMode mode = true) {pad : Pad}
    (iv : Octets) {m : Octets} (h : (withPadding pad m).length % 16 = 0) :
    ((Session.start mode .dec pad 0 iv 0).blockOp rk (oneShotCipher rk mode pad iv m)).1 = withPadding pad m := by
  have hblocks : bytesOfBlocks (blocksOf (withPadding pad m)) = withPadding pad m := by
    rw [bytesOfBlocks_blocksOf, List.take_of_length_le (by omega)]
  obtain rfl | rfl := isBlockMode_iff.mp hm
  · refine (congrArg Prod.fst (blockRun_ecb ..)).trans ?_
    simp [oneShotCipher, blocksOf_bytesOfBlocks, Session.start, Function.comp_def, hblocks]
  · refine (congrArg Prod.fst (blockRun_cbc_dec ..)).trans ?_
    simp [oneShotCipher, blocksOf_bytesOfBlocks, Session.start, cbc_dec_enc, hblocks]

theorem oneShotCipher_length (rk : Vector Word 32) {mode : Mode} (hm : isBlockMode mode = true) {pad : Pad} (iv : Octets)
    {m : Octets} (h : (withPadding pad m).length % 16 = 0) :
    (oneShotCipher rk mode pad iv m).length = (withPadding pad m).length := by
  obtain rfl | rfl := isBlockMode_iff.mp hm <;> simp [oneShotCipher] <;> omega

theorem keystream_add (rk : Vector Word 32) (inc : Block → Block) (m n : Nat) (c : Block) :
    keystream rk inc (m + n) c = keystream rk inc m c ++ keystream rk inc n (inc^[m] c) := by
  induction m generalizing c with
  | zero => simp [keystream]
  | succ m ih => rw [Nat.add_right_comm, keystream, ih, keystream, List.append_assoc, Function.iterate_succ_apply]

/-- Mask bytes beyond the string play no part (R13). -/
theorem xorBytes_append {s mask : Octets} (more : Octets) (h : s.length ≤ mask.length) :
    xorBytes s (mask ++ more) = xorBytes s mask := by
  induction s generalizing mask with
  | nil => rfl
  | cons b s ih =>
    cases mask with
    | nil => simp at h
    | cons k mask => exact congrArg (_ :: ·) (ih (by simpa using h))

/-- CtrXor with no keystream left over is the one-shot stream cipher from its counter (R207, R218). -/
theorem ctrXor_eq_streamCipher (rk : Vector Word 32) (inc : Block → Block) {x : Session} (h : x.ksOff = 16)
    (s : Octets) : (x.ctrXor rk inc s).1 = streamCipher rk inc x.ctr s := by
  have hfor : keystreamFor rk inc x s.length = keystream rk inc (freshBlocks 16 s.length) x.ctr := by
    rw [keystreamFor, h, List.drop_of_length_le (by simp), List.nil_append]
    rfl
  have hle := keystreamFor_length rk inc x s.length
  obtain ⟨n, hn⟩ : ∃ n, s.length / 16 + 1 = freshBlocks 16 s.length + n :=
    Nat.exists_eq_add_of_le (by unfold freshBlocks; omega)
  rw [hfor] at hle
  rw [(ctrXor_spec rk inc x s).1, hfor, streamCipher, hn, keystream_add, xorBytes_append _ hle]

/-- The stream cipher undoes itself (R217). -/
theorem streamCipher_streamCipher (rk : Vector Word 32) (inc : Block → Block) (c : Block) (m : Octets) :
    streamCipher rk inc c (streamCipher rk inc c m) = m := by
  have hle : m.length ≤ (keystream rk inc (m.length / 16 + 1) c).length := by rw [keystream_length]; omega
  have hlen : (streamCipher rk inc c m).length = m.length := xorBytes_length hle
  rw [streamCipher, hlen, streamCipher, xorBytes_xorBytes hle]

/-! ## The session that MODE_INIT starts -/

section Started
variable (p : Params) (e : Engine) {mode : Mode} (dir : Dir) {pad : Pad} (t : Fin 17) (iv : Octets)

theorem Engine.startSession_selections : (e.startSession mode dir pad t iv).sess.phase = .active ∧
    (e.startSession mode dir pad t iv).sess.mode = mode ∧ (e.startSession mode dir pad t iv).sess.dir = dir ∧
    (e.startSession mode dir pad t iv).sess.pad = pad ∧ (e.startSession mode dir pad t iv).sess.pend = [] := by
  cases mode <;> exact ⟨rfl, rfl, rfl, rfl, rfl⟩

@[simp] theorem Engine.startSession_endSession : (e.startSession mode dir pad t iv).endSession = e.endSession := by
  cases mode <;> rfl

theorem Engine.startSession_sess_block (hm : isBlockMode mode = true) :
    (e.startSession mode dir pad t iv).sess = Session.start mode dir pad t iv 0 := by
  obtain rfl | rfl := isBlockMode_iff.mp hm <;> rfl

/-- In CTR, encryption and decryption are the one-shot stream cipher (R208, R217). -/
theorem Engine.startSession_turns_ctr (c : Octets) :
    (e.startSession .ctr dir pad t iv).Turns p c (streamCipher e.sm4.rk inc128 (blockOfBytes iv) c) := by
  have hstream : ((e.startSession .ctr dir pad t iv).sess.ctrXor e.sm4.rk inc128 c).1 =
      streamCipher e.sm4.rk inc128 (blockOfBytes iv) c := ctrXor_eq_streamCipher _ _ rfl c
  rw [← hstream]
  exact turns_ctr p rfl rfl c

variable {m : Octets} (hne : mode ≠ .gcm) (h : admissible mode pad m)
include hne h

/-- A new encryption session turns an admissible message into its one-shot ciphertext (R218). -/
theorem Engine.startSession_turns_enc :
    (e.startSession mode .enc pad 0 iv).Turns p m (oneShotCipher e.sm4.rk mode pad iv m) := by
  obtain ⟨hact, hmode, hdir, hpad, hnew⟩ := e.startSession_selections (mode := mode) .enc (pad := pad) 0 iv
  obtain hm | rfl := isBlockMode_or_eq_ctr hne
  · rw [← blockOp_enc_eq_oneShotCipher _ hm, ← e.startSession_sess_block .enc 0 iv hm,
      ← e.startSession_sm4 mode .enc pad 0 iv]
    have hm' := hmode.symm ▸ hm
    cases pad with
    | noPadding => exact turns_noPadding p hact hm' hnew hpad (withPadding_length_mod hm h)
    | pkcs7 => exact turns_pkcs7Enc p hact hm' hnew hpad hdir m
  · exact e.startSession_turns_ctr p .enc 0 iv m

/-- A new decryption session turns the one-shot ciphertext of an admissible message into the message (R219). -/
theorem Engine.startSession_turns_dec :
    (e.startSession mode .dec pad 0 iv).Turns p (oneShotCipher e.sm4.rk mode pad iv m) m := by
  obtain ⟨hact, hmode, hdir, hpad, hnew⟩ := e.startSession_selections (mode := mode) .dec (pad := pad) 0 iv
  obtain hm | rfl := isBlockMode_or_eq_ctr hne
  · have hmod := withPadding_length_mod hm h
    have hlen := oneShotCipher_length e.sm4.rk hm iv hmod
    have hplain : ((e.startSession mode .dec pad 0 iv).sess.blockOp (e.startSession mode .dec pad 0 iv).sm4.rk
        (oneShotCipher e.sm4.rk mode pad iv m)).1 = withPadding pad m := by
      rw [e.startSession_sm4, e.startSession_sess_block .dec 0 iv hm, blockOp_dec_oneShotCipher _ hm iv hmod]
    have hm' := hmode.symm ▸ hm
    cases pad with
    | noPadding =>
      have hturns := turns_noPadding p hact hm' hnew hpad (by rw [hlen, hmod])
      rwa [hplain] at hturns
    | pkcs7 => exact turns_pkcs7Dec p hact hm' hnew hpad hdir hlen hplain
  · have hturns := e.startSession_turns_ctr p .dec (pad := pad) 0 iv (oneShotCipher e.sm4.rk .ctr pad iv m)
    rwa [oneShotCipher, streamCipher_streamCipher] at hturns

end Started

/-! ## The run of a session -/

theorem answer_inj {e e' : Engine} {o o' : Octets} : answer e o = answer e' o' ↔ e = e' ∧ o = o' := by simp [answer]

/-- After an update that answered OK, an empty one changes nothing (R61). -/
theorem modeUpdate_nil_of_ok {p : Params} {e e' : Engine} {d o : Octets} (h : modeUpdate p e d = answer e' o) :
    modeUpdate p e' [] = answer e' [] := by
  obtain ⟨e₁, o₁, e₂, o₂, hd, hnil, happend⟩ :=
    modeUpdate_concatenates p e d [] (by rw [List.append_nil, h, answer_status])
  rw [List.append_nil, h, answer_inj] at happend
  obtain ⟨rfl, rfl⟩ := answer_inj.mp (h.symm.trans hd)
  obtain ⟨rfl, ho⟩ := happend
  rwa [List.self_eq_append_right.mp ho] at hnil

/-- MODE_UPDATE once for each part is one MODE_UPDATE with the parts' concatenation (R61, R218). -/
theorem core_run_modeUpdates {s : State} {e e' : Engine} {parts : List Octets} {o : Octets} (rs : List Response)
    (rest : List Input) (n : Nat) (hfit : allFit s.params parts) (hnil : modeUpdate s.params e [] = answer e [])
    (h : modeUpdate s.params e parts.flatten = answer e' o) : ∃ rs', allOk rs' ∧ outputs rs' = o ∧
      Sys2Proof.core.run (parts.length + n)
          ((s.answered e rs).given (parts.map (fun d => .command ⟨0x32, d⟩) ++ rest)) =
        Sys2Proof.core.run n ((s.answered e' (rs ++ rs')).given rest) := by
  induction parts generalizing e rs o with
  | nil =>
    obtain ⟨rfl, rfl⟩ := answer_inj.mp (hnil.symm.trans h)
    exact ⟨[], nofun, rfl, by simp⟩
  | cons d parts ih =>
    rw [List.flatten_cons] at h
    obtain ⟨e₁, o₁, e₂, o₂, hd, hparts, hall⟩ :=
      modeUpdate_concatenates s.params e d parts.flatten (by rw [h, answer_status])
    obtain ⟨rfl, rfl⟩ := answer_inj.mp (h.symm.trans hall)
    obtain ⟨rs', hok, hout, hrun⟩ := ih (rs ++ [⟨.ok, o₁⟩]) (fun x hx => hfit x (List.mem_cons_of_mem _ hx))
      (modeUpdate_nil_of_ok hd) hparts
    refine ⟨⟨.ok, o₁⟩ :: rs', List.forall_mem_cons.mpr ⟨rfl, hok⟩, by simpa [outputs] using hout, ?_⟩
    rw [List.length_cons, Nat.add_right_comm, List.map_cons, List.cons_append,
      core_run_command (s := s.answered e rs) (i := .modeUpdate) (by decide) (hfit d List.mem_cons_self)
        (congrArg (finish _) hd), State.answered_answered]
    simpa using hrun

/-- Outside GCM an IV has at most 16 bytes, so it fits every port (R202-R204). -/
theorem dinFits_of_ivLengthAllowed {m : Mode} (p : Params) {n : Nat} (hne : m ≠ .gcm)
    (h : ivLengthAllowed m n = true) : p.dinFits n = true := by
  refine dinFits_of_le ?_
  cases m with
  | gcm => exact absurd rfl hne
  | ecb | cbc | ctr => simp [ivLengthAllowed] at h; omega

/-- The run of a MODE_INIT that passes every check, outside GCM (R201-R204). -/
theorem core_run_modeInit {s : State} {k : Nat} {mode : Mode} (dir : Dir) {pad : Pad} {iv : Octets} (rest : List Input)
    (n : Nat) (hmode : Mode.ofField k = some mode) (hne : mode ≠ .gcm) (hpad : padAllowed mode pad = true)
    (hiv : ivLengthAllowed mode iv.length = true) (hkey : s.engine.sm4.keyValid = true) :
    Sys2Proof.core.run (n + 1) (s.given (.command ⟨encode (.modeInit k dir pad 0), iv⟩ :: rest)) =
      Sys2Proof.core.run n ((s.answered (s.engine.startSession mode dir pad 0 iv) [⟨.ok, []⟩]).given rest) := by
  have hk := (number_of_ofField hmode).1
  have hword : decode (encode (.modeInit k dir pad 0)) = .command (.modeInit k dir pad 0) :=
    decode_encode (modeInit_wellFormed.mpr ⟨by omega, by omega⟩)
  have hexec : exec (.modeInit k dir pad 0) (s.begin iv rest) = finish (s.begin iv rest)
      (answer (s.engine.startSession mode dir pad 0 iv) []) := by
    rw [exec_modeInit, State.begin_engine, State.begin_din,
      modeInit_accepted dir hkey hmode hpad (tagLength_zero hne) hiv]
  exact core_run_command hword (dinFits_of_ivLengthAllowed s.params hne hiv) hexec n

theorem core_run_modeFinal (s : State) {e e' : Engine} {o : Octets} (rs : List Response)
    (h : modeFinal e [] = answer e' o) :
    Sys2Proof.core.run 1 ((s.answered e rs).given [.command ⟨0x33, []⟩]) =
      .next (s.answered e' (rs ++ [⟨.ok, o⟩])) := by
  rw [core_run_command (s := s.answered e rs) (i := .modeFinal) (by decide) (dinFits_of_le (by simp))
    (congrArg (finish _) h), State.answered_answered]
  rfl

/-- A session whose engine turns the parts' concatenation into `out` answers OK throughout and outputs `out`, however the
input is split (R200, R218). -/
theorem core_run_session {s : State} {n : Nat} {mode : Mode} (dir : Dir) {pad : Pad} {iv out : Octets} {parts : List Octets}
    (hmode : Mode.ofField n = some mode) (hne : mode ≠ .gcm) (hpad : padAllowed mode pad = true)
    (hiv : ivLengthAllowed mode iv.length = true) (hkey : s.engine.sm4.keyValid = true) (hfit : allFit s.params parts)
    (hturns : (s.engine.startSession mode dir pad 0 iv).Turns s.params parts.flatten out) :
    ∃ rs : List Response, allOk rs ∧ outputs rs = out ∧
      Sys2Proof.core.run (parts.length + 2)
          (s.given (sessionInputs (encode (.modeInit n dir pad 0)) iv [] parts [])) =
        .next (s.answered s.engine.endSession rs) := by
  obtain ⟨hnil, e, o, f, hupdate, hfinal, rfl⟩ := hturns
  obtain ⟨rs, hok, hout, hrun⟩ := core_run_modeUpdates [⟨.ok, []⟩] [.command ⟨0x33, []⟩] 1 hfit hnil hupdate
  rw [Engine.startSession_endSession] at hfinal
  refine ⟨[⟨.ok, []⟩] ++ rs ++ [⟨.ok, f⟩], ?_, ?_, ?_⟩
  · simpa [allOk, or_imp, forall_and] using hok
  · simpa [outputs] using hout
  · rw [sessionInputs, List.map_nil, List.append_nil, List.append_assoc, List.singleton_append,
      core_run_modeInit dir _ _ hmode hne hpad hiv hkey, hrun, core_run_modeFinal s _ hfinal]

/-! ## The obligations -/

/-- Settles O33: each rejected selection fails one check of every mode it could name. -/
theorem modeInitRejects : Obligations.ModeInitRejects := by
  refine ⟨fun s mode tagLen dir pad hkey => ?_, fun s mode tagLen dir pad hkey hrejected => ?_⟩
  · rw [exec_modeInit, modeInit, if_pos hkey, finish_eq, raise]
  · suffices modeInit mode dir pad tagLen s.engine s.din = raiseEnding s.engine .invalidParameter by
      rw [exec_modeInit, this]
      rfl
    obtain hmode | ⟨rfl, hmode⟩ | ⟨hmode, htag⟩ | ⟨hmode, htag, hlength⟩ | ⟨rfl, hiv⟩ | hiv | ⟨rfl, hiv⟩ :=
      hrejected
    · refine modeInit_rejected dir s.din hkey fun m hm => ?_
      have := (number_of_ofField hm).1
      omega
    · refine modeInit_rejected dir s.din hkey fun m hm => .inl ?_
      obtain ⟨-, hctr, hgcm⟩ := number_of_ofField hm
      rw [padAllowed_eq_false_iff, hctr, hgcm]
      exact ⟨rfl, hmode⟩
    · refine modeInit_rejected dir s.din hkey fun m hm => .inr ?_
      obtain ⟨-, -, hgcm⟩ := number_of_ofField hm
      rw [tagLength_eq_none_iff, hgcm]
      exact ⟨htag, fun h => absurd h hmode⟩
    · exact modeInit_rejected dir s.din hkey fun m hm => .inr (tagLength_eq_none_iff.mpr ⟨htag, fun _ => hlength⟩)
    · exact modeInit_badIv dir hkey (.inl ⟨rfl, by simpa using hiv⟩)
    · exact modeInit_badIv dir hkey (.inr (.inl hiv))
    · exact modeInit_badIv dir hkey (.inr (.inr ⟨rfl, by simpa using hiv⟩))

/-- Settles O34: the IV length decides between InvalidParameter and the session that the mode starts. -/
theorem modeInitEcbCbcCtr : Obligations.ModeInitEcbCbcCtr := by
  intro s dir pad hkey
  have hbad : ∀ mode pad, BadIvLength mode s.din.length →
      exec (.modeInit mode dir pad 0) s = .next (s.complete ⟨s.engine.endSession, .invalidParameter, []⟩) :=
    fun mode pad h => by rw [exec_modeInit, modeInit_badIv dir hkey h, finish_eq, raiseEnding, raise]
  have hok : ∀ mode m pad, Mode.ofField mode = some m → m ≠ .gcm → padAllowed m pad = true →
      ivLengthAllowed m s.din.length = true → exec (.modeInit mode dir pad 0) s =
        .next (s.complete ⟨s.engine.startSession m dir pad 0 s.din, .ok, []⟩) :=
    fun mode m pad hmode hne hpad hiv => by
      rw [exec_modeInit, modeInit_accepted dir hkey hmode hpad (tagLength_zero hne) hiv, finish_eq, answer]
  exact ⟨fun h => hbad 0 pad (.inl ⟨rfl, by simpa using h⟩),
    fun h => hok 0 .ecb pad rfl (by decide) rfl (by simp [ivLengthAllowed, h]),
    fun h => hbad 1 pad (.inr (.inl ⟨.inl rfl, h⟩)),
    fun h => hok 1 .cbc pad rfl (by decide) rfl (by simp [ivLengthAllowed, h]),
    fun h => hbad 2 .noPadding (.inr (.inl ⟨.inr rfl, h⟩)),
    fun h => hok 2 .ctr .noPadding rfl (by decide) rfl (by simp [ivLengthAllowed, h])⟩

/-- Settles O35: `n` is the number of bytes processed, and BlockOp over the blocks is what each mode and direction says. -/
theorem modeUpdateBlocksRule : Obligations.ModeUpdateBlocksRule := by
  refine ⟨formatS_opcode (i := .modeUpdate) (by decide), fun _ => exec_modeUpdate_idle, ?_⟩
  rintro s buf n blocks hact rfl hmod hn rfl
  have hready : blockBytesReady s.engine.sess.dir s.engine.sess.pad (s.engine.sess.pend ++ s.din).length = n :=
    blockBytesReady_eq hmod (by simpa using hn)
  have hexec := fun hm out chain => @exec_modeUpdate_blocks s n hact (isBlockMode_iff.mpr hm) hready out chain
  refine ⟨fun hm => hexec (.inl hm) _ _ ?_, fun hm hdir => hexec (.inr hm) _ _ ?_, fun hm hdir => hexec (.inr hm) _ _ ?_⟩
  · rw [hm]
    exact blockRun_ecb ..
  · rw [hm, hdir, blockRun_cbc_enc]
  · rw [hm, hdir, blockRun_cbc_dec]

/-- Settles O36: CtrXor is the exclusive-or with the keystream. -/
theorem modeUpdateCtrRule : Obligations.ModeUpdateCtrRule := by
  refine ⟨formatS_opcode (i := .modeUpdate) (by decide), fun _ => exec_modeUpdate_idle, fun s hact hm => ?_⟩
  obtain ⟨hout, hadvanced⟩ := ctrXor_spec s.engine.sm4.rk inc128 s.engine.sess s.din
  refine ⟨_, hadvanced, ?_⟩
  rw [exec_modeUpdate, modeUpdate_ctr _ _ hact hm, updateCtr]
  dsimp only
  rw [hout]
  rfl

/-- Settles O38: under the invariant the padded rest is one block. -/
theorem modeFinalPkcs7Encrypt : Obligations.ModeFinalPkcs7Encrypt := by
  intro s hact hmode hpad hdir
  have hm := isBlockMode_iff.mpr hmode
  rw [exec_modeFinal, modeFinal_pkcs7Enc _ hact hm hpad hdir]
  refine ⟨fun hdin => ?_, fun hdin hinv k p hk hp => ?_⟩
  · rw [finalPkcs7Enc, if_pos (by simpa using hdin)]
    rfl
  · subst hk hp
    have hlt := hinv.pend_lt hact hdir
    have hlen : (pkcs7Pad s.engine.sess.pend).length = 16 := by rw [pkcs7Pad_length]; omega
    rw [finalPkcs7Enc, if_neg (by simp [hdin]), blockOp_block _ _ hlen, hdir, blockStep_enc _ hm, pkcs7Pad_short hlt]
    rfl

/-- Settles O39: unpad checks the bytes of the one block one by one. -/
theorem modeFinalPkcs7Decrypt : Obligations.ModeFinalPkcs7Decrypt := by
  intro s hact hmode hpad hdir
  have hm := isBlockMode_iff.mpr hmode
  rw [exec_modeFinal, modeFinal_pkcs7Dec _ hact hm hpad hdir]
  refine ⟨fun hbad => ?_, ?_⟩
  · rw [finalPkcs7Dec_badLength hbad]
    rfl
  · intro hdin hpend y p k hy hp hk
    have hout : (s.engine.sess.blockOp s.engine.sm4.rk s.engine.sess.pend).1 = p := by
      rw [blockOp_block _ _ hpend, hdir, blockStep_dec _ hm, hp, hy, blockOfBytes]
    have hlen : p.length = 16 := by rw [hp, bytesOfBlock_length]
    rw [hdin, finalPkcs7Dec_block hpend, hout, pkcs7Unpad_block hlen, ← hk]
    exact ⟨fun hvalid => by rw [if_pos hvalid]; rfl, fun hinvalid => by rw [if_neg hinvalid]; rfl⟩

/-- Settles O41: the session turns the whole message into its one-shot ciphertext. -/
theorem sessionEncryptsOneShot : Obligations.SessionEncryptsOneShot :=
  fun s _ _ _ iv _ hmode hne hpad hiv hkey hfit hadm =>
    core_run_session .enc hmode hne hpad hiv hkey hfit (s.engine.startSession_turns_enc s.params iv hne hadm)

/-- Settles O42: the session turns the whole ciphertext into the message. -/
theorem sessionDecryptsItsEncryption : Obligations.SessionDecryptsItsEncryption :=
  fun s _ _ _ iv _ _ hmode hne hpad hiv hkey hfit hadm hparts =>
    core_run_session .dec hmode hne hpad hiv hkey hfit (hparts ▸ s.engine.startSession_turns_dec s.params iv hne hadm)

/-- Settles O43: unpad accepts exactly a string that ends in k bytes of value k. -/
theorem pkcs7PadUnpad : Obligations.Pkcs7PadUnpad :=
  ⟨fun m => ⟨pkcs7Pad_length_mod m, by rw [pkcs7Pad_length]; omega, pkcs7Unpad_pkcs7Pad m⟩,
    fun _ _ _ hlen => ⟨eq_pkcs7Pad_of_pkcs7Unpad hlen, fun h => h ▸ pkcs7Unpad_pkcs7Pad _⟩⟩

/-- Settles O37: neither final without padding has an output, and both end the session. -/
theorem modeFinalWithoutPadding : Obligations.ModeFinalWithoutPadding := by
  refine ⟨formatS_opcode (i := .modeFinal) (by decide), fun s hidle => ?_, fun s hact hmode hpad => ?_,
    fun s hact hm => ?_⟩
  · rw [exec_modeFinal, modeFinal_idle _ hidle, finish_eq, raise]
  · rw [exec_modeFinal, modeFinal_noPadding _ hact (isBlockMode_iff.mpr hmode) hpad, finalNoPadding]
    cases s.din <;> cases s.engine.sess.pend <;> rfl
  · rw [exec_modeFinal, modeFinal_ctr _ hact hm, finalCtr]
    cases s.din <;> rfl

/-- Settles O40: the body is the engine with the session ended. -/
theorem modeAbortRule : Obligations.ModeAbortRule :=
  ⟨formatS_opcode (i := .modeAbort) (by decide), fun _ => finish_needEmptyDin_nonempty _, fun _ => finish_needEmptyDin_nil _⟩

end Sys2Proof.Machine

/-! # The GCM statements (45_gcm.md)
PROOF. GFMul as the multiplication of a field generated by 1 and x, MODE_INIT, MODE_AAD, MODE_UPDATE and MODE_FINAL in GCM
by the blocks GHASH absorbs, and a whole session against its one-shot meaning. -/

namespace Sys2Proof.Machine

/-! ## The field multiplication -/

/-- The block 80…0: the polynomial 1, bit 127 being the coefficient of x⁰ (R240, R241). -/
def gfOne : Block := 0x80000000000000000000000000000000

theorem gfShift_twoPow_succ {n : Nat} (h : n < 127) : gfShift (BitVec.twoPow 128 (n + 1)) = BitVec.twoPow 128 n := by
  have hbit : (BitVec.twoPow 128 (n + 1)).getLsbD 0 = false := by simp
  apply BitVec.eq_of_getLsbD_eq
  intro i hi
  have hn : n < 128 ∧ n + 1 < 128 := by omega
  rw [gfShift, hbit, if_neg Bool.false_ne_true, BitVec.getLsbD_ushiftRight, BitVec.getLsbD_twoPow, BitVec.getLsbD_twoPow,
    Nat.add_comm 1 i]
  simp [hn]

/-- A turn of the loop with V = x^(127−n) copies bit n of X into Z (R241). -/
theorem getLsbD_addend_twoPow (x z : Block) {n : Nat} (hn : n < 128) (i : Nat) :
    (if x.getLsbD n then z ^^^ BitVec.twoPow 128 n else z).getLsbD i = (z.getLsbD i ^^ (decide (i = n) && x.getLsbD i)) := by
  by_cases hi : i = n
  · subst hi
    cases hbit : x.getLsbD i <;> simp only [Bool.false_eq_true, if_true, if_false, BitVec.getLsbD_xor,
      BitVec.getLsbD_twoPow, hn, decide_true, Bool.and_self, Bool.and_false, Bool.xor_false]
  · split <;> simp only [BitVec.getLsbD_xor, BitVec.getLsbD_twoPow, hi, Ne.symm hi, decide_false, Bool.and_false,
      Bool.false_and, Bool.xor_false]

/-- From V = x^(127−n), the last n + 1 turns of the loop copy the last n + 1 bits of X into Z (R241). -/
theorem getLsbD_gfLoop_twoPow (x z : Block) {n : Nat} (hn : n < 128) (i : Nat) :
    (gfLoop x (n + 1) z (BitVec.twoPow 128 n)).getLsbD i = (z.getLsbD i ^^ (decide (i ≤ n) && x.getLsbD i)) := by
  induction n generalizing z with
  | zero =>
    rw [gfLoop, gfLoop, getLsbD_addend_twoPow x z hn]
    simp
  | succ n ih =>
    have hle : (decide (i = n + 1) ^^ decide (i ≤ n)) = decide (i ≤ n + 1) := by grind
    rw [gfLoop, gfShift_twoPow_succ (by omega), ih _ (by omega), getLsbD_addend_twoPow x z hn, Bool.xor_assoc,
      ← Bool.and_xor_distrib_right, hle]

theorem gfMul_one_right (x : Block) : gfMul x gfOne = x := by
  apply BitVec.eq_of_getLsbD_eq
  intro i hi
  have hone : gfOne = BitVec.twoPow 128 127 := by decide
  rw [gfMul, hone, getLsbD_gfLoop_twoPow x 0 (by decide)]
  simp
  omega

/-- What holds of 0 and of every multiple by a power of x, and of sums, holds of the result of the loop (R241). -/
theorem gfLoop_induction {P : Block → Prop} (shift : ∀ v, P v → P (gfShift v)) (xor : ∀ u v, P u → P v → P (u ^^^ v))
    (x : Block) (n : Nat) {z v : Block} (hz : P z) (hv : P v) : P (gfLoop x n z v) := by
  induction n generalizing z v with
  | zero => exact hz
  | succ n ih =>
    rw [gfLoop]
    refine ih ?_ (shift v hv)
    split
    · exact xor z v hz hv
    · exact hz

/-- An additive map that commutes with the multiplication by x is the multiplication by its value at 1, because 1 and x
generate the field (R240, R241). -/
theorem eq_gfMul_of_linear {f : Block → Block} (hxor : ∀ u v, f (u ^^^ v) = f u ^^^ f v)
    (hshift : ∀ v, f (gfShift v) = gfShift (f v)) (y : Block) : f y = gfMul (f gfOne) y := by
  have hzero : f 0#128 = gfMul (f gfOne) 0#128 := by
    have hf := hxor 0#128 0#128
    have hg := gfMul_xor_right (f gfOne) 0#128 0#128
    rw [BitVec.xor_self, BitVec.xor_self] at hf hg
    rw [hf, hg]
  rw [← gfMul_one_right y, gfMul]
  refine gfLoop_induction (P := fun v => f v = gfMul (f gfOne) v) (fun v hv => ?_) (fun u v hu hv => ?_) y 128 hzero ?_
  · rw [hshift, hv, gfMul_shift_right]
  · rw [hxor, hu, hv, gfMul_xor_right]
  · exact (gfMul_one_right _).symm

theorem gfMul_one_left (x : Block) : gfMul gfOne x = x :=
  (eq_gfMul_of_linear (f := id) (fun _ _ => rfl) (fun _ => rfl) x).symm

theorem gfMul_shift_left (x y : Block) : gfMul (gfShift x) y = gfShift (gfMul x y) := by
  have h := eq_gfMul_of_linear (f := fun v => gfShift (gfMul x v)) (fun u v => by rw [gfMul_xor_right, gfShift_xor])
    (fun v => by rw [gfMul_shift_right]) y
  rw [gfMul_one_right] at h
  exact h.symm

theorem gfMul_comm (x y : Block) : gfMul x y = gfMul y x := by
  have h := eq_gfMul_of_linear (f := (gfMul · x)) (fun u v => gfMul_xor_left u v x) (gfMul_shift_left · x) y
  rwa [gfMul_one_left, eq_comm] at h

theorem gfMul_assoc (x y z : Block) : gfMul (gfMul x y) z = gfMul x (gfMul y z) := by
  have h := eq_gfMul_of_linear (f := fun v => gfMul x (gfMul y v)) (fun u v => by rw [gfMul_xor_right, gfMul_xor_right])
    (fun v => by rw [gfMul_shift_right, gfMul_shift_right]) z
  rw [gfMul_one_right] at h
  exact h.symm

/-! ## The set-up -/

/-- inc32 as arithmetic: the low 32 bits wrap, the high 96 bits stay (R243). -/
theorem inc32_toNat (x : Block) : (inc32 x).toNat = x.toNat - x.toNat % 2 ^ 32 + (x.toNat % 2 ^ 32 + 1) % 2 ^ 32 := by
  have hlt := x.isLt
  have hparts : (inc32 x).toNat = (x.extractLsb' 32 96 ++ (x.extractLsb' 0 32 + 1)).toNat := rfl
  rw [hparts, BitVec.toNat_append, ← Nat.shiftLeft_add_eq_or_of_lt (BitVec.isLt _), Nat.shiftLeft_eq]
  simp only [BitVec.extractLsb'_toNat, BitVec.toNat_add, Nat.shiftRight_eq_div_pow,
    show (1 : BitVec 32).toNat = 1 from rfl, pow_zero, Nat.div_one]
  omega

theorem gcmJ0_eq_of_twelve (h : Block) {iv : Octets} (hlen : iv.length = 12) :
    gcmJ0 h iv = BitVec.ofNat 128 (beNat (iv ++ [0, 0, 0, 1])) := by
  rw [gcmJ0, if_pos hlen, beNat_append]
  rfl

theorem gcmJ0_eq_ghash (h : Block) {iv : Octets} (hlen : iv.length ≠ 12) :
    gcmJ0 h iv = ghash h (zpad iv ++ bytesK 8 0 ++ toBE 8 (8 * iv.length)) := if_neg hlen

/-- The tag lengths GCM takes; 0 selects 16 (R72). -/
theorem tagLength_gcm {n : Nat} (h : n = 0 ∨ (12 ≤ n ∧ n ≤ 16)) :
    ∃ t, tagLength .gcm n = some t ∧ t.val = if n = 0 then 16 else n := by
  by_cases h0 : n = 0
  · exact ⟨16, by rw [tagLength, if_pos h0], by rw [if_pos h0]; rfl⟩
  · have hn := h.resolve_left h0
    exact ⟨⟨n, Nat.lt_succ_of_le hn.2⟩, by rw [tagLength, if_neg h0, dif_pos hn], by rw [if_neg h0]⟩

theorem ivLengthAllowed_gcm_iff {n : Nat} : ivLengthAllowed .gcm n = true ↔ 1 ≤ n ∧ n < 2 ^ 61 := by
  rw [ivLengthAllowed, Bool.and_eq_true, decide_eq_true_iff, decide_eq_true_iff, Config.gcmAadLimit]

/-! ## The data phase -/

/-- The AAD's partial block is flushed before the first data (R249, R250). -/
theorem start_eq {g : Gcm} (h : g.gpend.length < 16) : g.start = { g with
    X := ghashFrom g.H g.X (if g.started then [] else flushBlocks g.gpend)
    gpend := if g.started then g.gpend else []
    started := true } := by
  unfold Gcm.start
  split
  next hstarted => simp [← hstarted]
  next hstarted => rw [flush_eq h]

/-- Taking ciphertext, said by the blocks GHASH absorbs and the rest it keeps (R248-R250). -/
theorem takeData_eq {g : Gcm} {c rest : Octets} {blocks : List Block} (h : g.gpend.length < 16)
    (hsplit : SplitsAs ((if g.started then g.gpend else []) ++ c) blocks rest) : g.takeData c = { g with
      X := ghashFrom g.H g.X ((if g.started then [] else flushBlocks g.gpend) ++ blocks)
      gpend := rest
      started := true
      clen := g.clen + BitVec.ofNat 64 c.length } := by
  rw [Gcm.takeData, start_eq h, absorb_eq hsplit, ghashFrom_append]

/-- The tag, said by the partial block and the length block that close GHASH (R251). -/
theorem gcmCloseTag_eq (rk : Vector Word 32) {g : Gcm} (t : Nat) (h : g.gpend.length < 16) : gcmCloseTag rk g t =
    (bytesOfBlock (sm4Encrypt rk g.J0 ^^^
      ghashFrom g.H g.X (flushBlocks g.gpend ++ [blockOfBytes g.lengthBlock]))).take t := by
  have hsplit : SplitsAs ([] ++ g.lengthBlock) [blockOfBytes g.lengthBlock] [] := by
    refine ⟨?_, by decide⟩
    simp [bytesOfBlock_blockOfBytes, Gcm.lengthBlock]
  rw [gcmCloseTag, flush_eq h, absorb_eq hsplit, ghashFrom_append]

/-! ## The commands -/

theorem exec_modeAad (s : State) : exec .modeAad s = finish s (modeAad s.engine s.din) := rfl

section GcmCommands
variable {e : Engine} (hact : e.sess.phase = .active) (hm : e.sess.mode = .gcm)
include hact hm

theorem modeUpdate_gcmEnc (p : Params) (din : Octets) (hdir : e.sess.dir = .enc) :
    modeUpdate p e din = updateGcmEnc e din := by
  rw [modeUpdate_active p din (by simp [hact]), hm, hdir, updateFor]

theorem modeUpdate_gcmDec (p : Params) (din : Octets) (hdir : e.sess.dir = .dec) :
    modeUpdate p e din = updateGcmDec p e din := by
  rw [modeUpdate_active p din (by simp [hact]), hm, hdir, updateFor]

theorem modeFinal_gcmEnc (din : Octets) (hdir : e.sess.dir = .enc) : modeFinal e din = finalGcmEnc e din := by
  simp [modeFinal, hact, hm, hdir]

theorem modeFinal_gcmDec (din : Octets) (hdir : e.sess.dir = .dec) : modeFinal e din = finalGcmDec e din := by
  simp [modeFinal, hact, hm, hdir]

end GcmCommands

/-- The extension takes AAD (R247). -/
def Gcm.takeAad (g : Gcm) (aad : Octets) : Gcm :=
  Gcm.absorb { g with alen := g.alen + BitVec.ofNat 64 aad.length } aad

/-- In the AAD phase, AAD within its limit is taken (R247). -/
theorem modeAad_of_fits {e : Engine} {din : Octets} (hact : e.sess.phase = .active) (hm : e.sess.mode = .gcm)
    (hnew : e.gcm.started = false) (hfit : e.gcm.alen.toNat + din.length < 2 ^ 61) :
    modeAad e din = answer { e with gcm := e.gcm.takeAad din } [] := by
  have hlimit : ¬e.gcm.alen.toNat + din.length ≥ Config.gcmAadLimit := Nat.not_le.mpr hfit
  rw [modeAad, if_neg (by simp [hact, hm, hnew]), if_neg hlimit]
  rfl

/-! ## AAD in parts -/

/-- Taking AAD in two parts is taking the whole (R247). -/
theorem takeAad_append (g : Gcm) (a b : Octets) : (g.takeAad a).takeAad b = g.takeAad (a ++ b) := by
  have hlen : g.alen + BitVec.ofNat 64 a.length + BitVec.ofNat 64 b.length = g.alen + BitVec.ofNat 64 (a ++ b).length := by
    rw [List.length_append, BitVec.ofNat_add, BitVec.add_assoc]
  calc (g.takeAad a).takeAad b
      = (Gcm.absorb { g with alen := g.alen + BitVec.ofNat 64 a.length + BitVec.ofNat 64 b.length } a).absorb b := rfl
    _ = g.takeAad (a ++ b) := by rw [absorb_append, hlen, Gcm.takeAad]

theorem takeAad_nil {g : Gcm} (h : g.gpend.length < 16) : g.takeAad [] = g := by
  rw [Gcm.takeAad, List.length_nil, BitVec.add_zero, absorb_nil h]

theorem takeAad_gpend_lt (g : Gcm) (a : Octets) : (g.takeAad a).gpend.length < 16 := by
  rw [Gcm.takeAad, absorb_gpend_length]
  exact Nat.mod_lt _ (by decide)

/-- Within the AAD limit the 64-bit count of AAD bytes does not wrap (R36, R257). -/
theorem takeAad_alen {g : Gcm} {a : Octets} (h : g.alen.toNat + a.length < 2 ^ 61) :
    (g.takeAad a).alen.toNat = g.alen.toNat + a.length := toNat_add_ofNat (by omega)

/-! ## The tag of a session -/

/-- The blocks of zpad(S) are the whole blocks of S and its padded rest (R242). -/
theorem splitsAs_zpad (s : Octets) :
    SplitsAs (zpad s) (blocksOf s ++ flushBlocks (s.drop (16 * (s.length / 16)))) [] := by
  obtain ⟨hs, -⟩ := splitsAs_iff.mpr ⟨rfl, (rfl : s.drop (16 * (s.length / 16)) = _)⟩
  have hlen : (s.drop (16 * (s.length / 16))).length = s.length % 16 := by rw [List.length_drop]; omega
  refine ⟨?_, by decide⟩
  rw [zpad, List.append_nil, bytesOfBlocks_append]
  conv_lhs => rw [hs, List.append_assoc]
  congr 1
  rw [← hs, flushBlocks, ← hlen]
  split
  next h => simp [h, bytesK]
  next h =>
    have hpos : 0 < (s.drop (16 * (s.length / 16))).length := List.length_pos_iff.mpr h
    rw [bytesOfBlocks_cons, bytesOfBlocks_nil, List.append_nil, Nat.mod_eq_of_lt (by omega),
      bytesOfBlock_blockOfBytes (by rw [List.length_append, bytesK_length]; omega)]

/-- Flush completes the partial block that zpad completes (R242, R248). -/
theorem blocksOf_zpad (s : Octets) : blocksOf (zpad s) = blocksOf s ++ flushBlocks (s.drop (16 * (s.length / 16))) :=
  (splitsAs_iff.mp (splitsAs_zpad s)).1.symm

theorem zpad_length_mod (s : Octets) : (zpad s).length % 16 = 0 := by
  rw [zpad, List.length_append, bytesK_length]
  omega

/-- GHASH over padded AAD, padded ciphertext and lengths, cut into blocks (R256). -/
theorem oneShotGhash_eq (rk : Vector Word 32) (a c : Octets) : oneShotGhash rk a c = ghashFrom (gcmSubkey rk) 0
    (blocksOf (zpad a) ++ blocksOf (zpad c) ++ [blockOfBytes (toBE 8 (8 * a.length) ++ toBE 8 (8 * c.length))]) := by
  have hac : (zpad a ++ zpad c).length % 16 = 0 := by
    rw [List.length_append, Nat.add_mod, zpad_length_mod, zpad_length_mod]
  rw [oneShotGhash, ghash, List.append_assoc, blocksOf_append _ _ hac, blocksOf_append _ _ (zpad_length_mod a),
    blocksOf_single (s := toBE 8 _ ++ toBE 8 _) (by simp)]

/-- The extension after AAD and then data: X has absorbed the padded AAD and the whole blocks of the ciphertext (R247-R250). -/
theorem begin_takeAad_takeData (rk : Vector Word 32) (iv a c : Octets) :
    ((Gcm.begin rk iv).takeAad a).takeData c = { Gcm.begin rk iv with
      X := ghashFrom (gcmSubkey rk) 0 (blocksOf (zpad a) ++ blocksOf c)
      gpend := c.drop (16 * (c.length / 16))
      alen := BitVec.ofNat 64 a.length
      clen := BitVec.ofNat 64 c.length
      started := true } := by
  have hsplit : SplitsAs ((if ((Gcm.begin rk iv).takeAad a).started then ((Gcm.begin rk iv).takeAad a).gpend else []) ++ c)
      (blocksOf c) (c.drop (16 * (c.length / 16))) := splitsAs_iff.mpr ⟨rfl, rfl⟩
  have hX : ghashFrom (gcmSubkey rk) 0 (blocksOf (zpad a) ++ blocksOf c) = ghashFrom (gcmSubkey rk)
      (ghashFrom (gcmSubkey rk) 0 (blocksOf a)) (flushBlocks (a.drop (16 * (a.length / 16))) ++ blocksOf c) := by
    rw [blocksOf_zpad, List.append_assoc, ghashFrom_append]
  rw [takeData_eq (takeAad_gpend_lt _ a) hsplit]
  conv_rhs => rw [hX, ← BitVec.zero_add (BitVec.ofNat 64 a.length), ← BitVec.zero_add (BitVec.ofNat 64 c.length)]
  rfl

/-- After AAD and then data the tag is that of the one-shot meaning (R251, R256). -/
theorem gcmCloseTag_eq_oneShotTag (rk : Vector Word 32) (iv : Octets) {a c : Octets} (t : Nat) (ha : a.length < 2 ^ 61)
    (hc : c.length ≤ Config.gcmDataLimit) :
    gcmCloseTag rk (((Gcm.begin rk iv).takeAad a).takeData c) t = oneShotTag rk iv a c t := by
  have hrest : (c.drop (16 * (c.length / 16))).length < 16 := by rw [List.length_drop]; omega
  have halen : (BitVec.ofNat 64 a.length).toNat = a.length := Nat.mod_eq_of_lt (by omega)
  have hclen : (BitVec.ofNat 64 c.length).toNat = c.length :=
    Nat.mod_eq_of_lt (hc.trans_lt (by decide))
  have hclose (l : Block) : ghashFrom (gcmSubkey rk) 0 (blocksOf (zpad a) ++ blocksOf (zpad c) ++ [l]) =
      ghashFrom (gcmSubkey rk) (ghashFrom (gcmSubkey rk) 0 (blocksOf (zpad a) ++ blocksOf c))
        (flushBlocks (c.drop (16 * (c.length / 16))) ++ [l]) := by
    simp only [blocksOf_zpad c, ghashFrom_append]
  rw [begin_takeAad_takeData, gcmCloseTag_eq rk t hrest, Gcm.lengthBlock, halen, hclen, oneShotTag, oneShotGhash_eq, hclose]
  rfl

/-- An empty update before MODE_FINAL does not change the tag (R249-R251). -/
theorem gcmCloseTag_takeData_nil (rk : Vector Word 32) {g : Gcm} (t : Nat) (h : g.gpend.length < 16) :
    gcmCloseTag rk (g.takeData []) t = gcmCloseTag rk g t := by
  have hrest : (if g.started then g.gpend else []).length < 16 := by
    split
    · exact h
    · decide
  have hsplit : SplitsAs ((if g.started then g.gpend else []) ++ []) [] (if g.started then g.gpend else []) :=
    ⟨by simp, hrest⟩
  rw [takeData_eq h hsplit, gcmCloseTag_eq rk t h, gcmCloseTag_eq rk t hrest, Gcm.lengthBlock, Gcm.lengthBlock,
    List.length_nil, BitVec.add_zero]
  cases g.started <;> simp [← ghashFrom_append, flushBlocks]

/-- The withheld plaintext plays no part in the tag (R251). -/
theorem gcmCloseTag_withDbuf (rk : Vector Word 32) (g : Gcm) (q : Octets) (t : Nat) :
    gcmCloseTag rk { g with dbuf := q } t = gcmCloseTag rk g t := by
  unfold gcmCloseTag Gcm.flush
  split_ifs <;> rfl

/-! ## MODE_UPDATE and MODE_FINAL in GCM -/

@[simp] theorem ctrXor_t (rk : Vector Word 32) (inc : Block → Block) (x : Session) (s : Octets) :
    (x.ctrXor rk inc s).2.t = x.t := by rw [ctrXor_frame]

section GcmSession
variable {e : Engine} (hact : e.sess.phase = .active) (hm : e.sess.mode = .gcm)
include hact hm

theorem modeFinal_gcmEnc_nil (hdir : e.sess.dir = .enc) :
    modeFinal e [] = answer e.endSession (gcmCloseTag e.sm4.rk e.gcm e.sess.t.val) := by
  rw [modeFinal_gcmEnc hact hm _ hdir]
  rfl

theorem modeFinal_gcmDec_eq (din : Octets) (hdir : e.sess.dir = .dec) :
    modeFinal e din = if din = gcmCloseTag e.sm4.rk e.gcm e.sess.t.val then answer e.endSession e.gcm.dbuf
      else raiseEnding e .authenticationFailed := by
  rw [modeFinal_gcmDec hact hm _ hdir, finalGcmDec, ite_not]

/-- MODE_FINAL reads the extension by its tag and by what it withholds (R252, R253). -/
theorem modeFinal_gcm_congr {g : Gcm} (htag : ∀ t, gcmCloseTag e.sm4.rk g t = gcmCloseTag e.sm4.rk e.gcm t)
    (hdbuf : g.dbuf = e.gcm.dbuf) (din : Octets) : modeFinal { e with gcm := g } din = modeFinal e din := by
  cases hdir : e.sess.dir with
  | enc =>
    rw [modeFinal_gcmEnc hact hm _ hdir, modeFinal_gcmEnc (e := { e with gcm := g }) hact hm _ hdir, finalGcmEnc, htag]
    rfl
  | dec =>
    rw [modeFinal_gcmDec_eq hact hm _ hdir, modeFinal_gcmDec_eq (e := { e with gcm := g }) hact hm _ hdir, htag, hdbuf]
    rfl

/-- An empty MODE_UPDATE that answers OK outputs nothing and does not change what MODE_FINAL answers (R249-R253). -/
theorem modeFinal_of_modeUpdate_nil (hpend : e.gcm.gpend.length < 16) {p : Params} {e' : Engine} {o : Octets}
    (h : modeUpdate p e [] = answer e' o) (din : Octets) : o = [] ∧ modeFinal e' din = modeFinal e din := by
  have htag t := gcmCloseTag_takeData_nil e.sm4.rk t hpend
  cases hdir : e.sess.dir with
  | enc =>
    rw [modeUpdate_gcmEnc hact hm _ _ hdir] at h
    rw [updateGcmEnc_of_fits (fits_of_updateGcmEnc_ok (by rw [h, answer_status])), answer_inj] at h
    obtain ⟨rfl, rfl⟩ := h
    exact ⟨rfl, modeFinal_gcm_congr hact hm htag (by rw [takeData_frame]) din⟩
  | dec =>
    rw [modeUpdate_gcmDec hact hm _ _ hdir] at h
    obtain ⟨hfit, hcap⟩ := fits_of_updateGcmDec_ok (by rw [h, answer_status])
    rw [updateGcmDec_of_fits hfit hcap, answer_inj] at h
    obtain ⟨rfl, rfl⟩ := h
    exact ⟨rfl, modeFinal_gcm_congr hact hm (fun t => (gcmCloseTag_withDbuf ..).trans (htag t)) (List.append_nil _) din⟩

end GcmSession

/-! ## A whole session -/

/-- The engine after MODE_INIT in GCM and AAD (R246, R247). -/
def Engine.gcmSession (e : Engine) (dir : Dir) (t : Fin 17) (iv aad : Octets) : Engine :=
  { e.startSession .gcm dir .noPadding t iv with gcm := (Gcm.begin e.sm4.rk iv).takeAad aad }

theorem streamCipher_length (rk : Vector Word 32) (inc : Block → Block) (c : Block) (m : Octets) :
    (streamCipher rk inc c m).length = m.length :=
  xorBytes_length (by rw [keystream_length]; omega)

/-- From the counter that MODE_INIT sets, CtrXor is the one-shot cipher of GCM (R249, R256). -/
theorem Engine.gcmSession_ctrXor (e : Engine) (dir : Dir) (t : Fin 17) (iv aad m : Octets) :
    ((e.gcmSession dir t iv aad).sess.ctrXor e.sm4.rk inc32 m).1 = oneShotCipher e.sm4.rk .gcm .noPadding iv m :=
  ctrXor_eq_streamCipher _ _ rfl m

section Turns
variable (p : Params) (e : Engine) (t : Fin 17) (iv : Octets) {aad m : Octets} (haad : aad.length < 2 ^ 61)
  (hm : m.length ≤ Config.gcmDataLimit)
include haad hm

/-- An encryption session releases C in MODE_UPDATE and T in MODE_FINAL (R256). -/
theorem Engine.gcmSession_seals : ∃ e',
    modeUpdate p (e.gcmSession .enc t iv aad) m = answer e' (oneShotCipher e.sm4.rk .gcm .noPadding iv m) ∧
    modeFinal e' [] = answer e.endSession
      (oneShotTag e.sm4.rk iv aad (oneShotCipher e.sm4.rk .gcm .noPadding iv m) t.val) := by
  have hc : (oneShotCipher e.sm4.rk .gcm .noPadding iv m).length ≤ Config.gcmDataLimit :=
    (streamCipher_length ..).trans_le hm
  have hfit : (e.gcmSession .enc t iv aad).gcm.clen.toNat + m.length ≤ Config.gcmDataLimit := (Nat.zero_add _).trans_le hm
  have hupdate := (modeUpdate_gcmEnc (e := e.gcmSession .enc t iv aad) rfl rfl p m rfl).trans (updateGcmEnc_of_fits hfit)
  have hout : ((e.gcmSession .enc t iv aad).sess.ctrXor (e.gcmSession .enc t iv aad).sm4.rk inc32 m).1 = _ :=
    e.gcmSession_ctrXor .enc t iv aad m
  rw [hout] at hupdate
  refine ⟨_, hupdate, (modeFinal_gcmEnc_nil (ctrXor_phase ..) (ctrXor_mode ..) (ctrXor_dir ..)).trans ?_⟩
  rw [← gcmCloseTag_eq_oneShotTag e.sm4.rk iv t.val haad hc]
  dsimp only
  rw [ctrXor_t]
  rfl

/-- A decryption session releases nothing in MODE_UPDATE, and P in MODE_FINAL for T (R256). -/
theorem Engine.gcmSession_opens (hcap : m.length ≤ p.gcmDecBufBytes) : ∃ e',
    modeUpdate p (e.gcmSession .dec t iv aad) (oneShotCipher e.sm4.rk .gcm .noPadding iv m) = answer e' [] ∧
    ∀ din, modeFinal e' din =
      if din = oneShotTag e.sm4.rk iv aad (oneShotCipher e.sm4.rk .gcm .noPadding iv m) t.val then answer e.endSession m
      else raiseEnding e .authenticationFailed := by
  have hc : (oneShotCipher e.sm4.rk .gcm .noPadding iv m).length = m.length := streamCipher_length ..
  have hfit : (e.gcmSession .dec t iv aad).gcm.clen.toNat + (oneShotCipher e.sm4.rk .gcm .noPadding iv m).length ≤
      Config.gcmDataLimit := by
    rw [hc]
    exact (Nat.zero_add _).trans_le hm
  have hbuf : (e.gcmSession .dec t iv aad).gcm.dbuf.length + (oneShotCipher e.sm4.rk .gcm .noPadding iv m).length ≤
      p.gcmDecBufBytes := by
    rw [hc]
    exact (Nat.zero_add _).trans_le hcap
  have hupdate := (modeUpdate_gcmDec (e := e.gcmSession .dec t iv aad) rfl rfl p _ rfl).trans
    (updateGcmDec_of_fits hfit hbuf)
  have hout : ((e.gcmSession .dec t iv aad).sess.ctrXor (e.gcmSession .dec t iv aad).sm4.rk inc32
      (oneShotCipher e.sm4.rk .gcm .noPadding iv m)).1 = m :=
    (e.gcmSession_ctrXor .dec t iv aad _).trans (streamCipher_streamCipher ..)
  rw [hout] at hupdate
  refine ⟨_, hupdate, fun din => (modeFinal_gcmDec_eq (ctrXor_phase ..) (ctrXor_mode ..) din (ctrXor_dir ..)).trans ?_⟩
  rw [← gcmCloseTag_eq_oneShotTag e.sm4.rk iv t.val haad (hc.trans_le hm)]
  dsimp only
  rw [ctrXor_t, Gcm.withhold, gcmCloseTag_withDbuf]
  rfl

end Turns

/-! ## The run of a GCM session -/

/-- MODE_AAD once for each part takes the parts' concatenation (R247, R256). -/
theorem core_run_modeAads {s : State} {e : Engine} {parts : List Octets} (rs : List Response) (rest : List Input) (n : Nat)
    (hfit : allFit s.params parts) (hact : e.sess.phase = .active) (hm : e.sess.mode = .gcm)
    (hnew : e.gcm.started = false) (hpend : e.gcm.gpend.length < 16)
    (hlen : e.gcm.alen.toNat + parts.flatten.length < 2 ^ 61) :
    Sys2Proof.core.run (parts.length + n)
        ((s.answered e rs).given (parts.map (fun d => .command ⟨0x31, d⟩) ++ rest)) =
      Sys2Proof.core.run n ((s.answered { e with gcm := e.gcm.takeAad parts.flatten }
        (rs ++ List.replicate parts.length ⟨.ok, []⟩)).given rest) := by
  induction parts generalizing e rs with
  | nil => simp [takeAad_nil hpend]
  | cons d parts ih =>
    rw [List.flatten_cons, List.length_append] at hlen
    have hd : e.gcm.alen.toNat + d.length < 2 ^ 61 := by omega
    have htail : (e.gcm.takeAad d).alen.toNat + parts.flatten.length < 2 ^ 61 := by
      rw [takeAad_alen hd]
      omega
    rw [List.length_cons, Nat.add_right_comm, List.map_cons, List.cons_append,
      core_run_command (s := s.answered e rs) (i := .modeAad) (by decide) (hfit d List.mem_cons_self)
        (congrArg (finish _) (modeAad_of_fits hact hm hnew hd)), State.answered_answered]
    refine (ih (e := { e with gcm := e.gcm.takeAad d }) _ (fun x hx => hfit x (List.mem_cons_of_mem _ hx)) hact hm hnew
      (takeAad_gpend_lt _ d) htail).trans ?_
    simp [takeAad_append, List.replicate_succ]

theorem core_run_modeUpdate {s : State} {e e' : Engine} {d o : Octets} (rs : List Response) (rest : List Input) (n : Nat)
    (hfit : s.params.dinFits d.length = true) (h : modeUpdate s.params e d = answer e' o) :
    Sys2Proof.core.run (n + 1) ((s.answered e rs).given (.command ⟨0x32, d⟩ :: rest)) =
      Sys2Proof.core.run n ((s.answered e' (rs ++ [⟨.ok, o⟩])).given rest) := by
  rw [core_run_command (s := s.answered e rs) (i := .modeUpdate) (by decide) hfit (congrArg (finish _) h),
    State.answered_answered]
  rfl

/-- MODE_UPDATE for a first part and then for each other part is one MODE_UPDATE with the parts' concatenation, answered
once for each part (R61, R256). -/
theorem core_run_modeUpdates_cons {s : State} {e e' : Engine} {d : Octets} {parts : List Octets} {o : Octets}
    (rs : List Response) (rest : List Input) (n : Nat) (hfit : allFit s.params (d :: parts))
    (h : modeUpdate s.params e (d :: parts).flatten = answer e' o) :
    ∃ rs', rs'.length = (d :: parts).length ∧ allOk rs' ∧ outputs rs' = o ∧
      Sys2Proof.core.run ((d :: parts).length + n)
          ((s.answered e rs).given ((d :: parts).map (fun d => .command ⟨0x32, d⟩) ++ rest)) =
        Sys2Proof.core.run n ((s.answered e' (rs ++ rs')).given rest) := by
  obtain ⟨hd, htail⟩ := List.forall_mem_cons.mp hfit
  induction parts generalizing d e rs o with
  | nil =>
    rw [List.flatten_cons, List.flatten_nil, List.append_nil] at h
    refine ⟨[⟨.ok, o⟩], rfl, by simp [allOk], by simp [outputs], ?_⟩
    rw [List.length_singleton, Nat.add_comm 1]
    exact core_run_modeUpdate rs rest n hd h
  | cons d' parts ih =>
    rw [List.flatten_cons] at h
    obtain ⟨e₁, o₁, e₂, o₂, hfirst, hparts, hall⟩ :=
      modeUpdate_concatenates s.params e d (d' :: parts).flatten (by rw [h, answer_status])
    obtain ⟨rfl, rfl⟩ := answer_inj.mp (h.symm.trans hall)
    obtain ⟨hd', htail'⟩ := List.forall_mem_cons.mp htail
    obtain ⟨rs', hlen, hok, hout, hrun⟩ := ih (rs ++ [⟨.ok, o₁⟩]) htail hparts hd' htail'
    refine ⟨⟨.ok, o₁⟩ :: rs', by rw [List.length_cons, hlen]; rfl, List.forall_mem_cons.mpr ⟨rfl, hok⟩,
      by simpa [outputs] using hout, ?_⟩
    rw [List.length_cons, Nat.add_right_comm, List.map_cons, List.cons_append, core_run_modeUpdate rs _ _ hd hfirst, hrun,
      List.append_assoc, List.singleton_append]

/-- The run of a MODE_INIT in GCM that passes every check (R246). -/
theorem core_run_gcmInit {s : State} {tagLen : Nat} {t : Fin 17} (dir : Dir) {iv : Octets} (rest : List Input) (n : Nat)
    (hkey : s.engine.sm4.keyValid = true) (htag : tagLength .gcm tagLen = some t) (hle : tagLen ≤ 16)
    (hiv : ivLengthAllowed .gcm iv.length = true) (hfit : s.params.dinFits iv.length = true) :
    Sys2Proof.core.run (n + 1) (s.given (.command ⟨encode (.modeInit 3 dir .noPadding tagLen), iv⟩ :: rest)) =
      Sys2Proof.core.run n ((s.answered (s.engine.startSession .gcm dir .noPadding t iv) [⟨.ok, []⟩]).given rest) := by
  have hword : decode (encode (.modeInit 3 dir .noPadding tagLen)) = .command (.modeInit 3 dir .noPadding tagLen) :=
    decode_encode (modeInit_wellFormed.mpr ⟨by decide, by omega⟩)
  have hexec : exec (.modeInit 3 dir .noPadding tagLen) (s.begin iv rest) = finish (s.begin iv rest)
      (answer (s.engine.startSession .gcm dir .noPadding t iv) []) := by
    rw [exec_modeInit, State.begin_engine, State.begin_din, modeInit_accepted dir hkey rfl rfl htag hiv]
  exact core_run_command hword hfit hexec n

theorem core_run_modeFinal_last (s : State) {e : Engine} {din : Octets} {r : Reply} (rs : List Response)
    (hfit : s.params.dinFits din.length = true) (h : modeFinal e din = r) :
    Sys2Proof.core.run 1 ((s.answered e rs).given [.command ⟨0x33, din⟩]) =
      .next (s.answered r.engine (rs ++ [⟨r.status, r.dout⟩])) := by
  rw [core_run_command (s := s.answered e rs) (i := .modeFinal) (by decide) hfit (congrArg (finish _) h),
    State.answered_answered]
  rfl

/-- MODE_UPDATE once for each part, then MODE_FINAL, in a GCM session: as one MODE_UPDATE with the parts' concatenation, then
MODE_FINAL, also when there is no part (R256). -/
theorem core_run_gcmUpdatesFinal {s : State} {e e' : Engine} {parts : List Octets} {o final : Octets} (rs : List Response)
    (hact : e.sess.phase = .active) (hm : e.sess.mode = .gcm) (hpend : e.gcm.gpend.length < 16)
    (hparts : allFit s.params parts) (hfinal : s.params.dinFits final.length = true)
    (h : modeUpdate s.params e parts.flatten = answer e' o) :
    ∃ rs', rs'.length = parts.length ∧ allOk rs' ∧ outputs rs' = o ∧
      Sys2Proof.core.run (parts.length + 1)
          ((s.answered e rs).given (parts.map (fun d => .command ⟨0x32, d⟩) ++ [.command ⟨0x33, final⟩])) =
        .next (s.answered (modeFinal e' final).engine
          (rs ++ rs' ++ [⟨(modeFinal e' final).status, (modeFinal e' final).dout⟩])) := by
  cases parts with
  | nil =>
    obtain ⟨rfl, hsame⟩ := modeFinal_of_modeUpdate_nil hact hm hpend h final
    refine ⟨[], rfl, nofun, rfl, ?_⟩
    rw [hsame, List.append_nil]
    exact core_run_modeFinal_last s rs hfinal rfl
  | cons d parts =>
    obtain ⟨rs', hlen, hok, hout, hrun⟩ := core_run_modeUpdates_cons rs [.command ⟨0x33, final⟩] 1 hparts h
    exact ⟨rs', hlen, hok, hout, hrun.trans (core_run_modeFinal_last s _ hfinal rfl)⟩

/-- A GCM session, however AAD and data are split: what one MODE_UPDATE with the total data outputs, and then what MODE_FINAL
answers (R256). -/
theorem core_run_gcmSession {s : State} {tagLen : Nat} {t : Fin 17} {dir : Dir} {iv final o : Octets}
    {aad parts : List Octets} {e' : Engine} (hkey : s.engine.sm4.keyValid = true) (htag : tagLength .gcm tagLen = some t)
    (hle : tagLen ≤ 16) (hiv : ivLengthAllowed .gcm iv.length = true) (hivFit : s.params.dinFits iv.length = true)
    (hfinal : s.params.dinFits final.length = true) (haad : allFit s.params aad) (hparts : allFit s.params parts)
    (hlen : aad.flatten.length < 2 ^ 61)
    (h : modeUpdate s.params (s.engine.gcmSession dir t iv aad.flatten) parts.flatten = answer e' o) :
    ∃ rs : List Response, rs.length = aad.length + parts.length + 1 ∧ allOk rs ∧ outputs rs = o ∧
      Sys2Proof.core.run (aad.length + parts.length + 2)
          (s.given (sessionInputs (encode (.modeInit 3 dir .noPadding tagLen)) iv aad parts final)) =
        .next (s.answered (modeFinal e' final).engine
          (rs ++ [⟨(modeFinal e' final).status, (modeFinal e' final).dout⟩])) := by
  obtain ⟨rs, hrs, hok, hout, hrun⟩ := core_run_gcmUpdatesFinal ([⟨.ok, []⟩] ++ List.replicate aad.length ⟨.ok, []⟩)
    rfl rfl (takeAad_gpend_lt _ _) hparts hfinal h
  refine ⟨[⟨.ok, []⟩] ++ List.replicate aad.length ⟨.ok, []⟩ ++ rs, ?_, ?_, ?_, ?_⟩
  · simp only [List.length_append, List.length_singleton, List.length_replicate, hrs]
    omega
  · simp only [allOk, List.mem_append, List.mem_singleton, List.mem_replicate]
    rintro r ((rfl | ⟨-, rfl⟩) | hr)
    · rfl
    · rfl
    · exact hok r hr
  · simpa [outputs] using hout
  · have hcount : aad.length + parts.length + 2 = aad.length + (parts.length + 1) + 1 := by omega
    rw [sessionInputs, List.append_assoc, List.append_assoc, List.singleton_append, hcount,
      core_run_gcmInit dir _ _ hkey htag hle hiv hivFit,
      core_run_modeAads (e := s.engine.startSession .gcm dir .noPadding t iv) _ _ _ haad rfl rfl rfl (Nat.zero_lt_succ 15)
        ((Nat.zero_add _).trans_lt hlen)]
    exact hrun

/-- Responses that are all OK and output nothing in all are silent one by one. -/
theorem eq_replicate_of_outputs_nil {rs : List Response} {n : Nat} (hlen : rs.length = n) (hok : allOk rs)
    (hout : outputs rs = []) : rs = List.replicate n ⟨.ok, []⟩ := by
  refine List.eq_replicate_iff.mpr ⟨hlen, fun r hr => ?_⟩
  have hdout : r.dout = [] := List.flatten_eq_nil_iff.mp hout _ (List.mem_map_of_mem hr)
  rw [← hok r hr, ← hdout]

/-! ## The obligations -/

/-- Settles O51: each law is that of an additive map that commutes with the multiplication by x. -/
theorem gfMulLaws : Obligations.GfMulLaws :=
  ⟨gfMul_comm, gfMul_assoc, gfMul_xor_right, gfMul_zero_left, gfMul_one_left⟩

/-- Settles O44: the rejected selections are those of every mode, and the accepted ones start the session. -/
theorem gcmInitRule : Obligations.GcmInitRule := by
  obtain ⟨hnoKey, hreject⟩ := modeInitRejects
  refine ⟨fun s dir pad tagLen => hnoKey s 3 tagLen dir pad, fun s dir pad tagLen hkey hbad =>
    hreject s 3 tagLen dir pad hkey (by tauto), fun s dir tagLen hkey htag hpos hlt => ?_⟩
  obtain ⟨t, ht, htval⟩ := tagLength_gcm htag
  refine ⟨gcmSubkey s.engine.sm4.rk, gcmJ0 (gcmSubkey s.engine.sm4.rk) s.din, _, t, rfl, gcmJ0_eq_of_twelve _,
    gcmJ0_eq_ghash _, inc32_toNat _, htval, ?_⟩
  rw [exec_modeInit, modeInit_accepted dir hkey rfl rfl ht (ivLengthAllowed_gcm_iff.mpr ⟨hpos, hlt⟩)]
  rfl

/-- Settles O45: AAD within its limit is absorbed, by the whole blocks of what waits and DIN. -/
theorem modeAadRule : Obligations.ModeAadRule := by
  refine ⟨formatS_opcode (i := .modeAad) (by decide), fun s hout => ?_, fun s hact hm hnew hlimit => ?_,
    fun s hact hm hnew hfit => ?_⟩
  · rw [exec_modeAad, modeAad, if_pos hout, finish_eq, raise]
  · have hge : s.engine.gcm.alen.toNat + s.din.length ≥ Config.gcmAadLimit := hlimit
    rw [exec_modeAad, modeAad, if_neg (by simp [hact, hm, hnew]), if_pos hge]
    rfl
  · refine ⟨_, _, s.engine.gcm.alen + BitVec.ofNat 64 s.din.length, splitsAs_iff.mpr ⟨rfl, rfl⟩,
      toNat_add_ofNat (by omega), ?_⟩
    rw [exec_modeAad, modeAad_of_fits hact hm hnew hfit]
    rfl

/-- Settles O46: CtrXor gives the ciphertext, and the extension takes it after the flush of the AAD. -/
theorem gcmUpdateEncrypt : Obligations.GcmUpdateEncrypt := by
  refine ⟨formatS_opcode (i := .modeUpdate) (by decide), fun _ => exec_modeUpdate_idle, fun s hact hm hdir hlimit => ?_,
    fun s hact hm hdir hfit hpend => ?_⟩
  · have hover : s.engine.gcm.clen.toNat + s.din.length > Config.gcmDataLimit := hlimit
    rw [exec_modeUpdate, modeUpdate_gcmEnc hact hm _ _ hdir, updateGcmEnc, if_pos hover]
    rfl
  · obtain ⟨hout, hadvanced⟩ := ctrXor_spec s.engine.sm4.rk inc32 s.engine.sess s.din
    have hlen := ctrXor_length s.engine.sm4.rk inc32 s.engine.sess s.din
    refine ⟨_, _, _, _, _, hadvanced, hout, splitsAs_iff.mpr ⟨rfl, rfl⟩, toNat_add_ofNat (by omega), ?_⟩
    rw [exec_modeUpdate, modeUpdate_gcmEnc hact hm _ _ hdir, updateGcmEnc_of_fits hfit,
      takeData_eq hpend (splitsAs_iff.mpr ⟨rfl, rfl⟩), hlen]
    rfl

/-- Settles O47: the extension takes DIN itself and withholds what CtrXor gives. -/
theorem gcmUpdateDecrypt : Obligations.GcmUpdateDecrypt := by
  refine ⟨formatS_opcode (i := .modeUpdate) (by decide), fun _ => exec_modeUpdate_idle, fun s hact hm hdir hlimit => ?_,
    fun s hact hm hdir hfit hcap hpend => ?_⟩
  · rw [exec_modeUpdate, modeUpdate_gcmDec hact hm _ _ hdir, updateGcmDec]
    obtain hdata | hcap := hlimit
    · have hover : s.engine.gcm.clen.toNat + s.din.length > Config.gcmDataLimit := hdata
      rw [if_pos hover]
      rfl
    · rw [if_pos hcap, ite_self]
      rfl
  · obtain ⟨hout, hadvanced⟩ := ctrXor_spec s.engine.sm4.rk inc32 s.engine.sess s.din
    refine ⟨_, _, _, _, hadvanced, splitsAs_iff.mpr ⟨rfl, rfl⟩, toNat_add_ofNat (by omega), ?_⟩
    rw [exec_modeUpdate, modeUpdate_gcmDec hact hm _ _ hdir, updateGcmDec_of_fits hfit hcap, Gcm.withhold,
      takeData_eq hpend (splitsAs_iff.mpr ⟨rfl, rfl⟩), hout]
    rfl

/-- Settles O48: the tag closes GHASH with the partial block and the length block. -/
theorem gcmFinalRule : Obligations.GcmFinalRule := by
  refine ⟨formatS_opcode (i := .modeFinal) (by decide), fun s hidle => ?_, fun s hact hm hdir hdin => ?_, ?_⟩
  · rw [exec_modeFinal, modeFinal_idle _ hidle, finish_eq, raise]
  · rw [exec_modeFinal, modeFinal_gcmEnc hact hm _ hdir, finalGcmEnc, if_pos (by simpa using hdin)]
    rfl
  · rintro s _ _ tag hact hm hpend rfl rfl htag
    have hclose : gcmCloseTag s.engine.sm4.rk s.engine.gcm s.engine.sess.t.val = tag :=
      (gcmCloseTag_eq _ _ hpend).trans htag.symm
    refine ⟨fun hdir hdin => ?_, fun hdir hdin => ?_, fun hdir hdin => ?_⟩
    · rw [exec_modeFinal, hdin, modeFinal_gcmEnc_nil hact hm hdir, hclose]
      rfl
    · rw [exec_modeFinal, modeFinal_gcmDec_eq hact hm _ hdir, hclose, if_pos hdin]
      rfl
    · rw [exec_modeFinal, modeFinal_gcmDec_eq hact hm _ hdir, hclose, if_neg hdin]
      rfl

/-- Settles O49: the session releases the one-shot ciphertext, and its extension closes with the one-shot tag. -/
theorem gcmSessionSeals : Obligations.GcmSessionSeals := by
  intro s tagLen iv aad parts hkey htagLen hiv hivFit haad hparts hlen hadm
  obtain ⟨t, htag, ht⟩ := tagLength_gcm htagLen
  obtain ⟨e', hupdate, hfinal⟩ := s.engine.gcmSession_seals s.params t iv hlen hadm
  obtain ⟨rs, -, hok, hout, hrun⟩ := core_run_gcmSession (final := []) hkey htag (by omega) hiv hivFit
    (dinFits_of_le (Nat.zero_le 96)) haad hparts hlen hupdate
  rw [hfinal] at hrun
  exact ⟨rs, _, _, rfl, rfl, hok, hout, ht ▸ hrun⟩

/-- Settles O50: MODE_UPDATE withholds the plaintext of the one-shot ciphertext, and MODE_FINAL compares DIN with the
one-shot tag. -/
theorem gcmSessionOpens : Obligations.GcmSessionOpens := by
  intro s tagLen iv p final aad parts hkey htagLen hiv hivFit hfinalFit haad hparts hlen hadm hcap hcipher
  obtain ⟨t, htag, ht⟩ := tagLength_gcm htagLen
  obtain ⟨e', hupdate, hfinal⟩ := s.engine.gcmSession_opens s.params t iv hlen hadm hcap
  rw [← hcipher] at hupdate hfinal
  obtain ⟨rs, hrs, hok, hout, hrun⟩ :=
    core_run_gcmSession hkey htag (by omega) hiv hivFit hfinalFit haad hparts hlen hupdate
  rw [hrun, hfinal, eq_replicate_of_outputs_nil hrs hok hout, ← ht]
  split <;> rfl

end Sys2Proof.Machine

/-! # The errors' statements (60_exceptions.md)
PROOF. Which statuses a command's reply can carry and what each of them leaves of the engine, said once for every command;
the two statements read it off the reply of a command and of a step. -/

namespace Sys2Proof.Machine

/-! ## The replies the rules allow -/

/-- A reply on the engine `e` that keeps to a `row` of statuses, those in `ending` ending the session: OK, an error that
leaves the engine as it was, or an error that ends the session (R282, R283, R296). -/
inductive Reply.Lawful (row : List Status) (ending : Status → Bool) (e : Engine) : Reply → Prop
  | ok {e' : Engine} {out : Octets} (hrow : .ok ∈ row := by decide) : Lawful row ending e (answer e' out)
  | keeps {st : Status} (hrow : st ∈ row := by decide) (hkeeps : ending st = false := by rfl) :
    Lawful row ending e (raise e st)
  | ends {st : Status} (hrow : st ∈ row := by decide) (hends : ending st = true := by rfl) :
    Lawful row ending e (raiseEnding e st)

section Lawful
variable {row : List Status} {ending : Status → Bool} {e : Engine} {r : Reply}

theorem Reply.Lawful.mono {row' : List Status} (h : r.Lawful row ending e) (hsub : row ⊆ row') :
    r.Lawful row' ending e := by
  cases h with
  | ok hrow => exact .ok (hsub hrow)
  | keeps hrow hkeeps => exact .keeps (hsub hrow) hkeeps
  | ends hrow hends => exact .ends (hsub hrow) hends

theorem Reply.Lawful.status_mem (h : r.Lawful row ending e) : r.status ∈ row := by
  cases h with
  | ok hrow | keeps hrow | ends hrow => exact hrow

/-- An error has no output (R282), and its status alone decides whether the session ends (R283). -/
theorem Reply.Lawful.error (h : r.Lawful row ending e) (herr : r.status ≠ .ok) :
    r.dout = [] ∧ r.engine = if ending r.status then e.endSession else e := by
  cases h with
  | ok => exact absurd rfl herr
  | keeps _ hkeeps => simp [hkeeps]
  | ends _ hends => simp [hends]

/-- A check whose error leaves the engine as it was, before a lawful reply. -/
theorem Reply.Lawful.checkKeeps {c : Prop} [Decidable c] {st : Status} (hr : r.Lawful row ending e)
    (hrow : st ∈ row := by decide) (hkeeps : ending st = false := by rfl) :
    (if c then raise e st else r).Lawful row ending e := by
  split
  · exact .keeps hrow hkeeps
  · exact hr

/-- A check whose error ends the session, before a lawful reply. -/
theorem Reply.Lawful.checkEnds {c : Prop} [Decidable c] {st : Status} (hr : r.Lawful row ending e)
    (hrow : st ∈ row := by decide) (hends : ending st = true := by rfl) :
    (if c then raiseEnding e st else r).Lawful row ending e := by
  split
  · exact .ends hrow hends
  · exact hr

end Lawful

/-! ## The commands that are no session commands -/

section Replies
variable (e : Engine) (din : Octets)

/-- A command that takes no DIN and answers OK on ε (R77). -/
theorem needEmptyDin_answer_lawful (e' : Engine) (out : Octets) :
    (needEmptyDin e din (answer e' out)).Lawful [.ok, .invalidInputLength] (fun _ => false) e := .checkKeeps .ok

theorem sm3Update_lawful :
    (sm3Update e din).Lawful [.ok, .sequenceError, .invalidInputLength] (fun _ => false) e := .checkKeeps (.checkKeeps .ok)

theorem sm3Final_lawful :
    (sm3Final e din).Lawful [.ok, .sequenceError, .invalidInputLength] (fun _ => false) e := .checkKeeps (.checkKeeps .ok)

theorem sm3Oneshot_lawful : (sm3Oneshot e din).Lawful [.ok, .invalidInputLength] (fun _ => false) e := .checkKeeps .ok

theorem sm3Compress_lawful : (sm3Compress e din).Lawful [.ok, .invalidInputLength] (fun _ => false) e := .checkKeeps .ok

theorem sm3Expand_lawful : (sm3Expand e din).Lawful [.ok, .invalidInputLength] (fun _ => false) e := .checkKeeps .ok

theorem sm4SetKey_lawful : (sm4SetKey e din).Lawful [.ok, .invalidKey] (fun _ => false) e := .checkKeeps .ok

theorem sm4OneBlock_lawful (f : Vector Word 32 → Block → Block) :
    (sm4OneBlock e din f).Lawful [.ok, .sequenceError, .invalidInputLength] (fun _ => false) e :=
  .checkKeeps (.checkKeeps .ok)

theorem modBinary_lawful (m : Nat) (f : Nat → Nat → Nat) :
    (modBinary m f e din).Lawful [.ok, .invalidInputLength, .invalidOperand] (fun _ => false) e :=
  .checkKeeps (.checkKeeps (.checkKeeps .ok))

theorem modUnary_lawful (m : Nat) (f : Nat → Option Nat) :
    (modUnary m f e din).Lawful [.ok, .invalidInputLength, .invalidOperand] (fun _ => false) e := by
  refine .checkKeeps (.checkKeeps ?_)
  cases f (beNat din) with
  | none => exact .keeps
  | some r => exact .ok

/-! ## The session commands -/

theorem modeInit_lawful (mode : Nat) (dir : Dir) (pad : Pad) (tagLen : Nat) :
    (modeInit mode dir pad tagLen e din).Lawful [.ok, .sequenceError, .invalidParameter] (· ≠ .sequenceError) e := by
  refine .checkKeeps ?_
  cases Mode.ofField mode with
  | none => exact .ends
  | some m =>
    refine .checkEnds ?_
    cases tagLength m tagLen with
    | none => exact .ends
    | some t => exact .checkEnds .ok

theorem modeAad_lawful :
    (modeAad e din).Lawful [.ok, .sequenceError, .invalidInputLength] (· ≠ .sequenceError) e :=
  .checkKeeps (.checkEnds .ok)

theorem updateGcmEnc_lawful : (updateGcmEnc e din).Lawful [.ok, .invalidInputLength] (· ≠ .sequenceError) e :=
  .checkEnds .ok

theorem updateGcmDec_lawful (p : Params) :
    (updateGcmDec p e din).Lawful [.ok, .invalidInputLength] (· ≠ .sequenceError) e := .checkEnds (.checkEnds .ok)

theorem finalNoPadding_lawful : (finalNoPadding e din).Lawful [.ok, .invalidInputLength] (· ≠ .sequenceError) e :=
  .checkEnds (.checkEnds .ok)

theorem finalPkcs7Enc_lawful : (finalPkcs7Enc e din).Lawful [.ok, .invalidInputLength] (· ≠ .sequenceError) e :=
  .checkEnds .ok

theorem finalPkcs7Dec_lawful :
    (finalPkcs7Dec e din).Lawful [.ok, .invalidInputLength, .badPadding] (· ≠ .sequenceError) e := by
  refine .checkEnds (.checkEnds ?_)
  cases pkcs7Unpad (e.sess.blockOp e.sm4.rk e.sess.pend).1 with
  | none => exact .ends
  | some m => exact .ok

theorem finalCtr_lawful : (finalCtr e din).Lawful [.ok, .invalidInputLength] (· ≠ .sequenceError) e := .checkEnds .ok

theorem finalGcmEnc_lawful : (finalGcmEnc e din).Lawful [.ok, .invalidInputLength] (· ≠ .sequenceError) e :=
  .checkEnds .ok

theorem finalGcmDec_lawful : (finalGcmDec e din).Lawful [.ok, .authenticationFailed] (· ≠ .sequenceError) e :=
  .checkEnds .ok

theorem sequenceError_mem_modeUpdate : .sequenceError ∈ statusesOf e .modeUpdate := by
  dsimp only [statusesOf]
  split <;> decide

theorem sequenceError_mem_modeFinal : .sequenceError ∈ statusesOf e .modeFinal := by
  dsimp only [statusesOf]
  split <;> decide

/-- MODE_UPDATE by the session's mode: only GCM has an error beside SequenceError. -/
theorem modeUpdate_lawful (p : Params) :
    (modeUpdate p e din).Lawful (statusesOf e .modeUpdate) (· ≠ .sequenceError) e := by
  by_cases hidle : e.sess.phase = .idle
  · rw [modeUpdate_idle p din hidle]
    exact .keeps (sequenceError_mem_modeUpdate e)
  rw [modeUpdate_active p din hidle]
  cases hm : e.sess.mode with
  | ecb | cbc | ctr => exact .ok (by simp [statusesOf, hm])
  | gcm =>
    have hrow : [.ok, .invalidInputLength] ⊆ statusesOf e .modeUpdate := by simp [statusesOf, hm]
    cases e.sess.dir with
    | enc => exact (updateGcmEnc_lawful e din).mono hrow
    | dec => exact (updateGcmDec_lawful e din p).mono hrow

/-- MODE_FINAL by the session's mode, padding and direction. -/
theorem modeFinal_lawful : (modeFinal e din).Lawful (statusesOf e .modeFinal) (· ≠ .sequenceError) e := by
  by_cases hidle : e.sess.phase = .idle
  · rw [modeFinal_idle din hidle]
    exact .keeps (sequenceError_mem_modeFinal e)
  have hact := Phase.eq_active hidle
  cases hm : e.sess.mode with
  | ctr =>
    rw [modeFinal_ctr din hact hm]
    exact (finalCtr_lawful e din).mono (by simp [statusesOf, hm])
  | gcm =>
    cases hdir : e.sess.dir with
    | enc =>
      rw [modeFinal_gcmEnc hact hm din hdir]
      exact (finalGcmEnc_lawful e din).mono (by simp [statusesOf, hm, hdir])
    | dec =>
      rw [modeFinal_gcmDec hact hm din hdir]
      exact (finalGcmDec_lawful e din).mono (by simp [statusesOf, hm, hdir])
  | ecb | cbc =>
    have hblock : isBlockMode e.sess.mode = true := by rw [hm]; rfl
    cases hpad : e.sess.pad with
    | noPadding =>
      rw [modeFinal_noPadding din hact hblock hpad]
      exact (finalNoPadding_lawful e din).mono (by simp [statusesOf, hm, hpad])
    | pkcs7 =>
      cases hdir : e.sess.dir with
      | enc =>
        rw [modeFinal_pkcs7Enc din hact hblock hpad hdir]
        exact (finalPkcs7Enc_lawful e din).mono (by simp [statusesOf, hm, hdir])
      | dec =>
        rw [modeFinal_pkcs7Dec din hact hblock hpad hdir]
        exact (finalPkcs7Dec_lawful e din).mono (by simp [statusesOf, hm, hpad, hdir])

end Replies

/-! ## Every command and every step -/

/-- Every command's reply keeps to its row of R296, and its errors leave what R283 says. -/
theorem exec_lawful (i : Instr) (s : State) : ∃ r, exec i s = .next (s.complete r) ∧
    r.Lawful (statusesOf s.engine i) (errorEndsSession i) s.engine := by
  cases i with
  | nop | getState | engineReset | sm3Init | sm4ClearKey | modeAbort =>
    exact ⟨_, rfl, needEmptyDin_answer_lawful ..⟩
  | sm3Update => exact ⟨_, rfl, sm3Update_lawful ..⟩
  | sm3Final => exact ⟨_, rfl, sm3Final_lawful ..⟩
  | sm3Oneshot => exact ⟨_, rfl, sm3Oneshot_lawful ..⟩
  | sm3Compress => exact ⟨_, rfl, sm3Compress_lawful ..⟩
  | sm3Expand => exact ⟨_, rfl, sm3Expand_lawful ..⟩
  | sm4SetKey => exact ⟨_, rfl, sm4SetKey_lawful ..⟩
  | sm4EncBlock | sm4DecBlock => exact ⟨_, rfl, sm4OneBlock_lawful ..⟩
  | modeInit => exact ⟨_, rfl, modeInit_lawful ..⟩
  | modeAad => exact ⟨_, rfl, modeAad_lawful ..⟩
  | modeUpdate => exact ⟨_, rfl, modeUpdate_lawful ..⟩
  | modeFinal => exact ⟨_, rfl, modeFinal_lawful ..⟩
  | fpAdd | fpSub | fpMul | fnAdd | fnSub | fnMul => exact ⟨_, rfl, modBinary_lawful ..⟩
  | fpSqr | fpInv | fnSqr | fnInv => exact ⟨_, rfl, modUnary_lawful ..⟩

/-- No row of R296 lists a reserved status (R293). -/
theorem statusesOf_all_unreserved (e : Engine) (i : Instr) : (statusesOf e i).all (!·.reserved) = true := by
  cases i with
  | modeUpdate | modeFinal =>
    dsimp only [statusesOf]
    split <;> rfl
  | _ => rfl

/-- A step that takes a command answers with an error before the command itself, which leaves the engine as it was, or
with the decoded command's reply (R284). -/
theorem step_reply {s t : State} {c : Command} {rest : List Input} (hp : s.pending = .command c :: rest)
    (ht : step s = .next t) : ∃ r, t = (s.begin c.din rest).complete r ∧
      ((∃ st, r = raise s.engine st ∧ ∀ i, decode c.cmd = .command i → s.params.dinFits c.din.length = false) ∨
        ∃ i, decode c.cmd = .command i ∧ s.params.dinFits c.din.length = true ∧
          r.Lawful (statusesOf s.engine i) (errorEndsSession i) s.engine) := by
  cases hd : decode c.cmd with
  | illegal why =>
    rw [step_illegal hp (by simp [hd])] at ht
    exact ⟨_, (Host.Outcome.next.inj ht).symm, .inl ⟨_, rfl, nofun⟩⟩
  | command i =>
    cases hf : s.params.dinFits c.din.length with
    | false =>
      rw [step_overlong hp hd hf] at ht
      exact ⟨_, (Host.Outcome.next.inj ht).symm, .inl ⟨_, rfl, fun _ _ => rfl⟩⟩
    | true =>
      obtain ⟨r, hr, hlawful⟩ := exec_lawful i (s.begin c.din rest)
      rw [step_command hp hd hf, hr] at ht
      exact ⟨r, (Host.Outcome.next.inj ht).symm, .inr ⟨i, rfl, rfl, hlawful⟩⟩

/-! ## The obligations -/

/-- Settles O55: an error before the command changes nothing, and an error of the command ends the session exactly where
its status says so. -/
theorem errorsLeaveState : Obligations.ErrorsLeaveState := by
  intro s t c rest st out older hp ht hresp herr
  obtain ⟨r, rfl, hr⟩ := step_reply hp ht
  obtain ⟨⟨rfl, rfl⟩, rfl⟩ : (r.status = st ∧ r.dout = out) ∧ s.responses = older := by simpa using hresp
  obtain ⟨st, rfl, hrefused⟩ | ⟨i, hd, hf, hlawful⟩ := hr
  · exact ⟨rfl, rfl, fun _ => rfl, fun i hd hf => by simp [hrefused i hd] at hf⟩
  · obtain ⟨hout, hengine⟩ := hlawful.error herr
    refine ⟨hout, rfl, fun hkeeps => ?_, fun j hj _ hends => ?_⟩
    · rw [State.complete_engine, hengine, hkeeps i hd hf]
      rfl
    · obtain rfl : i = j := by simpa [hd] using hj
      rw [State.complete_engine, hengine, hends]
      rfl

/-- Settles O56: the reply's status is in the command's row, and no row lists a reserved one. -/
theorem statusesPerCommand : Obligations.StatusesPerCommand := by
  intro i s st h
  obtain ⟨r, hr, hlawful⟩ := exec_lawful i s
  obtain rfl : r.status = st := by simpa [statusOf, hr] using h
  have hrow := hlawful.status_mem
  exact ⟨hrow, by simpa using List.all_eq_true.mp (statusesOf_all_unreserved s.engine i) _ hrow⟩

end Sys2Proof.Machine

/-! # The frames of the units (70_reset_and_hazards.md)
PROOF. Which units of the engine a command can change, said once for each family of commands; the statement reads it off
the engine that the command leaves. -/

namespace Sys2Proof.Machine

/-! ## What a reply can change -/

section Replies
variable (e : Engine) (din : Octets)

/-- A command that takes no DIN leaves the engine of its body, or what it found (R77). -/
theorem needEmptyDin_engine_cases (body : Reply) :
    (needEmptyDin e din body).engine = e ∨ (needEmptyDin e din body).engine = body.engine := by
  obtain ⟨-, h⟩ | ⟨-, h⟩ := needEmptyDin_cases e din body
  · exact .inr (by rw [h])
  · exact .inl (by rw [h, raise_engine])

theorem sm3Init_frame : ∃ x, (sm3Init e din).engine = { e with sm3 := x } := by
  obtain h | h := needEmptyDin_engine_cases e din (answer { e with sm3 := .started } [])
  · exact ⟨_, h⟩
  · exact ⟨_, h⟩

theorem sm3Update_frame : ∃ x, (sm3Update e din).engine = { e with sm3 := x } := by
  unfold sm3Update
  split_ifs
  · exact ⟨_, rfl⟩
  · exact ⟨_, rfl⟩
  · exact ⟨_, rfl⟩

theorem sm3Final_frame : ∃ x, (sm3Final e din).engine = { e with sm3 := x } := by
  unfold sm3Final
  split
  · exact ⟨_, rfl⟩
  · obtain h | h := needEmptyDin_engine_cases e din (answer { e with sm3 := .idle } e.sm3.digest)
    · exact ⟨_, h⟩
    · exact ⟨_, h⟩

@[simp] theorem sm4SetKey_sm3 : (sm4SetKey e din).engine.sm3 = e.sm3 := by
  unfold sm4SetKey
  split
  · rfl
  · rfl

@[simp] theorem sm4ClearKey_sm3 : (sm4ClearKey e din).engine.sm3 = e.sm3 := by
  obtain h | h := needEmptyDin_engine_cases e din (answer (e.withKey .cleared) [])
  · rw [sm4ClearKey, h]
  · rw [sm4ClearKey, h, answer_engine, Engine.withKey_sm3]

theorem modeInit_frame (mode : Nat) (dir : Dir) (pad : Pad) (tagLen : Nat) :
    ∃ x g, (modeInit mode dir pad tagLen e din).engine = { e with sess := x, gcm := g } := by
  obtain h | h | ⟨m, t, -, -, -, h⟩ := modeInit_engine_cases e din mode dir pad tagLen
  · exact ⟨_, _, h⟩
  · exact ⟨_, _, h⟩
  · cases m with
    | ecb | cbc | ctr | gcm => exact ⟨_, _, h⟩

/-- MODE_AAD changes the GCM extension alone, or ends the session (R215, R247). -/
theorem modeAad_engine_cases :
    (∃ g, (modeAad e din).engine = { e with gcm := g }) ∨ (modeAad e din).engine = e.endSession := by
  unfold modeAad
  split_ifs
  · exact .inl ⟨_, rfl⟩
  · exact .inr rfl
  · exact .inl ⟨_, rfl⟩

theorem updateGcmEnc_frame : ∃ x g, (updateGcmEnc e din).engine = { e with sess := x, gcm := g } := by
  unfold updateGcmEnc
  dsimp only
  split
  · exact ⟨_, _, rfl⟩
  · exact ⟨_, _, rfl⟩

theorem updateGcmDec_frame (p : Params) :
    ∃ x g, (updateGcmDec p e din).engine = { e with sess := x, gcm := g } := by
  unfold updateGcmDec
  dsimp only
  split_ifs
  · exact ⟨_, _, rfl⟩
  · exact ⟨_, _, rfl⟩
  · exact ⟨_, _, rfl⟩

theorem modeUpdate_frame (p : Params) :
    ∃ x g, (modeUpdate p e din).engine = { e with sess := x, gcm := g } := by
  by_cases hidle : e.sess.phase = .idle
  · rw [modeUpdate_idle p din hidle]
    exact ⟨_, _, rfl⟩
  rw [modeUpdate_active p din hidle]
  cases e.sess.mode with
  | ecb | cbc | ctr => exact ⟨_, _, rfl⟩
  | gcm =>
    cases e.sess.dir with
    | enc => exact updateGcmEnc_frame e din
    | dec => exact updateGcmDec_frame e din p

theorem modeAbort_engine_cases : (modeAbort e din).engine = e ∨ (modeAbort e din).engine = e.endSession :=
  needEmptyDin_engine_cases e din (answer e.endSession [])

end Replies

/-! ## What a family of commands can change -/

theorem engine_of_finish {s t : State} {r : Reply} (h : finish s r = .next t) : t.engine = r.engine := by
  rw [next_of_finish h, State.complete_engine]

theorem statelessCommands_eq : statelessCommands =
    [.nop, .getState, .sm3Oneshot, .sm3Compress, .sm3Expand, .sm4EncBlock, .sm4DecBlock] ++
      modularCommands.map Prod.fst := rfl

section Families
variable {i : Instr} {s t : State}

/-- The inputs still to come and the parameters are no command's to change (log entries 1 and 2). -/
theorem exec_keeps_port (ht : exec i s = .next t) : t.params = s.params ∧ t.pending = s.pending := by
  obtain ⟨r, hr⟩ := exec_answers i s
  obtain rfl : s.complete r = t := Host.Outcome.next.inj (hr.symm.trans ht)
  exact ⟨State.complete_params .., State.complete_pending ..⟩

/-- The commands that hold no state leave the engine, on any status (R39). -/
theorem statelessCommand_engine (hi : i ∈ statelessCommands) (ht : exec i s = .next t) : t.engine = s.engine := by
  rw [statelessCommands_eq, List.mem_append, List.mem_map] at hi
  obtain hi | ⟨⟨i, m, k⟩, hmodular, rfl⟩ := hi
  · simp only [List.mem_cons, List.not_mem_nil, or_false] at hi
    obtain rfl | rfl | rfl | rfl | rfl | rfl | rfl := hi
    · exact (engine_of_finish ht).trans (ctlNop_engine ..)
    · exact (engine_of_finish ht).trans (ctlGetState_engine ..)
    · exact (engine_of_finish ht).trans (sm3Oneshot_engine ..)
    · exact (engine_of_finish ht).trans (sm3Compress_engine ..)
    · exact (engine_of_finish ht).trans (sm3Expand_engine ..)
    · exact (engine_of_finish ht).trans (sm4OneBlock_engine ..)
    · exact (engine_of_finish ht).trans (sm4OneBlock_engine ..)
  · exact modularCommand_engine hmodular ht

/-- SM3_INIT, SM3_UPDATE and SM3_FINAL change the SM3 context alone. -/
theorem sm3Command_frame (hi : i ∈ [Instr.sm3Init, .sm3Update, .sm3Final]) (ht : exec i s = .next t) :
    ∃ x, t.engine = { s.engine with sm3 := x } := by
  simp only [List.mem_cons, List.not_mem_nil, or_false] at hi
  obtain rfl | rfl | rfl := hi
  · exact engine_of_finish ht ▸ sm3Init_frame ..
  · exact engine_of_finish ht ▸ sm3Update_frame ..
  · exact engine_of_finish ht ▸ sm3Final_frame ..

theorem keyCommand_sm3 (hi : i ∈ [Instr.sm4SetKey, .sm4ClearKey]) (ht : exec i s = .next t) :
    t.engine.sm3 = s.engine.sm3 := by
  simp only [List.mem_cons, List.not_mem_nil, or_false] at hi
  obtain rfl | rfl := hi
  · exact engine_of_finish ht ▸ sm4SetKey_sm3 ..
  · exact engine_of_finish ht ▸ sm4ClearKey_sm3 ..

/-- The mode commands change the session and the GCM extension alone. -/
theorem modeCommand_frame
    (hi : i ∈ [Instr.modeAad, .modeUpdate, .modeFinal, .modeAbort] ∨ ∃ m d p n, i = .modeInit m d p n)
    (ht : exec i s = .next t) : ∃ x g, t.engine = { s.engine with sess := x, gcm := g } := by
  simp only [List.mem_cons, List.not_mem_nil, or_false] at hi
  obtain (rfl | rfl | rfl | rfl) | ⟨m, d, p, n, rfl⟩ := hi
  · obtain ⟨g, h⟩ | h := modeAad_engine_cases s.engine s.din
    · exact ⟨_, _, (engine_of_finish ht).trans h⟩
    · exact ⟨_, _, (engine_of_finish ht).trans h⟩
  · exact engine_of_finish ht ▸ modeUpdate_frame ..
  · rw [engine_of_finish ht, modeFinal_engine]
    split
    · exact ⟨_, _, rfl⟩
    · exact ⟨_, _, rfl⟩
  · obtain h | h := modeAbort_engine_cases s.engine s.din
    · exact ⟨_, _, (engine_of_finish ht).trans h⟩
    · exact ⟨_, _, (engine_of_finish ht).trans h⟩
  · exact engine_of_finish ht ▸ modeInit_frame ..

/-- MODE_AAD leaves the session's own state, unless it ends the session. -/
theorem modeAad_keeps_sess (ht : exec .modeAad s = .next t) (hact : t.engine.sess.phase = .active) :
    t.engine.sess = s.engine.sess := by
  obtain ⟨g, h⟩ | h := modeAad_engine_cases s.engine s.din
  · rw [engine_of_finish ht, h]
  · rw [engine_of_finish ht, h, Engine.endSession_sess] at hact
    cases hact

end Families

/-! ## The obligation -/

/-- Settles O57: each family's commands leave an engine that differs from the one before in that family's units only. -/
theorem unitFrames : Obligations.UnitFrames := by
  intro i s t ht
  obtain ⟨hparams, hpending⟩ := exec_keeps_port ht
  refine ⟨hparams, hpending, fun hi => statelessCommand_engine hi ht, fun hi => ?_, fun hi => keyCommand_sm3 hi ht,
    fun hi => ?_, ?_⟩
  · obtain ⟨x, h⟩ := sm3Command_frame hi ht
    simp [h]
  · obtain ⟨x, g, h⟩ := modeCommand_frame hi ht
    simp [h]
  · rintro rfl - hact
    exact modeAad_keeps_sess ht hact

end Sys2Proof.Machine
